-- ==== Sys2Proof/Word.lean ====
section
/-! DEFINITION. Sys2Proof/Word.lean: the words of the wire. A byte is 8 bits, bit 7 the most significant
(spec/00_scope.md R7); a byte sequence is a list, offset 0 first (R8); lengths, offsets and counts are
unbounded naturals (R9). -/

namespace Sys2Proof

/-- One byte of the wire (R7). -/
abbrev Byte := BitVec 8

/-- A byte sequence, the element at offset 0 first (R8). -/
abbrev Bytes := List Byte

/-- A 16-bit word: the CRC register, the CRC field, the expected value of CRC.CHECK. -/
abbrev Word16 := BitVec 16

/-- A message id, the 16-bit key of the descriptor table (R50 d). -/
abbrev MsgId := BitVec 16

end Sys2Proof
end

