-- ==== Sys2Proof/Machine/Bytes.lean ====
section
/-! DEFINITION. Sys2Proof/Machine/Bytes.lean: reading and writing numbers in byte sequences. Every multi-byte field is
big-endian (spec/20_memory.md R51); the readings are those of spec/00_scope.md R8. -/

namespace Sys2Proof.Machine

/-- `BEU(B)`, the unsigned big-endian value of a whole sequence (R8). -/
def beu (B : Bytes) : Nat := B.foldl (fun a b => a * 256 + b.toNat) 0

/-- `BES(B)`, the two's-complement reading of a non-empty sequence (R8, spec/30_encoding.md R84). -/
def bes (B : Bytes) : Int :=
  if beu B < 2 ^ (8 * B.length - 1) then (beu B : Int) else (beu B : Int) - 2 ^ (8 * B.length)

/-- `BYTES(w, u)`, the `w` bytes whose big-endian value is `u`, for `u < 2^(8w)` (R8). -/
def bytesOf : Nat → Nat → Bytes
  | 0, _ => []
  | w + 1, u => bytesOf w (u / 256) ++ [BitVec.ofNat 8 u]

/-- The byte at an offset. The callers read only offsets inside the sequence (R59). -/
def byteAt (B : Bytes) (i : Nat) : Byte := B.getD i 0

/-- `BE16(B, i)` as a number (R8). -/
def be16 (B : Bytes) (i : Nat) : Nat := (byteAt B i).toNat * 256 + (byteAt B (i + 1)).toNat

/-- `BE16(B, i)` as a 16-bit word: the byte at the lower offset is the high byte (R51). -/
def word16At (B : Bytes) (i : Nat) : Word16 := byteAt B i ++ byteAt B (i + 1)

/-- The two bytes of a 16-bit word, high byte first: `BYTES(2, w)` (R51). -/
def bytesOf16 (w : Word16) : Bytes := [w.extractLsb' 8 8, w.extractLsb' 0 8]

/-- `B[a..b)`, the subsequence from `a` inclusive to `b` exclusive (R8). -/
def slice (B : Bytes) (a b : Nat) : Bytes := (B.take b).drop a

end Sys2Proof.Machine
end

