-- ==== Sys2Proof/Machine/Params.lean ====
section
/-! DEFINITION. Sys2Proof/Machine/Params.lean: the fixed numbers of the block and the defaults of its configuration
(spec/00_scope.md R5, spec/10_state.md R24). -/

namespace Sys2Proof.Machine

/-- `STX` (R5). -/
def stxByte : Byte := 0x32

/-- `ETX` (R5). -/
def etxByte : Byte := 0x34

/-- `CRC_SEED` (R5). -/
def crcSeed : Word16 := 0x0000

/-- `CRC_POLY`, the generator with the x^16 term implicit (R5, spec/40_crc16.md R110). -/
def crcPoly : Word16 := 0x1021

/-- `HEADER_LEN` (R5). -/
def headerLen : Nat := 10

/-- `MIN_TOTAL` (R5, spec/42_frame_assembler.md R179). -/
def minTotal : Nat := 6

/-- The least legal `MAX_BUFFER_SIZE` (R24). -/
def minBufferSize : Nat := 6

/-- The greatest legal `LEN_CAP` (R24). -/
def maxLenCap : Nat := 65537

/-- `LEN_CAP` unless given (R24). -/
def defaultLenCap : Nat := 4096

/-- `JUMP_SLACK` unless given (R24). -/
def defaultJumpSlack : Nat := 512

/-- `JUMP_WINDOW` unless given (R24). -/
def defaultJumpWindow : Nat := 32

/-- The packet type that the dispatch filter lets through (spec/30_encoding.md R77). -/
def ptNormalCode : BitVec 4 := 1

/-- Payload type WRITE (R78). -/
def dtWriteCode : BitVec 4 := 2

/-- Payload type REQUEST (R78). -/
def dtRequestCode : BitVec 4 := 3

/-- Payload type NOTIFICATION (R78). -/
def dtNotificationCode : BitVec 4 := 4

/-- Payload type RESPONSE (R78). -/
def dtResponseCode : BitVec 4 := 5

end Sys2Proof.Machine
end

