-- ==== Sys2Proof/Syntax.lean ====
section
/-! DEFINITION. Sys2Proof/Syntax.lean: the values the block takes and returns (messages, descriptors, envelopes,
configuration), the command a host issues, and the instruction type: one constructor per row of
spec/opcode_table.json. -/

namespace Sys2Proof

/-! ### Messages, descriptors, the descriptor table (spec/41_wire_codec.md R120 to R122) -/

/-- The status that accompanies a decoded message (R123; codes in spec/60_exceptions.md R250). -/
inductive DecStatus where
  | ok
  | defaulted
  | unknownId
  | error
deriving DecidableEq, Repr

mutual
/-- A typed decoded value, one of eleven variants (R120). The five scaled variants carry exact rationals. -/
inductive Message where
  | bool (b : Bool)
  | enum (code : Nat)
  | int (z : Int)
  | float (q : Rat)
  | temp (q : Rat)
  | power (q : Rat)
  | energy (q : Rat)
  | current (q : Rat)
  | raw (B : Bytes)
  | string (B : Bytes)
  | struct (E : Entries)
deriving DecidableEq, Repr
/-- The entries `(sub_id, message, status)` of a structure message, in wire order (R120, R136). -/
inductive Entries where
  | nil
  | cons (subId : MsgId) (m : Message) (st : DecStatus) (rest : Entries)
deriving DecidableEq, Repr
end

/-- The eleven descriptor types (spec/30_encoding.md R85). -/
inductive DescType where
  | raw
  | bool
  | enum
  | int
  | float
  | temp
  | power
  | energy
  | current
  | string
  | struct
deriving DecidableEq, Repr

/-- The fields of a descriptor beside its type (R121). Each is optional because which fields are present depends on
the type, and SYS.RESET checks that (R122). `enumSet` maps unsigned codes to member names. -/
structure DescBody where
  width : Option Nat
  arithmetic : Option Rat
  signed : Option Bool
  enumSet : Option (List (Nat × String))
  declaredDefault : Option Message
deriving DecidableEq, Repr

/-- A descriptor: its 8-bit type tag (R85; 11 and above are no descriptors) and its other fields. -/
structure Descriptor where
  tag : Byte
  body : DescBody
deriving DecidableEq, Repr

/-- `DESC_TABLE`, a finite map from message ids to descriptors (spec/10_state.md R25), as the list of its entries. -/
abbrev DescTable := List (MsgId × Descriptor)

/-! ### Addresses, datasets, envelopes (spec/43_envelope_parser.md R200) -/

/-- The `ADDR` format: class, channel, unit (spec/30_encoding.md R75). -/
structure Address where
  cls : Byte
  chan : Byte
  unit : Byte
deriving DecidableEq, Repr

/-- A dataset `(id, kind, raw)`, and after EP.DECODE also its message and status (R200, R211). -/
structure Dataset where
  id : MsgId
  kind : BitVec 2
  raw : Bytes
  decoded : Option (Message × DecStatus)
deriving DecidableEq, Repr

/-- A decoded frame (R200). -/
structure Envelope where
  src : Address
  dst : Address
  info : BitVec 1
  version : BitVec 2
  retry : BitVec 2
  flagsRsvd : BitVec 3
  packetType : BitVec 4
  payloadType : BitVec 4
  packetNumber : Byte
  dsCount : Byte
  datasets : List Dataset
deriving DecidableEq, Repr

/-! ### Configuration operands (spec/10_state.md R24, spec/45_system_ops.md R240) -/

/-- An integer computed from the lower neighbour `f` of a tie; `div` and `mod` are those of Lean's `Int`. -/
inductive TieTerm where
  | floor
  | num (z : Int)
  | add (a b : TieTerm)
  | sub (a b : TieTerm)
  | mul (a b : TieTerm)
  | div (a b : TieTerm)
  | mod (a b : TieTerm)
deriving DecidableEq, Repr

/-- A test on the lower neighbour of a tie. -/
inductive TieTest where
  | le (a b : TieTerm)
  | not (t : TieTest)
  | and (t u : TieTest)
deriving DecidableEq, Repr

/-- Which neighbour a nearest-integer rounding takes on an exact tie. A host can name a usual rule, write its own as a test
that says when the tie goes up, or give any other rule at all as its `k`-th, which is free (`Config.tieGoesUp`). -/
inductive TieRule where
  | halfToEven
  | halfToOdd
  | halfUp
  | halfDown
  | halfAwayFromZero
  | halfTowardZero
  | upWhen (t : TieTest)
  | host (k : Nat)
deriving DecidableEq, Repr

/-- Roundings that go one way whatever the distance; a host can give one, and none is a legal `ROUND` (R144). -/
inductive Direction where
  | floor
  | ceiling
  | towardZero
  | awayFromZero
deriving DecidableEq, Repr

/-- A rounding function by its rule. -/
inductive RoundBase where
  | nearest (tie : TieRule)
  | directed (dir : Direction)
deriving DecidableEq, Repr

/-- `CFG.ROUND`, a function from rationals to integers (spec/00_scope.md R5), as plain data: its values at the listed
points (the first entry of a point counts) and a rule everywhere else. DESIGN CHOICE (log entry 6): State is plain data,
which cannot hold every function; one that no written rule gives is `TieRule.host`, whose ties are free. -/
structure RoundRule where
  points : List (Rat × Int)
  base : RoundBase
deriving DecidableEq, Repr

/-- The default `ROUND`, round-half-to-even (R24, R144). -/
def RoundRule.halfToEven : RoundRule := ⟨[], .nearest .halfToEven⟩

/-- The `cfg` operand of SYS.RESET: each field as far as it is given. The first two must be given, the others default
(R240). -/
structure ResetArgs where
  maxBufferSize : Option Nat
  localAddr : Option Address
  lenCap : Option Nat
  jumpSlack : Option Nat
  jumpWindow : Option Nat
  boolNonzeroTrue : Option Bool
  round : Option RoundRule
deriving DecidableEq, Repr

/-- `CFG`, the configuration register record (R24). -/
structure Cfg where
  maxBufferSize : Nat
  lenCap : Nat
  jumpSlack : Nat
  jumpWindow : Nat
  localAddr : Address
  boolNonzeroTrue : Bool
  round : RoundRule
deriving DecidableEq, Repr

/-- Where a dataset stands in the walk of R203: its index `i`, its payload offset `off`, and `ds_count`. -/
structure WalkPos where
  index : Nat
  offset : Nat
  count : Nat
deriving DecidableEq, Repr

/-! ### Instructions: one constructor per row of spec/opcode_table.json -/

/-- The instructions. The fourteen operations of R90 come first, with their operands. The other rows are the wire and
descriptor values that select behaviour inside an operation (R91); each is an instruction of its own here, with the
operands the selected behaviour reads. -/
inductive Instr where
  /-- SYS.RESET (R240); the table is absent where the host gives none -/
  | sysReset (cfg : ResetArgs) (table : Option DescTable)
  /-- FA.FLUSH (R241) -/
  | faFlush
  /-- CRC.INIT (R112) -/
  | crcInit
  /-- CRC.BYTE (R111) -/
  | crcByte (b : Byte)
  /-- CRC.BLOCK (R113) -/
  | crcBlock (B : Bytes)
  /-- CRC.CHECK (R114) -/
  | crcCheck (e : Word16)
  /-- FA.PUSH (R172) -/
  | faPush (data : Bytes)
  /-- EP.PARSE (R201) -/
  | epParse (P : Bytes)
  /-- EP.FILTER (R213) -/
  | epFilter (env : Envelope)
  /-- EP.DECODE (R211) -/
  | epDecode (P : Bytes)
  /-- WC.DECODE (R123) -/
  | wcDecode (id : MsgId) (B : Bytes)
  /-- WC.ENCODE (R140) -/
  | wcEncode (id : MsgId) (m : Message)
  /-- EP.BUILD (R231) -/
  | epBuild (env : Envelope)
  /-- FA.BUILD (R233) -/
  | faBuild (P : Bytes)
  /-- STX (R71): the wire byte 0x32 arrives -/
  | stx
  /-- ETX (R71): the wire byte 0x34 arrives -/
  | etx
  /-- PT.STANDBY (R77), with the payload type nibble and the addresses of its packet -/
  | ptStandby (d : BitVec 4) (src dst : Address)
  /-- PT.NORMAL (R77) -/
  | ptNormal (d : BitVec 4) (src dst : Address)
  /-- PT.GATHERING (R77) -/
  | ptGathering (d : BitVec 4) (src dst : Address)
  /-- PT.INSTALL (R77) -/
  | ptInstall (d : BitVec 4) (src dst : Address)
  /-- PT.DOWNLOAD (R77) -/
  | ptDownload (d : BitVec 4) (src dst : Address)
  /-- DT.UNDEFINED (R78), with the packet type nibble and the addresses of its packet -/
  | dtUndefined (p : BitVec 4) (src dst : Address)
  /-- DT.READ (R78) -/
  | dtRead (p : BitVec 4) (src dst : Address)
  /-- DT.WRITE (R78) -/
  | dtWrite (p : BitVec 4) (src dst : Address)
  /-- DT.REQUEST (R78) -/
  | dtRequest (p : BitVec 4) (src dst : Address)
  /-- DT.NOTIFICATION (R78) -/
  | dtNotification (p : BitVec 4) (src dst : Address)
  /-- DT.RESPONSE (R78) -/
  | dtResponse (p : BitVec 4) (src dst : Address)
  /-- DT.ACK (R78) -/
  | dtAck (p : BitVec 4) (src dst : Address)
  /-- DT.NACK (R78) -/
  | dtNack (p : BitVec 4) (src dst : Address)
  /-- DS.K0 (R80): the bits id[15:11] and id[8:0], the walk position, the payload bytes after the id -/
  | dsK0 (hi : BitVec 5) (lo : BitVec 9) (pos : WalkPos) (rest : Bytes)
  /-- DS.K1 (R80) -/
  | dsK1 (hi : BitVec 5) (lo : BitVec 9) (pos : WalkPos) (rest : Bytes)
  /-- DS.K2 (R80) -/
  | dsK2 (hi : BitVec 5) (lo : BitVec 9) (pos : WalkPos) (rest : Bytes)
  /-- DS.K3 (R81) -/
  | dsK3 (hi : BitVec 5) (lo : BitVec 9) (pos : WalkPos) (rest : Bytes)
  /-- DEC.RAW (R134): the other fields of the descriptor found, and the value bytes -/
  | decRaw (d : DescBody) (B : Bytes)
  /-- DEC.BOOL (R126) -/
  | decBool (d : DescBody) (B : Bytes)
  /-- DEC.ENUM (R127) -/
  | decEnum (d : DescBody) (B : Bytes)
  /-- DEC.INT (R128) -/
  | decInt (d : DescBody) (B : Bytes)
  /-- DEC.FLOAT (R129) -/
  | decFloat (d : DescBody) (B : Bytes)
  /-- DEC.TEMP (R130) -/
  | decTemp (d : DescBody) (B : Bytes)
  /-- DEC.POWER (R131) -/
  | decPower (d : DescBody) (B : Bytes)
  /-- DEC.ENERGY (R132) -/
  | decEnergy (d : DescBody) (B : Bytes)
  /-- DEC.CURRENT (R133) -/
  | decCurrent (d : DescBody) (B : Bytes)
  /-- DEC.STRING (R135) -/
  | decString (d : DescBody) (B : Bytes)
  /-- DEC.STRUCT (R136) -/
  | decStruct (d : DescBody) (B : Bytes)
  /-- ENC.RAW (R149): the id, the other fields of its descriptor, and the message -/
  | encRaw (id : MsgId) (d : DescBody) (m : Message)
  /-- ENC.BOOL (R141) -/
  | encBool (id : MsgId) (d : DescBody) (m : Message)
  /-- ENC.ENUM (R142) -/
  | encEnum (id : MsgId) (d : DescBody) (m : Message)
  /-- ENC.INT (R143) -/
  | encInt (id : MsgId) (d : DescBody) (m : Message)
  /-- ENC.FLOAT (R144) -/
  | encFloat (id : MsgId) (d : DescBody) (m : Message)
  /-- ENC.TEMP (R145) -/
  | encTemp (id : MsgId) (d : DescBody) (m : Message)
  /-- ENC.POWER (R146) -/
  | encPower (id : MsgId) (d : DescBody) (m : Message)
  /-- ENC.ENERGY (R147) -/
  | encEnergy (id : MsgId) (d : DescBody) (m : Message)
  /-- ENC.CURRENT (R148) -/
  | encCurrent (id : MsgId) (d : DescBody) (m : Message)
  /-- ENC.STRING (R150) -/
  | encString (id : MsgId) (d : DescBody) (m : Message)
  /-- ENC.STRUCT (R151) -/
  | encStruct (id : MsgId) (d : DescBody) (m : Message)
deriving DecidableEq, Repr

/-! ### Commands: how an instruction reaches the block -/

/-- The places where a value selects behaviour (R91): the host's `OP`; a byte of a frame; the two nibbles of `TYPE`; the
message id of a dataset; the descriptor type in WC.DECODE and in WC.ENCODE. The same byte means different rows in
different places, so a command names its place. -/
inductive Space where
  | op
  | frame
  | packetType
  | payloadType
  | dataset
  | decArm
  | encArm
deriving DecidableEq, Repr

/-- A typed operand passed beside the bytes: the spec passes these as values and gives them no byte form
(spec/10_state.md R20, spec/30_encoding.md R90). -/
inductive Arg where
  | none
  | reset (cfg : ResetArgs) (table : Option DescTable)
  | envelope (env : Envelope)
  | message (m : Message)
  | addresses (src dst : Address)
  | walk (pos : WalkPos)
  | descriptor (d : DescBody)
  | encoding (d : DescBody) (m : Message)
deriving DecidableEq, Repr

/-- One issued command: where its first byte selects, its bytes (the selecting byte or bytes, then the byte operands
as spec/95_test_vectors.md section 5 lists them), and its typed operand. -/
structure Command where
  space : Space
  word : Bytes
  arg : Arg
deriving DecidableEq, Repr

end Sys2Proof
end

