-- ==== Sys2Proof/Decode.lean ====
section
/-! DEFINITION. Sys2Proof/Decode.lean: from a command's bytes and typed operand to an instruction, total on any command and
rejecting by name; the encoder; and how a word of spec/opcode_table.json becomes a command. -/

namespace Sys2Proof

/-- Why a command is no instruction. -/
inductive DecodeError where
  /-- no selecting value in the command -/
  | noSelector (space : Space)
  /-- an `OP` that spec/30_encoding.md R90 does not list -/
  | badOp (op : Byte)
  /-- the operation `op` with operands of another shape -/
  | badOpOperands (op : Byte)
  /-- a row outside the `OP` place with operands of another shape -/
  | badOperands (space : Space)
  /-- a value that is no row of its place -/
  | unassigned (space : Space) (b : Byte)
deriving DecidableEq, Repr

namespace Decode

/-! ### Fields of the selecting values -/

/-- `TYPE[7:4]` (R77). -/
def highNibble (b : Byte) : BitVec 4 := b.extractLsb' 4 4

/-- `TYPE[3:0]` (R78). -/
def lowNibble (b : Byte) : BitVec 4 := b.extractLsb' 0 4

/-- The `TYPE` byte of a packet type and a payload type (R77, R78). -/
def typeByte (p d : BitVec 4) : Byte := p ++ d

/-- The width-kind of a message id, `id[10:9]` (R82). -/
def kindOf (id : MsgId) : BitVec 2 := id.extractLsb' 9 2

/-- `id[15:11]`. -/
def idHigh (id : MsgId) : BitVec 5 := id.extractLsb' 11 5

/-- `id[8:0]`. -/
def idLow (id : MsgId) : BitVec 9 := id.extractLsb' 0 9

/-- A message id from its width-kind and its other bits (R82). -/
def mkId (hi : BitVec 5) (kind : BitVec 2) (lo : BitVec 9) : MsgId := hi ++ kind ++ lo

/-! ### Decoding, place by place (R91) -/

/-- The `cfg` operand of a SYS.RESET that gives no field. A SYS.RESET command with operands of another shape gives none,
and no table: an ill-formed argument raises BAD_CONFIG (spec/92_eei_decisions.md D30: log entry 19). -/
def noResetArgs : ResetArgs := ⟨none, none, none, none, none, none, none⟩

/-- The operands of SYS.RESET. -/
def resetOperands : Bytes → Arg → Instr
  | [], .reset cfg table => .sysReset cfg table
  | _, _ => .sysReset noResetArgs none

/-- No operand. -/
def noOperand (op : Byte) (i : Instr) : Bytes → Arg → Except DecodeError Instr
  | [], .none => .ok i
  | _, _ => .error (.badOpOperands op)

/-- One byte. -/
def byteOperand (op : Byte) (f : Byte → Instr) : Bytes → Arg → Except DecodeError Instr
  | [b], .none => .ok (f b)
  | _, _ => .error (.badOpOperands op)

/-- 16 bits, high byte first. -/
def wordOperand (op : Byte) (f : Word16 → Instr) : Bytes → Arg → Except DecodeError Instr
  | [h, l], .none => .ok (f (h ++ l))
  | _, _ => .error (.badOpOperands op)

/-- A byte sequence. -/
def bytesOperand (op : Byte) (f : Bytes → Instr) (B : Bytes) : Arg → Except DecodeError Instr
  | .none => .ok (f B)
  | _ => .error (.badOpOperands op)

/-- An envelope. -/
def envelopeOperand (op : Byte) (f : Envelope → Instr) : Bytes → Arg → Except DecodeError Instr
  | [], .envelope env => .ok (f env)
  | _, _ => .error (.badOpOperands op)

/-- A message id and value bytes. -/
def idBytesOperands (op : Byte) (f : MsgId → Bytes → Instr) : Bytes → Arg → Except DecodeError Instr
  | h :: l :: V, .none => .ok (f (h ++ l) V)
  | _, _ => .error (.badOpOperands op)

/-- A message id and a message. -/
def idMessageOperands (op : Byte) (f : MsgId → Message → Instr) : Bytes → Arg → Except DecodeError Instr
  | [h, l], .message m => .ok (f (h ++ l) m)
  | _, _ => .error (.badOpOperands op)

/-- The operations: the byte after `OP` on are the byte operands (R90; the listings of spec/95_test_vectors.md 5). -/
def decodeOp (op : Byte) (B : Bytes) (a : Arg) : Except DecodeError Instr :=
  match op.toNat with
  | 0x00 => .ok (resetOperands B a)
  | 0x02 => noOperand op .faFlush B a
  | 0x10 => noOperand op .crcInit B a
  | 0x11 => byteOperand op .crcByte B a
  | 0x12 => bytesOperand op .crcBlock B a
  | 0x13 => wordOperand op .crcCheck B a
  | 0x20 => bytesOperand op .faPush B a
  | 0x30 => bytesOperand op .epParse B a
  | 0x31 => envelopeOperand op .epFilter B a
  | 0x32 => bytesOperand op .epDecode B a
  | 0x40 => idBytesOperands op .wcDecode B a
  | 0x41 => idMessageOperands op .wcEncode B a
  | 0x50 => envelopeOperand op .epBuild B a
  | 0x51 => bytesOperand op .faBuild B a
  | _ => .error (.badOp op)

/-- The framing bytes (R71). -/
def decodeFrame (b : Byte) (B : Bytes) (a : Arg) : Except DecodeError Instr :=
  if b = Machine.stxByte then
    match B, a with
    | [], .none => .ok .stx
    | _, _ => .error (.badOperands .frame)
  else if b = Machine.etxByte then
    match B, a with
    | [], .none => .ok .etx
    | _, _ => .error (.badOperands .frame)
  else .error (.unassigned .frame b)

/-- The packet type nibble of a `TYPE` byte (R77). -/
def decodePacketType (b : Byte) (B : Bytes) (a : Arg) : Except DecodeError Instr :=
  match B, a with
  | [], .addresses src dst =>
    match (highNibble b).toNat with
    | 0 => .ok (.ptStandby (lowNibble b) src dst)
    | 1 => .ok (.ptNormal (lowNibble b) src dst)
    | 2 => .ok (.ptGathering (lowNibble b) src dst)
    | 3 => .ok (.ptInstall (lowNibble b) src dst)
    | 4 => .ok (.ptDownload (lowNibble b) src dst)
    | _ => .error (.unassigned .packetType b)
  | _, _ => .error (.badOperands .packetType)

/-- The payload type nibble of a `TYPE` byte (R78). -/
def decodePayloadType (b : Byte) (B : Bytes) (a : Arg) : Except DecodeError Instr :=
  match B, a with
  | [], .addresses src dst =>
    match (lowNibble b).toNat with
    | 0 => .ok (.dtUndefined (highNibble b) src dst)
    | 1 => .ok (.dtRead (highNibble b) src dst)
    | 2 => .ok (.dtWrite (highNibble b) src dst)
    | 3 => .ok (.dtRequest (highNibble b) src dst)
    | 4 => .ok (.dtNotification (highNibble b) src dst)
    | 5 => .ok (.dtResponse (highNibble b) src dst)
    | 6 => .ok (.dtAck (highNibble b) src dst)
    | 7 => .ok (.dtNack (highNibble b) src dst)
    | _ => .error (.unassigned .payloadType b)
  | _, _ => .error (.badOperands .payloadType)

/-- The message id that opens a dataset: its width-kind selects the form (R80 to R82). -/
def decodeDataset (b : Byte) (B : Bytes) (a : Arg) : Except DecodeError Instr :=
  match B with
  | [] => .error (.noSelector .dataset)
  | c :: rest =>
    let id : MsgId := b ++ c
    match a with
    | .walk pos =>
      match (kindOf id).toNat with
      | 0 => .ok (.dsK0 (idHigh id) (idLow id) pos rest)
      | 1 => .ok (.dsK1 (idHigh id) (idLow id) pos rest)
      | 2 => .ok (.dsK2 (idHigh id) (idLow id) pos rest)
      | _ => .ok (.dsK3 (idHigh id) (idLow id) pos rest)
    | _ => .error (.badOperands .dataset)

/-- The descriptor type that selects a decode arm (R85); the bytes after the tag are the value bytes. -/
def decodeDecArm (tag : Byte) (B : Bytes) (a : Arg) : Except DecodeError Instr :=
  match a with
  | .descriptor d =>
    match tag.toNat with
    | 0 => .ok (.decRaw d B)
    | 1 => .ok (.decBool d B)
    | 2 => .ok (.decEnum d B)
    | 3 => .ok (.decInt d B)
    | 4 => .ok (.decFloat d B)
    | 5 => .ok (.decTemp d B)
    | 6 => .ok (.decPower d B)
    | 7 => .ok (.decEnergy d B)
    | 8 => .ok (.decCurrent d B)
    | 9 => .ok (.decString d B)
    | 10 => .ok (.decStruct d B)
    | _ => .error (.unassigned .decArm tag)
  | _ => .error (.badOperands .decArm)

/-- The descriptor type that selects an encode arm (R85); the two bytes after the tag are the message id. -/
def decodeEncArm (tag : Byte) (B : Bytes) (a : Arg) : Except DecodeError Instr :=
  match B, a with
  | [h, l], .encoding d m =>
    match tag.toNat with
    | 0 => .ok (.encRaw (h ++ l) d m)
    | 1 => .ok (.encBool (h ++ l) d m)
    | 2 => .ok (.encEnum (h ++ l) d m)
    | 3 => .ok (.encInt (h ++ l) d m)
    | 4 => .ok (.encFloat (h ++ l) d m)
    | 5 => .ok (.encTemp (h ++ l) d m)
    | 6 => .ok (.encPower (h ++ l) d m)
    | 7 => .ok (.encEnergy (h ++ l) d m)
    | 8 => .ok (.encCurrent (h ++ l) d m)
    | 9 => .ok (.encString (h ++ l) d m)
    | 10 => .ok (.encStruct (h ++ l) d m)
    | _ => .error (.unassigned .encArm tag)
  | _, _ => .error (.badOperands .encArm)

end Decode

/-- The instruction a command stands for, or why it stands for none. -/
def decode (c : Command) : Except DecodeError Instr :=
  match c.word with
  | [] => .error (.noSelector c.space)
  | b :: B =>
    match c.space with
    | .op => Decode.decodeOp b B c.arg
    | .frame => Decode.decodeFrame b B c.arg
    | .packetType => Decode.decodePacketType b B c.arg
    | .payloadType => Decode.decodePayloadType b B c.arg
    | .dataset => Decode.decodeDataset b B c.arg
    | .decArm => Decode.decodeDecArm b B c.arg
    | .encArm => Decode.decodeEncArm b B c.arg

/-! ### The encoder -/

namespace Decode

/-- A DS command: the message id of kind `k`, then the rest of the payload. -/
def encodeDataset (hi : BitVec 5) (k : BitVec 2) (lo : BitVec 9) (pos : WalkPos) (rest : Bytes) : Command :=
  ⟨.dataset, Machine.bytesOf16 (mkId hi k lo) ++ rest, .walk pos⟩

/-- A DEC command: the tag, then the value bytes. -/
def encodeDecArm (tag : Byte) (d : DescBody) (B : Bytes) : Command := ⟨.decArm, tag :: B, .descriptor d⟩

/-- An ENC command: the tag, then the message id. -/
def encodeEncArm (tag : Byte) (id : MsgId) (d : DescBody) (m : Message) : Command :=
  ⟨.encArm, tag :: Machine.bytesOf16 id, .encoding d m⟩

/-- A PT or DT command: the `TYPE` byte. -/
def encodeType (space : Space) (p d : BitVec 4) (src dst : Address) : Command :=
  ⟨space, [typeByte p d], .addresses src dst⟩

end Decode

/-- The command that stands for an instruction: the select codes of R90, the framing bytes of R71, the nibbles of R77
and R78, the width-kinds of R82 and the tags of R85. -/
def encode : Instr → Command
  | .sysReset cfg table => ⟨.op, [0x00], .reset cfg table⟩
  | .faFlush => ⟨.op, [0x02], .none⟩
  | .crcInit => ⟨.op, [0x10], .none⟩
  | .crcByte b => ⟨.op, [0x11, b], .none⟩
  | .crcBlock B => ⟨.op, 0x12 :: B, .none⟩
  | .crcCheck e => ⟨.op, 0x13 :: Machine.bytesOf16 e, .none⟩
  | .faPush data => ⟨.op, 0x20 :: data, .none⟩
  | .epParse P => ⟨.op, 0x30 :: P, .none⟩
  | .epFilter env => ⟨.op, [0x31], .envelope env⟩
  | .epDecode P => ⟨.op, 0x32 :: P, .none⟩
  | .wcDecode id B => ⟨.op, 0x40 :: (Machine.bytesOf16 id ++ B), .none⟩
  | .wcEncode id m => ⟨.op, 0x41 :: Machine.bytesOf16 id, .message m⟩
  | .epBuild env => ⟨.op, [0x50], .envelope env⟩
  | .faBuild P => ⟨.op, 0x51 :: P, .none⟩
  | .stx => ⟨.frame, [0x32], .none⟩
  | .etx => ⟨.frame, [0x34], .none⟩
  | .ptStandby d src dst => Decode.encodeType .packetType 0 d src dst
  | .ptNormal d src dst => Decode.encodeType .packetType 1 d src dst
  | .ptGathering d src dst => Decode.encodeType .packetType 2 d src dst
  | .ptInstall d src dst => Decode.encodeType .packetType 3 d src dst
  | .ptDownload d src dst => Decode.encodeType .packetType 4 d src dst
  | .dtUndefined p src dst => Decode.encodeType .payloadType p 0 src dst
  | .dtRead p src dst => Decode.encodeType .payloadType p 1 src dst
  | .dtWrite p src dst => Decode.encodeType .payloadType p 2 src dst
  | .dtRequest p src dst => Decode.encodeType .payloadType p 3 src dst
  | .dtNotification p src dst => Decode.encodeType .payloadType p 4 src dst
  | .dtResponse p src dst => Decode.encodeType .payloadType p 5 src dst
  | .dtAck p src dst => Decode.encodeType .payloadType p 6 src dst
  | .dtNack p src dst => Decode.encodeType .payloadType p 7 src dst
  | .dsK0 hi lo pos rest => Decode.encodeDataset hi 0 lo pos rest
  | .dsK1 hi lo pos rest => Decode.encodeDataset hi 1 lo pos rest
  | .dsK2 hi lo pos rest => Decode.encodeDataset hi 2 lo pos rest
  | .dsK3 hi lo pos rest => Decode.encodeDataset hi 3 lo pos rest
  | .decRaw d B => Decode.encodeDecArm 0 d B
  | .decBool d B => Decode.encodeDecArm 1 d B
  | .decEnum d B => Decode.encodeDecArm 2 d B
  | .decInt d B => Decode.encodeDecArm 3 d B
  | .decFloat d B => Decode.encodeDecArm 4 d B
  | .decTemp d B => Decode.encodeDecArm 5 d B
  | .decPower d B => Decode.encodeDecArm 6 d B
  | .decEnergy d B => Decode.encodeDecArm 7 d B
  | .decCurrent d B => Decode.encodeDecArm 8 d B
  | .decString d B => Decode.encodeDecArm 9 d B
  | .decStruct d B => Decode.encodeDecArm 10 d B
  | .encRaw id d m => Decode.encodeEncArm 0 id d m
  | .encBool id d m => Decode.encodeEncArm 1 id d m
  | .encEnum id d m => Decode.encodeEncArm 2 id d m
  | .encInt id d m => Decode.encodeEncArm 3 id d m
  | .encFloat id d m => Decode.encodeEncArm 4 id d m
  | .encTemp id d m => Decode.encodeEncArm 5 id d m
  | .encPower id d m => Decode.encodeEncArm 6 id d m
  | .encEnergy id d m => Decode.encodeEncArm 7 id d m
  | .encCurrent id d m => Decode.encodeEncArm 8 id d m
  | .encString id d m => Decode.encodeEncArm 9 id d m
  | .encStruct id d m => Decode.encodeEncArm 10 id d m

/-! ### Words of spec/opcode_table.json

The table numbers a row's bits within its place and does not say the place, and rows of different places share words.
Log entry 4 says which place a bare word is taken in. -/

namespace Decode

/-- The fourteen select codes of R90. -/
def listedOps : List Nat :=
  [0x00, 0x02, 0x10, 0x11, 0x12, 0x13, 0x20, 0x30, 0x31, 0x32, 0x40, 0x41, 0x50, 0x51]

/-- The place a bare byte is taken in: the first of `OP`, frame, descriptor type, packet type and payload type that has a
row for it, so that a row that fixes the whole byte comes before one that fixes a nibble. -/
def spaceOfByte (b : Nat) : Space :=
  if listedOps.contains b then .op
  else if b = 0x32 ∨ b = 0x34 then .frame
  else if b ≤ 10 then .decArm
  else if b / 16 ≤ 4 then .packetType
  else if b % 16 ≤ 7 then .payloadType
  else .op

/-- A plain descriptor body of a type tag: width 1, scale 1, unsigned, the enum set of code 0. -/
def plainBodyOf (tag : Nat) : DescBody :=
  match tag with
  | 1 => ⟨some 1, none, none, none, none⟩
  | 2 => ⟨some 1, none, none, some [(0, "M0")], none⟩
  | 3 => ⟨some 1, none, some false, none, none⟩
  | 4 | 5 | 6 | 7 | 8 => ⟨some 1, some 1, some false, none, none⟩
  | _ => ⟨none, none, none, none, none⟩

/-- An address of zeros. -/
def zeroAddress : Address := ⟨0, 0, 0⟩

/-- An envelope of zeros, with no dataset. -/
def zeroEnvelope : Envelope := ⟨zeroAddress, zeroAddress, 0, 0, 0, 0, 0, 0, 0, 0, []⟩

/-- The typed operand of a bare word: a typed operand has no bits that could be zero, so it is a plain value that the
operation accepts. -/
def plainArg (space : Space) (b : Nat) : Arg :=
  match space with
  | .op =>
    match b with
    | 0x00 => .reset ⟨some Machine.minBufferSize, some zeroAddress, none, none, none, none, none⟩ (some [])
    | 0x31 => .envelope zeroEnvelope
    | 0x41 => .message (.raw [])
    | 0x50 => .envelope zeroEnvelope
    | _ => .none
  | .frame => .none
  | .packetType => .addresses zeroAddress zeroAddress
  | .payloadType => .addresses zeroAddress zeroAddress
  | .dataset => .walk ⟨0, 10, 1⟩
  | .decArm => .descriptor (plainBodyOf b)
  | .encArm => .encoding (plainBodyOf b) (.raw [])

/-- The operand bytes of a bare word, all zero: as many as the operation needs, none for a byte sequence. -/
def zeroOperands (space : Space) (b : Nat) : Bytes :=
  match space with
  | .op =>
    match b with
    | 0x11 => [0]
    | 0x13 => [0, 0]
    | 0x40 => [0, 0]
    | 0x41 => [0, 0]
    | _ => []
  | .decArm => if 1 ≤ b ∧ b ≤ 8 then [0] else []
  | .encArm => [0, 0]
  | _ => []

/-- The value bytes of a dataset of zeros, by its width-kind (R80). -/
def zeroValue (kind : Nat) : Bytes :=
  match kind with
  | 0 => [0]
  | 1 => [0, 0]
  | 2 => [0, 0, 0, 0]
  | _ => []

/-- The command of a word of `nbits` bits, operands zero. A word of 16 bits is a message id, stored high byte first
(R51); every other row has 8 bits. -/
def commandOfWord (nbits w : Nat) : Command :=
  if nbits = 16 then
    let id : MsgId := BitVec.ofNat 16 w
    ⟨.dataset, Machine.bytesOf16 id ++ zeroValue (kindOf id).toNat, plainArg .dataset 0⟩
  else
    let b := w % 256
    let space := spaceOfByte b
    ⟨space, BitVec.ofNat 8 b :: zeroOperands space b, plainArg space b⟩

end Decode

/-- The instruction the decoder reads from a word of the table, if any. -/
def decodeTableWord (nbits w : Nat) : Option Instr :=
  match decode (Decode.commandOfWord nbits w) with
  | .ok i => some i
  | .error _ => none

end Sys2Proof
end

