-- ==== Sys2Proof/Config.lean ====
section
/-! DEFINITION. Sys2Proof/Config.lean: the free values (opaque constants, of which nothing can be proved) and the
arguments the model names for the reset that `Machine.State.reset` stands after (spec/00_scope.md R5: the OPEN
parameters). -/

namespace Sys2Proof.Config

/-- FREE VALUE (log entry 6). Whether the host's `k`-th tie rule takes the tie between `f` and `f + 1` up. A legal `ROUND`
is any function within 1/2 of its argument (spec/00_scope.md R5), which fixes it but for this. -/
opaque tieGoesUp (k : Nat) (f : Int) : Bool

/-- FREE VALUE (log entry 7). Which of several illegal fields a BAD_CONFIG records; the spec says only that it records
the field's name (spec/60_exceptions.md R250). Used modulo the number of illegal fields. -/
opaque badConfigPick (a : ResetArgs) (t : Option DescTable) : Nat

/-- A descriptor body with the fields of BOOL (spec/41_wire_codec.md R121). -/
def boolBody (w : Nat) : DescBody := ⟨some w, none, none, none, none⟩

/-- A descriptor body with the fields of ENUM. -/
def enumBody (w : Nat) (members : List (Nat × String)) (dflt : Option Message) : DescBody :=
  ⟨some w, none, none, some members, dflt⟩

/-- A descriptor body with the fields of INT. -/
def intBody (w : Nat) (signed : Bool) (dflt : Option Message) : DescBody :=
  ⟨some w, none, some signed, none, dflt⟩

/-- A descriptor body with the fields of a scaled type. -/
def scaledBody (w : Nat) (signed : Bool) (a : Rat) : DescBody := ⟨some w, some a, some signed, none, none⟩

/-- A descriptor body with the fields of RAW, STRING or STRUCT. -/
def plainBody : DescBody := ⟨none, none, none, none, none⟩

/-- The test descriptor table `TT` (spec/95_test_vectors.md section 3). DESIGN CHOICE (log entry 2): the table of
`State.reset`; `DESC_TABLE` is an OPEN parameter. -/
def testTable : DescTable :=
  [ (0x4000, ⟨1, boolBody 1⟩),
    (0x4001, ⟨2, enumBody 1 [(0, "M0"), (1, "M1"), (2, "M2"), (4, "M4")] none⟩),
    (0x4002, ⟨2, enumBody 1 [(0, "M0"), (1, "M1")] (some (.enum 0))⟩),
    (0x4003, ⟨8, scaledBody 1 false (1/10)⟩),
    (0x4201, ⟨5, scaledBody 2 true (1/10)⟩),
    (0x4202, ⟨3, intBody 2 false none⟩),
    (0x4203, ⟨3, intBody 2 true none⟩),
    (0x4204, ⟨4, scaledBody 2 false (1/2)⟩),
    (0x4205, ⟨3, intBody 2 false (some (.int 0))⟩),
    (0x8401, ⟨6, scaledBody 4 false 1⟩),
    (0x8402, ⟨3, intBody 4 true none⟩),
    (0x8403, ⟨7, scaledBody 4 false (1/10)⟩),
    (0x0601, ⟨10, plainBody⟩),
    (0x0602, ⟨9, plainBody⟩),
    (0x0603, ⟨0, plainBody⟩) ]

/-- The `cfg` operand of the reset that `State.reset` stands after: the arguments of spec/95_test_vectors.md section 2.
DESIGN CHOICE (log entry 2): `MAX_BUFFER_SIZE` and `LOCAL_ADDR` are OPEN parameters. -/
def resetArgs : ResetArgs := ⟨some 8192, some ⟨0x80, 0x00, 0x01⟩, none, none, none, none, none⟩

/-- `CFG` after that reset: the values given and the defaults of spec/10_state.md R24. -/
def resetCfg : Cfg := ⟨8192, 4096, 512, 32, ⟨0x80, 0x00, 0x01⟩, true, .halfToEven⟩

end Sys2Proof.Config
end

