-- ==== Sys2Proof/Machine/State.lean ====
section
/-! DEFINITION. Sys2Proof/Machine/State.lean: the state of the block (spec/10_state.md R20, R30), the non-ok outcomes
and results of its operations (spec/60_exceptions.md R250), and the reasons a step can stop. -/

namespace Sys2Proof.Machine

/-- The names of the SYS.RESET operands that can be illegal or, where they must be given, missing (spec/45_system_ops.md
R240). The other fields of `CFG` have a default and no illegal value (spec/10_state.md R24). -/
inductive CfgField where
  | maxBufferSize
  | lenCap
  | localAddr
  | round
  | descTable
deriving DecidableEq, Repr

/-- The causes, with what each records (R250). A cause ends an operation in place of its result; it stops nothing
(spec/00_scope.md R11), so it is part of a next state and no fault. -/
inductive Cause where
  /-- ERR_SHORT_PAYLOAD: the payload's length (spec/43_envelope_parser.md R202) -/
  | errShortPayload (len : Nat)
  /-- ERR_DS_COUNT(underrun, i, off) (R207) -/
  | errDsUnderrun (i off : Nat)
  /-- ERR_DS_COUNT(trailing, count) (R208) -/
  | errDsTrailing (count : Nat)
  /-- ERR_STRUCT_MIXED(i, off) (R206) -/
  | errStructMixed (i off : Nat)
  /-- ENC_UNKNOWN_ID (spec/41_wire_codec.md R140) -/
  | encUnknownId (id : MsgId)
  /-- ENC_TYPE (R140) -/
  | encType (id : MsgId)
  /-- ENC_RANGE (R142, R151, R152) -/
  | encRange (id : MsgId)
  /-- BLD_COUNT (spec/44_frame_build.md R232) -/
  | bldCount (count : Nat)
  /-- BLD_WIDTH (R232) -/
  | bldWidth (i : Nat)
  /-- BLD_STRUCT (R232) -/
  | bldStruct (i : Nat)
  /-- BLD_LEN (R233) -/
  | bldLen (len : Nat)
  /-- BAD_OP (spec/30_encoding.md R90) -/
  | badOp (op : Byte)
  /-- BAD_CONFIG (spec/45_system_ops.md R240) -/
  | badConfig (field : CfgField)
  /-- NOT_READY (R240) -/
  | notReady
deriving DecidableEq, Repr

/-- The events of FA.PUSH (spec/42_frame_assembler.md R171). -/
inductive Event where
  | overflow (n : Nat)
  | stopEmpty
  | clearNostx (n : Nat)
  | discardPrefix (k : Nat)
  | waitHeader (n : Nat)
  | dropLencap (T : Nat)
  | dropLenmin (T : Nat)
  | waitBody (n T : Nat)
  | jumpStx (k : Nat)
  | dropEtx (b : Byte)
  | dropCrc (c f : Word16)
  | emit (P : Bytes)
deriving DecidableEq, Repr

/-- The answer of the dispatch filter: drop, or forward under an owner address. No owner is defined when the envelope is
dropped (spec/43_envelope_parser.md R213, R215). -/
inductive Verdict where
  | drop
  | forward (owner : Address)
deriving DecidableEq, Repr

/-- The results of an operation that ends ok (spec/30_encoding.md R90, column results). -/
inductive Result where
  | none
  | crc (c : Word16)
  | truth (b : Bool)
  | events (es : List Event)
  | envelope (env : Envelope)
  | verdict (v : Verdict)
  | message (m : Message) (st : DecStatus)
  | bytes (B : Bytes)
  | dataset (d : Dataset) (off : Nat)
deriving DecidableEq, Repr

/-- How an operation ended: ok with its results, or with one cause (R11). -/
inductive Report where
  | ok (r : Result)
  | raised (c : Cause)
deriving DecidableEq, Repr

/-- Faults. The spec names nothing that stops the block ("No cause stops the block", R11; spec/42_frame_assembler.md
R185), so there is none and no step can end in one. -/
inductive Fault
deriving DecidableEq, Repr

/-- Refusals: why a step has no meaning to give. -/
inductive Refusal where
  /-- Raised by `exec`'s arm of an instruction without a meaning. Safe: the model stops. No arm raises it. -/
  | notModelled (mnemonic : String)
  /-- Raised by `step` on a command without a selecting value (no byte, or one byte of a 16-bit message id). Safe: the
  spec has no such operation, and the model stops. -/
  | noSelector (space : Space)
  /-- Raised by `step` on a listed selecting value with operands of another shape than the spec's, or that are not
  well-formed (a descriptor that no legal table holds, a place where no walk stands). Safe: the spec gives such a
  command no effect, and the model stops. -/
  | badOperands (space : Space)
  /-- Raised by `step` on a value that is no row of its place (a packet type from 5, a descriptor tag from 11), issued as
  a command of its own. Safe: the model stops. The operations themselves treat these values as the spec says. -/
  | unassigned (space : Space) (b : Byte)
deriving DecidableEq, Repr

/-- The state of the block. `rxbuf`, `crcAcc`, `cfg` and `descTable` are the four elements of R20; `ready` is the
condition that R240 describes. `report` and `inbox` are the model's own: where the host reads the last operation's
outcome, and the commands it has issued and the block has not yet taken (R6). -/
structure State where
  /-- a SYS.RESET has succeeded and none has failed since (R240) -/
  ready : Bool
  /-- `RXBUF` (R21) -/
  rxbuf : Bytes
  /-- `CRC_ACC` (R23) -/
  crcAcc : Word16
  /-- `CFG` (R24) -/
  cfg : Cfg
  /-- `DESC_TABLE` (R25) -/
  descTable : DescTable
  /-- the outcome of the last operation (R11) -/
  report : Report
  /-- the commands issued and not yet taken, in issue order (R60 d) -/
  inbox : List Command
deriving DecidableEq, Repr

/-- The state right after a successful SYS.RESET (R30, spec/70_reset_and_hazards.md R280), with the arguments that log
entry 2 names for the OPEN parameters. -/
def State.reset : State :=
  { ready := true
    rxbuf := []
    crcAcc := 0x0000
    cfg := Config.resetCfg
    descTable := Config.testTable
    report := .ok .none
    inbox := [] }

/-- The block before any SYS.RESET: every field unspecified and unreachable but that the block is not ready (R280,
spec/93_implementation_defined.md S1); the other fields stand as in `State.reset`. -/
def State.powerOn : State := { State.reset with ready := false }

end Sys2Proof.Machine
end

