-- ==== Sys2Proof/Machine/Ops.lean ====
section
/-! DEFINITION. Sys2Proof/Machine/Ops.lean: the named operations the meanings share: ending an operation, raising a cause
(the block's form of taking an exception), the buffer access primitives, the CRC function, the numeric codes. -/

namespace Sys2Proof.Machine

/-- What `exec` and `step` answer. -/
abbrev Outcome := Host.Outcome State Fault Refusal

/-! ### Ending an operation -/

/-- The operation ends ok: the host gets its results (spec/00_scope.md R11). -/
def finish (s : State) (r : Result) : State := { s with report := .ok r }

/-- Raising a cause, the block's form of taking an exception: it ends the operation, saves nothing, switches no mode and
transfers control nowhere; the host gets the cause and its record in place of the result, and the state is the one before
the operation (spec/60_exceptions.md R261). There is no return from one, because nothing was left (R262). -/
def raise (s : State) (c : Cause) : State := { s with report := .raised c }

/-- The operation ends with the results or with the cause. -/
def conclude (s : State) : Except Cause Result → State
  | .ok r => finish s r
  | .error c => raise s c

/-- Every operation but SYS.RESET is rejected with NOT_READY until a SYS.RESET has succeeded (spec/45_system_ops.md R240);
that test comes before all others (spec/60_exceptions.md R260). -/
def whenReady (s : State) (k : State) : Outcome :=
  if s.ready then .next k else .next (raise s .notReady)

/-! ### Buffer access primitives (spec/20_memory.md R57, R58) -/

/-- `RXBUF <- B`. -/
def setRxbuf (s : State) (B : Bytes) : State := { s with rxbuf := B }

/-- `RXBUF ++ data` (R57). -/
def appended (s : State) (data : Bytes) : Bytes := s.rxbuf ++ data

/-- The offset of the first byte 0x32, if there is one (spec/42_frame_assembler.md R175). -/
def findStx (B : Bytes) : Option Nat := B.findIdx? (· == stxByte)

/-! ### The CRC function (spec/40_crc16.md) -/

/-- `CRC_ACC <- c`. -/
def setCrc (s : State) (c : Word16) : State := { s with crcAcc := c }

/-- One shift of the CRC register: the bit shifted out of bit 15 is discarded and selects the XOR with the generator
(R111). -/
def crcShift (c : Word16) : Word16 := if c.msb then (c <<< 1) ^^^ crcPoly else c <<< 1

/-- `crc_step`: the byte enters at bits 15 to 8, then eight shifts (R111). -/
def crcStep (c : Word16) (b : Byte) : Word16 :=
  let c0 : Word16 := c ^^^ (b ++ (0 : Byte))
  crcShift (crcShift (crcShift (crcShift (crcShift (crcShift (crcShift (crcShift c0)))))))

/-- `crc16(B)`: from the seed, the bytes folded in order of increasing index (R113). -/
def crc16 (B : Bytes) : Word16 := B.foldl crcStep crcSeed

/-! ### Commands and readiness -/

/-- The host issues a command: it is taken after those issued before it (spec/20_memory.md R60 d). -/
def issue (s : State) (c : Command) : State := { s with inbox := s.inbox ++ [c] }

/-- What a command that is no instruction does. NOT_READY comes first, then BAD_OP (spec/60_exceptions.md R260); a listed
operation with operands of another shape, and a value that is no row of its place, have no effect to give and the step
refuses by name (log entry 5). SYS.RESET is not among them: an ill-formed argument of it raises BAD_CONFIG
(`Decode.noResetArgs`). -/
def rejectCommand (s : State) : DecodeError → Outcome
  | .badOp op => .next (if s.ready then raise s (.badOp op) else raise s .notReady)
  | .badOpOperands _ =>
    if s.ready then .refused (.badOperands .op) else .next (raise s .notReady)
  | .noSelector space => .refused (.noSelector space)
  | .badOperands space => .refused (.badOperands space)
  | .unassigned space b => .refused (.unassigned space b)

/-! ### Numeric codes (spec/60_exceptions.md R250) -/

/-- The code of a cause (R250). -/
def causeCode : Cause → Byte
  | .errShortPayload _ => 0x01
  | .errDsUnderrun _ _ => 0x02
  | .errDsTrailing _ => 0x02
  | .errStructMixed _ _ => 0x03
  | .encUnknownId _ => 0x10
  | .encType _ => 0x11
  | .encRange _ => 0x12
  | .bldCount _ => 0x18
  | .bldWidth _ => 0x19
  | .bldStruct _ => 0x1A
  | .bldLen _ => 0x1B
  | .badOp _ => 0x20
  | .badConfig _ => 0x21
  | .notReady => 0x22

/-- The code of a decode status (R250). -/
def statusCode : DecStatus → Byte
  | .ok => 0
  | .defaulted => 1
  | .unknownId => 2
  | .error => 3

/-- The code of an event (R250). -/
def eventCode : Event → Byte
  | .overflow _ => 0x40
  | .clearNostx _ => 0x41
  | .discardPrefix _ => 0x42
  | .dropLencap _ => 0x43
  | .dropLenmin _ => 0x44
  | .jumpStx _ => 0x45
  | .dropEtx _ => 0x46
  | .dropCrc _ _ => 0x47
  | .emit _ => 0x48
  | .stopEmpty => 0x49
  | .waitHeader _ => 0x4A
  | .waitBody _ _ => 0x4B

/-- The five stop events: the last event of every list is one of them (spec/42_frame_assembler.md R171). -/
def isStop : Event → Bool
  | .overflow _ => true
  | .stopEmpty => true
  | .clearNostx _ => true
  | .waitHeader _ => true
  | .waitBody _ _ => true
  | .discardPrefix _ => false
  | .dropLencap _ => false
  | .dropLenmin _ => false
  | .jumpStx _ => false
  | .dropEtx _ => false
  | .dropCrc _ _ => false
  | .emit _ => false

end Sys2Proof.Machine
end

