-- ==== Sys2Proof/Machine/Assembler.lean ====
section
/-! DEFINITION. Sys2Proof/Machine/Assembler.lean: the frame assembler (spec/42_frame_assembler.md). -/

namespace Sys2Proof.Machine

/-- What one pass of the drain loop ends in: a stop, or a resync that goes to step 1 with a shorter buffer (R173); with
the events of the pass and the buffer it leaves. -/
inductive Pass where
  | stop (es : List Event) (B : Bytes)
  | again (es : List Event) (B : Bytes)
deriving DecidableEq, Repr

/-- `total_len` of the candidate at offset 0: `L + 2`, computed without wrap (spec/30_encoding.md R72). -/
def totalLen (B : Bytes) : Nat := be16 B 1 + 2

/-- Step 5, the offset of the nearer STX that the malformed-length recovery jumps to, if its condition holds: more than
`JUMP_SLACK` bytes missing, and a byte 0x32 at an offset from 1 to `min(JUMP_WINDOW, n - 1)`; the least such offset
(R181). -/
def jumpTarget (cfg : Cfg) (B : Bytes) (T : Nat) : Option Nat :=
  if cfg.jumpSlack < T - B.length then
    match findStx ((B.drop 1).take cfg.jumpWindow) with
    | some j => some (j + 1)
    | none => none
  else none

/-- Steps 6 to 8 on a candidate of which all `T` bytes are present: ETX, then CRC, then success (R182 to R184). -/
def checkFrame (es : List Event) (B : Bytes) (T : Nat) : Pass :=
  let e := byteAt B (T - 1)
  let P := slice B 3 (T - 3)
  let c := crc16 P
  let f := word16At B (T - 3)
  if e ≠ etxByte then .again (es ++ [.dropEtx e]) (B.drop 1)
  else if c ≠ f then .again (es ++ [.dropCrc c f]) (B.drop 1)
  else .again (es ++ [.emit P]) (B.drop T)

/-- Steps 3 to 8, on a buffer whose first byte is STX (R177 to R184). -/
def candidate (cfg : Cfg) (es : List Event) (B : Bytes) : Pass :=
  let n := B.length
  let T := totalLen B
  if n < 3 then .stop (es ++ [.waitHeader n]) B
  else if cfg.lenCap < T then .again (es ++ [.dropLencap T]) (B.drop 1)
  else if T < minTotal then .again (es ++ [.dropLenmin T]) (B.drop 1)
  else if n < T then
    match jumpTarget cfg B T with
    | some j => .again (es ++ [.jumpStx j]) (B.drop j)
    | none => .stop (es ++ [.waitBody n T]) B
  else checkFrame es B T

/-- One pass of the drain loop, from step 1 (R174 to R184). -/
def drainPass (cfg : Cfg) (B : Bytes) : Pass :=
  if B.isEmpty then .stop [.stopEmpty] []
  else
    match findStx B with
    | none => .stop [.clearNostx B.length] []
    | some 0 => candidate cfg [] B
    | some (k + 1) => candidate cfg [.discardPrefix (k + 1)] (B.drop (k + 1))

/-- The drain loop with a bound on the number of passes. A pass that does not stop shortens the buffer (R186), so a
bound above the buffer's length is never used up (`drain_bound` in Laws). -/
def drainFor : Nat → Cfg → Bytes → List Event × Bytes
  | 0, _, B => ([], B)
  | bound + 1, cfg, B =>
    match drainPass cfg B with
    | .stop es B' => (es, B')
    | .again es B' =>
      let rest := drainFor bound cfg B'
      (es ++ rest.1, rest.2)

/-- The drain loop (R173, R190): the events in order, and the buffer at the stop. -/
def drain (cfg : Cfg) (B : Bytes) : List Event × Bytes := drainFor (B.length + 1) cfg B

/-- Append, bound, drain: what FA.PUSH does to the buffer and which events it returns (R172). The bound is tested after
the append, strictly, and drops the new bytes too. -/
def pushResult (cfg : Cfg) (B : Bytes) : List Event × Bytes :=
  if cfg.maxBufferSize < B.length then ([.overflow B.length], []) else drain cfg B

/-- The state after bytes have been pushed. -/
def pushBytes (s : State) (data : Bytes) : State :=
  let r := pushResult s.cfg (appended s data)
  finish (setRxbuf s r.2) (.events r.1)

/-- FA.PUSH (R172). -/
def execFaPush (data : Bytes) (s : State) : Outcome := whenReady s (pushBytes s data)

/-- STX: the wire byte 0x32 reaches the assembler. Where a frame is sought it starts one, elsewhere it is ordinary data
(spec/30_encoding.md R71, R87, R91 (2)); both are decided by the drain loop over the bytes now in `RXBUF`. -/
def execStx (s : State) : Outcome := whenReady s (pushBytes s [stxByte])

/-- ETX: the wire byte 0x34 reaches the assembler. At offset `total_len - 1` of a candidate it confirms the frame's end,
elsewhere it is ordinary data (R71, R87, R91 (2)). -/
def execEtx (s : State) : Outcome := whenReady s (pushBytes s [etxByte])

end Sys2Proof.Machine
end

