-- ==== Sys2Proof/Machine/Descriptors.lean ====
section
/-! DEFINITION. Sys2Proof/Machine/Descriptors.lean: the type tags, the lookup in `DESC_TABLE`, and which fields a
descriptor of each type has (spec/41_wire_codec.md R121, R122). -/

namespace Sys2Proof.Machine

/-- The tag of a descriptor type (spec/30_encoding.md R85). -/
def descTypeCode : DescType → Byte
  | .raw => 0
  | .bool => 1
  | .enum => 2
  | .int => 3
  | .float => 4
  | .temp => 5
  | .power => 6
  | .energy => 7
  | .current => 8
  | .string => 9
  | .struct => 10

/-- The descriptor type of a tag; 11 and above are not descriptors (R85). -/
def descTypeOf (tag : Byte) : Option DescType :=
  match tag.toNat with
  | 0 => some .raw
  | 1 => some .bool
  | 2 => some .enum
  | 3 => some .int
  | 4 => some .float
  | 5 => some .temp
  | 6 => some .power
  | 7 => some .energy
  | 8 => some .current
  | 9 => some .string
  | 10 => some .struct
  | _ => none

/-- The descriptor type a message's variant belongs to (R120). -/
def messageType : Message → DescType
  | .bool _ => .bool
  | .enum _ => .enum
  | .int _ => .int
  | .float _ => .float
  | .temp _ => .temp
  | .power _ => .power
  | .energy _ => .energy
  | .current _ => .current
  | .raw _ => .raw
  | .string _ => .string
  | .struct _ => .struct

/-- The types that have a `width` (R121). -/
def hasWidth : DescType → Bool
  | .raw | .string | .struct => false
  | _ => true

/-- The five scaled types, the ones that have an `arithmetic` (R120, R121). -/
def isScaled : DescType → Bool
  | .float | .temp | .power | .energy | .current => true
  | _ => false

/-- `width` is 1, 2 or 4 where the type has one, and absent where it has none (R122). -/
def widthFits (t : DescType) (d : DescBody) : Bool :=
  match d.width with
  | some w => hasWidth t && (w == 1 || w == 2 || w == 4)
  | none => !hasWidth t

/-- `arithmetic` is present for the scaled types only, and greater than 0 (R121, R122). -/
def arithmeticFits (t : DescType) (d : DescBody) : Bool :=
  match d.arithmetic with
  | some a => isScaled t && decide (0 < a)
  | none => !isScaled t

/-- `signed` is present for INT and the scaled types, and for no other type. DESIGN CHOICE (log entry 18): R121 says that
`signed` is used by those types and R122 that the fields present are exactly those R121 lists for the type; whether
another type's descriptor may carry the flag is not said in so many words, and here it may not. -/
def signedFits (t : DescType) (d : DescBody) : Bool :=
  d.signed.isSome == (t == .int || isScaled t)

/-- `enum_set` is present for ENUM only; it is a map (no code twice), not empty, and every code is at most
`2^(8*width) - 1` (R121, R122). -/
def enumSetFits (t : DescType) (d : DescBody) : Bool :=
  match d.enumSet with
  | some es =>
    t == .enum && !es.isEmpty && decide (es.map Prod.fst).Nodup
      && es.all (fun e => decide (e.1 < 2 ^ (8 * d.width.getD 0)))
  | none => !(t == .enum)

/-- A `default`, if present, is of the descriptor's own variant (R121). -/
def defaultFits (t : DescType) (d : DescBody) : Bool :=
  match d.declaredDefault with
  | some m => messageType m == t
  | none => true

/-- The fields present are exactly those of the type, each in its range (R122), but for whether the default can be
encoded, which needs the whole table (`tableLegal`). -/
def bodyFits (t : DescType) (d : DescBody) : Bool :=
  widthFits t d && arithmeticFits t d && signedFits t d && enumSetFits t d && defaultFits t d

/-- The descriptor of a message id, if it has one (R25, R50 d). -/
def lookupDesc (tab : DescTable) (id : MsgId) : Option Descriptor := List.lookup id tab

/-- No message id has two entries: the list is a map (R25). -/
def isMap (tab : DescTable) : Bool := decide (tab.map Prod.fst).Nodup

/-- The member code is a key of the descriptor's `enum_set` (R127). -/
def isMember (d : DescBody) (code : Nat) : Bool :=
  match d.enumSet with
  | some es => es.any (fun e => e.1 == code)
  | none => false

/-- The name of an ENUM message's member, `enum_set(c)` (R120). -/
def memberName (d : DescBody) (code : Nat) : Option String := d.enumSet.bind (List.lookup code)

end Sys2Proof.Machine
end

