-- ==== Sys2Proof/Machine/Operands.lean ====
section
/-! DEFINITION. Sys2Proof/Machine/Operands.lean: how a value's bytes become a number and back (spec/30_encoding.md R84,
spec/41_wire_codec.md R152), the rounding of scaled values (R144), and the textual form of an address
(spec/30_encoding.md R88). -/

namespace Sys2Proof.Machine

/-! ### Wire integers -/

/-- The wire integer of value bytes under a sign flag (R84). -/
def wireInt (signed : Bool) (B : Bytes) : Int := if signed then bes B else (beu B : Int)

/-- The wire integer `p` is legal for width `w` and the sign flag (R152). -/
def inRange (w : Nat) (signed : Bool) (p : Int) : Bool :=
  if signed then decide (-(2 ^ (8 * w - 1) : Int) ≤ p) && decide (p ≤ 2 ^ (8 * w - 1) - 1)
  else decide (0 ≤ p) && decide (p ≤ 2 ^ (8 * w) - 1)

/-- `BYTES(w, p mod 2^(8w))` (R152). -/
def bytesOfInt (w : Nat) (p : Int) : Bytes := bytesOf w (p % (2 ^ (8 * w) : Int)).toNat

/-! ### Rounding -/

/-- The integer a term stands for at the lower neighbour `f`. -/
def termValue (f : Int) : TieTerm → Int
  | .floor => f
  | .num z => z
  | .add a b => termValue f a + termValue f b
  | .sub a b => termValue f a - termValue f b
  | .mul a b => termValue f a * termValue f b
  | .div a b => termValue f a / termValue f b
  | .mod a b => termValue f a % termValue f b

/-- Whether a test holds at the lower neighbour `f`. -/
def testHolds (f : Int) : TieTest → Bool
  | .le a b => decide (termValue f a ≤ termValue f b)
  | .not t => !testHolds f t
  | .and t u => testHolds f t && testHolds f u

/-- Whether the tie between `f` and `f + 1` goes up: half-to-even takes the even one (R144), the others as named, a
written rule by its test, any other rule of the host freely (log entry 6). -/
def tieUp : TieRule → Int → Bool
  | .halfToEven, f => f % 2 == 1
  | .halfToOdd, f => f % 2 == 0
  | .halfUp, _ => true
  | .halfDown, _ => false
  | .halfAwayFromZero, f => decide (0 ≤ f)
  | .halfTowardZero, f => decide (f < 0)
  | .upWhen t, f => testHolds f t
  | .host k, f => Config.tieGoesUp k f

/-- The nearest integer, the tie rule deciding half-way cases (R144). -/
def roundNearest (t : TieRule) (q : Rat) : Int :=
  let f := q.floor
  let rem := q - (f : Rat)
  if rem < 1/2 then f
  else if 1/2 < rem then f + 1
  else if tieUp t f then f + 1 else f

/-- The rounding that goes one way. -/
def roundDirected (d : Direction) (q : Rat) : Int :=
  match d with
  | .floor => q.floor
  | .ceiling => q.ceil
  | .towardZero => if q < 0 then q.ceil else q.floor
  | .awayFromZero => if q < 0 then q.floor else q.ceil

/-- The function that a rule names. -/
def roundBase : RoundBase → Rat → Int
  | .nearest t, q => roundNearest t q
  | .directed d, q => roundDirected d q

/-- `ROUND(q)`, for the function that `CFG` holds (R144). -/
def roundBy (r : RoundRule) (q : Rat) : Int :=
  match List.lookup q r.points with
  | some n => n
  | none => roundBase r.base q

/-- The integer is no further than 1/2 from the rational (R144). -/
def withinHalf (n : Int) (q : Rat) : Bool := decide ((n : Rat) - q ≤ 1/2) && decide (q - (n : Rat) ≤ 1/2)

/-- The rule is within 1/2 everywhere: the nearest-integer rules are, a directed one is not. -/
def baseLegal : RoundBase → Bool
  | .nearest _ => true
  | .directed _ => false

/-- The function is no further than 1/2 from its argument everywhere, the legal range of `CFG.ROUND` (R144,
spec/00_scope.md R5). That this test is exact is `roundLegal_iff` in Laws. -/
def roundLegal (r : RoundRule) : Bool := baseLegal r.base && r.points.all (fun e => withinHalf (roundBy r e.1) e.1)

/-! ### The textual form of an address -/

/-- An upper-case hexadecimal digit. -/
def hexDigit (n : BitVec 4) : Char :=
  ['0', '1', '2', '3', '4', '5', '6', '7', '8', '9', 'A', 'B', 'C', 'D', 'E', 'F'].getD n.toNat '0'

/-- The value of a hexadecimal digit in either case. -/
def hexValue (c : Char) : Option (BitVec 4) :=
  if '0' ≤ c ∧ c ≤ '9' then some (BitVec.ofNat 4 (c.toNat - '0'.toNat))
  else if 'A' ≤ c ∧ c ≤ 'F' then some (BitVec.ofNat 4 (c.toNat - 'A'.toNat + 10))
  else if 'a' ≤ c ∧ c ≤ 'f' then some (BitVec.ofNat 4 (c.toNat - 'a'.toNat + 10))
  else none

/-- The two digits of a byte, high nibble first. -/
def hexOfByte (b : Byte) : List Char := [hexDigit (b.extractLsb' 4 4), hexDigit (b.extractLsb' 0 4)]

/-- The six digits of an address: class, channel, unit, upper case (R88 a). -/
def addressText (a : Address) : List Char := hexOfByte a.cls ++ hexOfByte a.chan ++ hexOfByte a.unit

/-- A byte from its two digits. -/
def byteOfHex (h l : Char) : Option Byte :=
  match hexValue h, hexValue l with
  | some x, some y => some (x ++ y)
  | _, _ => none

/-- An address from its six digits, in either case (R88 a). -/
def addressOfText : List Char → Option Address
  | [a, b, c, d, e, f] =>
    match byteOfHex a b, byteOfHex c d, byteOfHex e f with
    | some x, some y, some z => some ⟨x, y, z⟩
    | _, _, _ => none
  | _ => none

end Sys2Proof.Machine
end

