-- ==== Sys2Proof/Machine/Codec.lean ====
section
/-! DEFINITION. Sys2Proof/Machine/Codec.lean: the wire codec (spec/41_wire_codec.md). A decode arm answers a message or
fails; an encode arm answers bytes or a cause. -/

namespace Sys2Proof.Machine

/-! ### Structure entries -/

/-- The entries as a list, in wire order (R120). -/
def entriesToList : Entries → List (MsgId × Message × DecStatus)
  | .nil => []
  | .cons id m st rest => (id, m, st) :: entriesToList rest

/-- The entries of a list. -/
def entriesOfList : List (MsgId × Message × DecStatus) → Entries
  | [] => .nil
  | (id, m, st) :: rest => .cons id m st (entriesOfList rest)

/-- The map view: the message of the last entry with that id, if any (R138). -/
def mapView : Entries → MsgId → Option Message
  | .nil, _ => none
  | .cons id m _ rest, k =>
    match mapView rest k with
    | some m' => some m'
    | none => if id = k then some m else none

/-! ### Decode arms (R125 to R136) -/

/-- The width check common to the sized arms (R125). -/
def widthOk (d : DescBody) (B : Bytes) : Bool := d.width == some B.length

/-- Arm RAW (R134): never fails. -/
def armRaw (B : Bytes) : Option Message := some (.raw B)

/-- Arm BOOL (R126). -/
def armBool (cfg : Cfg) (d : DescBody) (B : Bytes) : Option Message :=
  if widthOk d B then
    match beu B with
    | 0 => some (.bool false)
    | 1 => some (.bool true)
    | _ => if cfg.boolNonzeroTrue then some (.bool true) else none
  else none

/-- Arm ENUM (R127): the code is read unsigned, and only a member decodes. -/
def armEnum (d : DescBody) (B : Bytes) : Option Message :=
  if widthOk d B && isMember d (beu B) then some (.enum (beu B)) else none

/-- The wire integer of a sized value under the descriptor's sign flag (R128, R129). -/
def sizedInt (d : DescBody) (B : Bytes) : Option Int :=
  if widthOk d B then d.signed.map (fun s => wireInt s B) else none

/-- The exact rational of a scaled value: wire integer times arithmetic (R129). -/
def scaledValue (d : DescBody) (B : Bytes) : Option Rat :=
  match sizedInt d B, d.arithmetic with
  | some p, some a => some ((p : Rat) * a)
  | _, _ => none

/-- Arm INT (R128). -/
def armInt (d : DescBody) (B : Bytes) : Option Message := (sizedInt d B).map .int

/-- Arm FLOAT (R129). -/
def armFloat (d : DescBody) (B : Bytes) : Option Message := (scaledValue d B).map .float

/-- Arm TEMP (R130). -/
def armTemp (d : DescBody) (B : Bytes) : Option Message := (scaledValue d B).map .temp

/-- Arm POWER (R131). -/
def armPower (d : DescBody) (B : Bytes) : Option Message := (scaledValue d B).map .power

/-- Arm ENERGY (R132). -/
def armEnergy (d : DescBody) (B : Bytes) : Option Message := (scaledValue d B).map .energy

/-- Arm CURRENT (R133). -/
def armCurrent (d : DescBody) (B : Bytes) : Option Message := (scaledValue d B).map .current

/-- Arm STRING (R135): the octets unchanged; never fails. -/
def armString (B : Bytes) : Option Message := some (.string B)

/-- The TLV layout of a structure value: `[len][sub_id:2][value:len-2]` until exhausted, or none where a `len` is below 2
or an entry runs past the end (R136, spec/30_encoding.md R83). The bound is on the number of entries; each takes at
least 3 bytes, so the value's length is never used up. -/
def tlvSplitFor : Nat → Bytes → Option (List (MsgId × Bytes))
  | _, [] => some []
  | 0, _ :: _ => none
  | bound + 1, n :: rest =>
    if n.toNat < 2 ∨ rest.length < n.toNat then none
    else
      match tlvSplitFor bound (rest.drop n.toNat) with
      | some more => some ((word16At rest 0, slice rest 2 n.toNat) :: more)
      | none => none

/-- The TLV entries `(sub_id, sub-value)` of a structure value (R136). -/
def tlvSplit (B : Bytes) : Option (List (MsgId × Bytes)) := tlvSplitFor B.length B

/-- Arm STRUCT (R136): each sub-value is decoded by `sub`, which never fails. The joined string is omitted (R137). -/
def armStruct (sub : MsgId → Bytes → Message × DecStatus) (B : Bytes) : Option Message :=
  match tlvSplit B with
  | some es => some (.struct (entriesOfList (es.map (fun e => (e.1, sub e.1 e.2)))))
  | none => none

/-- Resolution of an arm's failure: the declared default if there is one, else RAW with the operand bytes (R124). -/
def resolve (d : DescBody) (B : Bytes) : Option Message → Message × DecStatus
  | some m => (m, .ok)
  | none =>
    match d.declaredDefault with
    | some m => (m, .defaulted)
    | none => (.raw B, .error)

/-- The arm that a descriptor's type selects (R123). A tag that is no type has no arm and fails; no table that SYS.RESET
accepts holds one (spec/93_implementation_defined.md U14). -/
def runArm (sub : MsgId → Bytes → Message × DecStatus) (cfg : Cfg) (tag : Byte) (d : DescBody) (B : Bytes) :
    Option Message :=
  match descTypeOf tag with
  | some .raw => armRaw B
  | some .bool => armBool cfg d B
  | some .enum => armEnum d B
  | some .int => armInt d B
  | some .float => armFloat d B
  | some .temp => armTemp d B
  | some .power => armPower d B
  | some .energy => armEnergy d B
  | some .current => armCurrent d B
  | some .string => armString B
  | some .struct => armStruct sub B
  | none => none

/-- WC.DECODE with a bound on the nesting of structures. A nested value is shorter than the value that holds it (R136),
so a bound above the value's length is never used up (`decodeFor_bound` in Laws). -/
def decodeFor (cfg : Cfg) (tab : DescTable) : Nat → MsgId → Bytes → Message × DecStatus
  | 0, _, B => (.raw B, .error)
  | bound + 1, id, B =>
    match lookupDesc tab id with
    | none => (.raw B, .unknownId)
    | some d => resolve d.body B (runArm (decodeFor cfg tab bound) cfg d.tag d.body B)

/-- `WC.DECODE id, B`: always a message and a status (R123). -/
def decodeMessage (cfg : Cfg) (tab : DescTable) (id : MsgId) (B : Bytes) : Message × DecStatus :=
  decodeFor cfg tab (B.length + 1) id B

/-- The operation ends with a decoded message. -/
def finishDecoded (s : State) (r : Message × DecStatus) : State := finish s (.message r.1 r.2)

/-- WC.DECODE (R123). -/
def execWcDecode (id : MsgId) (B : Bytes) (s : State) : Outcome :=
  whenReady s (finishDecoded s (decodeMessage s.cfg s.descTable id B))

/-- DEC.RAW (R134). -/
def execDecRaw (d : DescBody) (B : Bytes) (s : State) : Outcome :=
  whenReady s (finishDecoded s (resolve d B (armRaw B)))

/-- DEC.BOOL (R126). -/
def execDecBool (d : DescBody) (B : Bytes) (s : State) : Outcome :=
  whenReady s (finishDecoded s (resolve d B (armBool s.cfg d B)))

/-- DEC.ENUM (R127). -/
def execDecEnum (d : DescBody) (B : Bytes) (s : State) : Outcome :=
  whenReady s (finishDecoded s (resolve d B (armEnum d B)))

/-- DEC.INT (R128). -/
def execDecInt (d : DescBody) (B : Bytes) (s : State) : Outcome :=
  whenReady s (finishDecoded s (resolve d B (armInt d B)))

/-- DEC.FLOAT (R129). -/
def execDecFloat (d : DescBody) (B : Bytes) (s : State) : Outcome :=
  whenReady s (finishDecoded s (resolve d B (armFloat d B)))

/-- DEC.TEMP (R130). -/
def execDecTemp (d : DescBody) (B : Bytes) (s : State) : Outcome :=
  whenReady s (finishDecoded s (resolve d B (armTemp d B)))

/-- DEC.POWER (R131). -/
def execDecPower (d : DescBody) (B : Bytes) (s : State) : Outcome :=
  whenReady s (finishDecoded s (resolve d B (armPower d B)))

/-- DEC.ENERGY (R132). -/
def execDecEnergy (d : DescBody) (B : Bytes) (s : State) : Outcome :=
  whenReady s (finishDecoded s (resolve d B (armEnergy d B)))

/-- DEC.CURRENT (R133). -/
def execDecCurrent (d : DescBody) (B : Bytes) (s : State) : Outcome :=
  whenReady s (finishDecoded s (resolve d B (armCurrent d B)))

/-- DEC.STRING (R135). -/
def execDecString (d : DescBody) (B : Bytes) (s : State) : Outcome :=
  whenReady s (finishDecoded s (resolve d B (armString B)))

/-- DEC.STRUCT (R136): sub-values by WC.DECODE in full, with the table and configuration of the block. -/
def execDecStruct (d : DescBody) (B : Bytes) (s : State) : Outcome :=
  whenReady s (finishDecoded s (resolve d B (armStruct (decodeMessage s.cfg s.descTable) B)))

/-! ### Encode arms (R141 to R152) -/

/-- Range check and byte generation, common to INT and the scaled arms; nothing is clamped, wrapped or truncated (R152).
A descriptor without width or sign is in no table that SYS.RESET accepts. -/
def putInt (id : MsgId) (d : DescBody) (p : Int) : Except Cause Bytes :=
  match d.width, d.signed with
  | some w, some s => if inRange w s p then .ok (bytesOfInt w p) else .error (.encRange id)
  | _, _ => .error (.encRange id)

/-- Encode of a scaled value: `ROUND(q / arithmetic)`, the division exact (R144). -/
def putScaled (cfg : Cfg) (id : MsgId) (d : DescBody) (q : Rat) : Except Cause Bytes :=
  match d.arithmetic with
  | some a => putInt id d (roundBy cfg.round (q / a))
  | none => .error (.encRange id)

/-- Encode arm BOOL (R141). -/
def putBool (id : MsgId) (d : DescBody) (b : Bool) : Except Cause Bytes :=
  match d.width with
  | some w => .ok (bytesOf w (if b then 1 else 0))
  | none => .error (.encRange id)

/-- Encode arm ENUM: a code outside the set is out of range (R142). -/
def putEnum (id : MsgId) (d : DescBody) (c : Nat) : Except Cause Bytes :=
  match d.width with
  | some w => if isMember d c then .ok (bytesOf w c) else .error (.encRange id)
  | none => .error (.encRange id)

/-- A TLV entry: `[len(V) + 2] ++ BYTES(2, sub_id) ++ V` (R151). -/
def tlvEntry (subId : MsgId) (V : Bytes) : Bytes :=
  BitVec.ofNat 8 (V.length + 2) :: (bytesOf16 subId ++ V)

/-- The greatest length of a sub-value, so that `len` fits a byte (R83, R151). -/
def maxSubValue : Nat := 253

/-- Lookup and variant match of WC.ENCODE (R140): without a descriptor a RAW message passes through and any other is
unknown; with one, a message of another variant is rejected before the arm runs. -/
def withDescriptor (tab : DescTable) (id : MsgId) (m : Message) (arm : DescBody → Except Cause Bytes) :
    Except Cause Bytes :=
  match lookupDesc tab id with
  | none =>
    match m with
    | .raw B => .ok B
    | _ => .error (.encUnknownId id)
  | some d => if descTypeOf d.tag = some (messageType m) then arm d.body else .error (.encType id)

mutual
/-- `WC.ENCODE id, m` (R140 to R152). -/
def encodeMessage (cfg : Cfg) (tab : DescTable) : Message → MsgId → Except Cause Bytes
  | .bool b, id => withDescriptor tab id (.bool b) (fun d => putBool id d b)
  | .enum c, id => withDescriptor tab id (.enum c) (fun d => putEnum id d c)
  | .int z, id => withDescriptor tab id (.int z) (fun d => putInt id d z)
  | .float q, id => withDescriptor tab id (.float q) (fun d => putScaled cfg id d q)
  | .temp q, id => withDescriptor tab id (.temp q) (fun d => putScaled cfg id d q)
  | .power q, id => withDescriptor tab id (.power q) (fun d => putScaled cfg id d q)
  | .energy q, id => withDescriptor tab id (.energy q) (fun d => putScaled cfg id d q)
  | .current q, id => withDescriptor tab id (.current q) (fun d => putScaled cfg id d q)
  | .raw B, id => withDescriptor tab id (.raw B) (fun _ => .ok B)
  | .string B, id => withDescriptor tab id (.string B) (fun _ => .ok B)
  | .struct E, id => withDescriptor tab id (.struct E) (fun _ => encodeEntries cfg tab E id)
/-- The entries of a structure in order, their statuses ignored; the first cause met is the one raised (R151,
spec/60_exceptions.md R260). `id` is the structure's own message id (log entry 8). -/
def encodeEntries (cfg : Cfg) (tab : DescTable) : Entries → MsgId → Except Cause Bytes
  | .nil, _ => .ok []
  | .cons subId m _ rest, id =>
    match encodeMessage cfg tab m subId with
    | .error c => .error c
    | .ok V =>
      if maxSubValue < V.length then .error (.encRange id)
      else
        match encodeEntries cfg tab rest id with
        | .error c => .error c
        | .ok more => .ok (tlvEntry subId V ++ more)
end

/-- The operation ends with bytes, or with a cause. -/
def concludeBytes (s : State) (r : Except Cause Bytes) : State := conclude s (r.map .bytes)

/-- WC.ENCODE (R140). -/
def execWcEncode (id : MsgId) (m : Message) (s : State) : Outcome :=
  whenReady s (concludeBytes s (encodeMessage s.cfg s.descTable m id))

/-- ENC.RAW (R149). Like every ENC row: a message of another variant is ENC_TYPE (R140). -/
def execEncRaw (id : MsgId) (_d : DescBody) (m : Message) (s : State) : Outcome :=
  whenReady s (concludeBytes s (match m with
    | .raw B => .ok B
    | _ => .error (.encType id)))

/-- ENC.BOOL (R141). -/
def execEncBool (id : MsgId) (d : DescBody) (m : Message) (s : State) : Outcome :=
  whenReady s (concludeBytes s (match m with
    | .bool b => putBool id d b
    | _ => .error (.encType id)))

/-- ENC.ENUM (R142). -/
def execEncEnum (id : MsgId) (d : DescBody) (m : Message) (s : State) : Outcome :=
  whenReady s (concludeBytes s (match m with
    | .enum c => putEnum id d c
    | _ => .error (.encType id)))

/-- ENC.INT (R143). -/
def execEncInt (id : MsgId) (d : DescBody) (m : Message) (s : State) : Outcome :=
  whenReady s (concludeBytes s (match m with
    | .int z => putInt id d z
    | _ => .error (.encType id)))

/-- ENC.FLOAT (R144). -/
def execEncFloat (id : MsgId) (d : DescBody) (m : Message) (s : State) : Outcome :=
  whenReady s (concludeBytes s (match m with
    | .float q => putScaled s.cfg id d q
    | _ => .error (.encType id)))

/-- ENC.TEMP (R145). -/
def execEncTemp (id : MsgId) (d : DescBody) (m : Message) (s : State) : Outcome :=
  whenReady s (concludeBytes s (match m with
    | .temp q => putScaled s.cfg id d q
    | _ => .error (.encType id)))

/-- ENC.POWER (R146). -/
def execEncPower (id : MsgId) (d : DescBody) (m : Message) (s : State) : Outcome :=
  whenReady s (concludeBytes s (match m with
    | .power q => putScaled s.cfg id d q
    | _ => .error (.encType id)))

/-- ENC.ENERGY (R147). -/
def execEncEnergy (id : MsgId) (d : DescBody) (m : Message) (s : State) : Outcome :=
  whenReady s (concludeBytes s (match m with
    | .energy q => putScaled s.cfg id d q
    | _ => .error (.encType id)))

/-- ENC.CURRENT (R148). -/
def execEncCurrent (id : MsgId) (d : DescBody) (m : Message) (s : State) : Outcome :=
  whenReady s (concludeBytes s (match m with
    | .current q => putScaled s.cfg id d q
    | _ => .error (.encType id)))

/-- ENC.STRING (R150). -/
def execEncString (id : MsgId) (_d : DescBody) (m : Message) (s : State) : Outcome :=
  whenReady s (concludeBytes s (match m with
    | .string B => .ok B
    | _ => .error (.encType id)))

/-- ENC.STRUCT (R151): sub-messages by WC.ENCODE in full, with the table and configuration of the block. -/
def execEncStruct (id : MsgId) (_d : DescBody) (m : Message) (s : State) : Outcome :=
  whenReady s (concludeBytes s (match m with
    | .struct E => encodeEntries s.cfg s.descTable E id
    | _ => .error (.encType id)))

end Sys2Proof.Machine
end

