-- ==== Sys2Proof/Machine/Flags.lean ====
section
/-! DEFINITION. Sys2Proof/Machine/Flags.lean: the block has no flag register, no condition codes and no sticky status bits
(spec/10_state.md R26), so there is no flag computation. What it has are the two packed bytes of a payload header, the
`FLAGS` byte and the `TYPE` byte, and this file reads and writes their fields (spec/30_encoding.md R76 to R78). -/

namespace Sys2Proof.Machine

/-- `FLAGS[7]`, info (R76). -/
def flagsInfo (b : Byte) : BitVec 1 := b.extractLsb' 7 1

/-- `FLAGS[6:5]`, protocol version (R76). -/
def flagsVersion (b : Byte) : BitVec 2 := b.extractLsb' 5 2

/-- `FLAGS[4:3]`, retry count (R76). -/
def flagsRetry (b : Byte) : BitVec 2 := b.extractLsb' 3 2

/-- `FLAGS[2:0]`, carried through without meaning (R76). -/
def flagsReserved (b : Byte) : BitVec 3 := b.extractLsb' 0 3

/-- `info*128 + version*32 + retry*8 + flags_rsvd` (spec/44_frame_build.md R231). -/
def flagsByte (info : BitVec 1) (version retry : BitVec 2) (rsvd : BitVec 3) : Byte :=
  info ++ version ++ retry ++ rsvd

/-- `TYPE[7:4]` (R77). -/
def typePacket (b : Byte) : BitVec 4 := Decode.highNibble b

/-- `TYPE[3:0]` (R78). -/
def typePayload (b : Byte) : BitVec 4 := Decode.lowNibble b

end Sys2Proof.Machine
end

