-- ==== Sys2Proof/Machine/Envelope.lean ====
section
/-! DEFINITION. Sys2Proof/Machine/Envelope.lean: the envelope parser and the dispatch filter
(spec/43_envelope_parser.md), and the rows of the opcode table that select behaviour inside them: the packet types, the
payload types and the width-kinds. -/

namespace Sys2Proof.Machine

/-! ### The dataset walk (R203 to R209) -/

/-- The value length of the width-kinds 0, 1 and 2 (spec/30_encoding.md R80). -/
def kindWidth (kind : BitVec 2) : Nat :=
  match kind.toNat with
  | 0 => 1
  | 1 => 2
  | _ => 4

/-- A dataset of kind 0, 1 or 2 with `w` value bytes; `rest` is the payload after the id (R204). It answers the dataset
and the next offset. -/
def fixedDataset (id : MsgId) (w : Nat) (pos : WalkPos) (rest : Bytes) : Except Cause (Dataset × Nat) :=
  if rest.length < w then .error (.errDsUnderrun pos.index pos.offset)
  else .ok (⟨id, Decode.kindOf id, rest.take w, none⟩, pos.offset + 2 + w)

/-- A dataset of kind 3: legal only if it is the only one, its value the whole rest of the payload (R205, R206). -/
def structDataset (id : MsgId) (pos : WalkPos) (rest : Bytes) : Except Cause (Dataset × Nat) :=
  if pos.count ≠ 1 then .error (.errStructMixed pos.index pos.offset)
  else .ok (⟨id, Decode.kindOf id, rest, none⟩, pos.offset + 2 + rest.length)

/-- One step of the walk once the two id bytes are there: the width-kind selects the form (R203 b, c). -/
def datasetStep (id : MsgId) (pos : WalkPos) (rest : Bytes) : Except Cause (Dataset × Nat) :=
  if Decode.kindOf id = 3 then structDataset id pos rest
  else fixedDataset id (kindWidth (Decode.kindOf id)) pos rest

/-- The walk over `left` more datasets of `count`, at index `i` and offset `off` (R203): the datasets, and the offset
after the last. -/
def walkDatasets (P : Bytes) (count : Nat) : Nat → Nat → Nat → Except Cause (List Dataset × Nat)
  | 0, _, off => .ok ([], off)
  | left + 1, i, off =>
    if P.length - off < 2 then .error (.errDsUnderrun i off)
    else
      match datasetStep (word16At P off) ⟨i, off, count⟩ (P.drop (off + 2)) with
      | .error c => .error c
      | .ok (d, off') =>
        match walkDatasets P count left (i + 1) off' with
        | .error c => .error c
        | .ok (ds, last) => .ok (d :: ds, last)

/-! ### Parsing (R200 to R202, R208) -/

/-- The address at a payload offset (spec/30_encoding.md R75). -/
def addressAt (P : Bytes) (i : Nat) : Address := ⟨byteAt P i, byteAt P (i + 1), byteAt P (i + 2)⟩

/-- The envelope of a payload's header and a dataset list (R200). -/
def envelopeOf (P : Bytes) (ds : List Dataset) : Envelope :=
  { src := addressAt P 0
    dst := addressAt P 3
    info := flagsInfo (byteAt P 6)
    version := flagsVersion (byteAt P 6)
    retry := flagsRetry (byteAt P 6)
    flagsRsvd := flagsReserved (byteAt P 6)
    packetType := typePacket (byteAt P 7)
    payloadType := typePayload (byteAt P 7)
    packetNumber := byteAt P 8
    dsCount := byteAt P 9
    datasets := ds }

/-- `EP.PARSE P`: the envelope with raw datasets, or the first cause in the order of R209. -/
def parsePayload (P : Bytes) : Except Cause Envelope :=
  if P.length < headerLen then .error (.errShortPayload P.length)
  else
    let count := (byteAt P 9).toNat
    match walkDatasets P count count 0 headerLen with
    | .error c => .error c
    | .ok (ds, off) =>
      if off = P.length then .ok (envelopeOf P ds) else .error (.errDsTrailing (P.length - off))

/-- A dataset extended with the message and status of WC.DECODE (R211). -/
def decodeDatasetValue (cfg : Cfg) (tab : DescTable) (d : Dataset) : Dataset :=
  { d with decoded := some (decodeMessage cfg tab d.id d.raw) }

/-- An envelope with every dataset decoded (R211). -/
def decodeEnvelope (cfg : Cfg) (tab : DescTable) (env : Envelope) : Envelope :=
  { env with datasets := env.datasets.map (decodeDatasetValue cfg tab) }

/-- EP.PARSE (R201). -/
def execEpParse (P : Bytes) (s : State) : Outcome :=
  whenReady s (conclude s ((parsePayload P).map .envelope))

/-- EP.DECODE: EP.PARSE, then WC.DECODE of each dataset (R211). -/
def execEpDecode (P : Bytes) (s : State) : Outcome :=
  whenReady s (conclude s ((parsePayload P).map (fun env => .envelope (decodeEnvelope s.cfg s.descTable env))))

/-! ### The dispatch filter (R213 to R215) -/

/-- The direction filter: whether a payload type is forwarded, for a local source and for any other (R214). -/
def directionForwards (isLocal : Bool) (d : BitVec 4) : Bool :=
  if isLocal then d == dtRequestCode || d == dtWriteCode
  else d == dtNotificationCode || d == dtWriteCode || d == dtResponseCode

/-- The verdict of the direction filter, with the owner: the destination if locally initiated, else the source (R214,
R215). -/
def directionVerdict (cfg : Cfg) (d : BitVec 4) (src dst : Address) : Verdict :=
  if directionForwards (src == cfg.localAddr) d then
    .forward (if src = cfg.localAddr then dst else src)
  else .drop

/-- The verdict of EP.FILTER on a packet type, a payload type and the addresses: the dispatch filter, then the direction
filter (R213). -/
def filterVerdict (cfg : Cfg) (p d : BitVec 4) (src dst : Address) : Verdict :=
  if p = ptNormalCode then directionVerdict cfg d src dst else .drop

/-- EP.FILTER (R213). -/
def execEpFilter (env : Envelope) (s : State) : Outcome :=
  whenReady s (finish s (.verdict (filterVerdict s.cfg env.packetType env.payloadType env.src env.dst)))

/-! ### The packet type rows (R77): the dispatch filter's test -/

/-- PT.STANDBY: never dispatched (R213). -/
def execPtStandby (d : BitVec 4) (src dst : Address) (s : State) : Outcome :=
  whenReady s (finish s (.verdict (filterVerdict s.cfg 0 d src dst)))

/-- PT.NORMAL: the direction filter decides (R213). -/
def execPtNormal (d : BitVec 4) (src dst : Address) (s : State) : Outcome :=
  whenReady s (finish s (.verdict (filterVerdict s.cfg 1 d src dst)))

/-- PT.GATHERING: never dispatched (R213). -/
def execPtGathering (d : BitVec 4) (src dst : Address) (s : State) : Outcome :=
  whenReady s (finish s (.verdict (filterVerdict s.cfg 2 d src dst)))

/-- PT.INSTALL: never dispatched (R213). -/
def execPtInstall (d : BitVec 4) (src dst : Address) (s : State) : Outcome :=
  whenReady s (finish s (.verdict (filterVerdict s.cfg 3 d src dst)))

/-- PT.DOWNLOAD: never dispatched (R213). -/
def execPtDownload (d : BitVec 4) (src dst : Address) (s : State) : Outcome :=
  whenReady s (finish s (.verdict (filterVerdict s.cfg 4 d src dst)))

/-! ### The payload type rows (R78): the direction filter's table -/

/-- DT.UNDEFINED: dropped on both sides (R214). -/
def execDtUndefined (p : BitVec 4) (src dst : Address) (s : State) : Outcome :=
  whenReady s (finish s (.verdict (filterVerdict s.cfg p 0 src dst)))

/-- DT.READ: dropped on both sides (R214). -/
def execDtRead (p : BitVec 4) (src dst : Address) (s : State) : Outcome :=
  whenReady s (finish s (.verdict (filterVerdict s.cfg p 1 src dst)))

/-- DT.WRITE: forwarded on both sides (R214). -/
def execDtWrite (p : BitVec 4) (src dst : Address) (s : State) : Outcome :=
  whenReady s (finish s (.verdict (filterVerdict s.cfg p 2 src dst)))

/-- DT.REQUEST: forwarded from the local address only (R214). -/
def execDtRequest (p : BitVec 4) (src dst : Address) (s : State) : Outcome :=
  whenReady s (finish s (.verdict (filterVerdict s.cfg p 3 src dst)))

/-- DT.NOTIFICATION: forwarded from any other address only (R214). -/
def execDtNotification (p : BitVec 4) (src dst : Address) (s : State) : Outcome :=
  whenReady s (finish s (.verdict (filterVerdict s.cfg p 4 src dst)))

/-- DT.RESPONSE: forwarded from any other address only (R214). -/
def execDtResponse (p : BitVec 4) (src dst : Address) (s : State) : Outcome :=
  whenReady s (finish s (.verdict (filterVerdict s.cfg p 5 src dst)))

/-- DT.ACK: dropped on both sides (R214). -/
def execDtAck (p : BitVec 4) (src dst : Address) (s : State) : Outcome :=
  whenReady s (finish s (.verdict (filterVerdict s.cfg p 6 src dst)))

/-- DT.NACK: dropped on both sides (R214). -/
def execDtNack (p : BitVec 4) (src dst : Address) (s : State) : Outcome :=
  whenReady s (finish s (.verdict (filterVerdict s.cfg p 7 src dst)))

/-! ### The width-kind rows (R80, R81): one step of the dataset walk -/

/-- The operation ends with a dataset and the next offset, or with a cause. -/
def concludeDataset (s : State) (r : Except Cause (Dataset × Nat)) : State :=
  conclude s (r.map (fun x => .dataset x.1 x.2))

/-- DS.K0: one value byte (R204). -/
def execDsK0 (hi : BitVec 5) (lo : BitVec 9) (pos : WalkPos) (rest : Bytes) (s : State) : Outcome :=
  whenReady s (concludeDataset s (fixedDataset (Decode.mkId hi 0 lo) 1 pos rest))

/-- DS.K1: two value bytes (R204). -/
def execDsK1 (hi : BitVec 5) (lo : BitVec 9) (pos : WalkPos) (rest : Bytes) (s : State) : Outcome :=
  whenReady s (concludeDataset s (fixedDataset (Decode.mkId hi 1 lo) 2 pos rest))

/-- DS.K2: four value bytes (R204). -/
def execDsK2 (hi : BitVec 5) (lo : BitVec 9) (pos : WalkPos) (rest : Bytes) (s : State) : Outcome :=
  whenReady s (concludeDataset s (fixedDataset (Decode.mkId hi 2 lo) 4 pos rest))

/-- DS.K3: the rest of the payload, legal only if DS_COUNT is 1 (R205, R206). -/
def execDsK3 (hi : BitVec 5) (lo : BitVec 9) (pos : WalkPos) (rest : Bytes) (s : State) : Outcome :=
  whenReady s (concludeDataset s (structDataset (Decode.mkId hi 3 lo) pos rest))

end Sys2Proof.Machine
end

