-- ==== Sys2Proof/Machine/Build.lean ====
section
/-! DEFINITION. Sys2Proof/Machine/Build.lean: payload build and frame build (spec/44_frame_build.md). -/

namespace Sys2Proof.Machine

/-- The greatest `DS_COUNT`: it is one byte (R232). -/
def maxDatasets : Nat := 255

/-- The greatest `L`: LEN is two bytes (R233). -/
def maxLen : Nat := 65535

/-- The check of one dataset of `count` at index `i`: its kind is the id's, its value has the kind's length, and kind 3
stands alone (R232 (2)). -/
def checkDataset (count i : Nat) (d : Dataset) : Option Cause :=
  if d.kind ≠ Decode.kindOf d.id then some (.bldWidth i)
  else if d.kind = 3 then
    if count ≠ 1 then some (.bldStruct i) else none
  else if d.raw.length ≠ kindWidth d.kind then some (.bldWidth i)
  else none

/-- The checks of the datasets in order, from index `i` (R232 (2)). -/
def checkDatasets (count : Nat) : Nat → List Dataset → Option Cause
  | _, [] => none
  | i, d :: ds =>
    match checkDataset count i d with
    | some c => some c
    | none => checkDatasets count (i + 1) ds

/-- The first check of EP.BUILD that fails, if any (R232). -/
def checkBuild (env : Envelope) : Option Cause :=
  if maxDatasets < env.datasets.length then some (.bldCount env.datasets.length)
  else checkDatasets env.datasets.length 0 env.datasets

/-- The three bytes of an address. -/
def addressBytes (a : Address) : Bytes := [a.cls, a.chan, a.unit]

/-- The bytes of a dataset: `BYTES(2, id) ++ raw` (R231). -/
def datasetBytes (d : Dataset) : Bytes := bytesOf16 d.id ++ d.raw

/-- The payload of an envelope; `DS_COUNT` is the length of the dataset list (R231). -/
def payloadOf (env : Envelope) : Bytes :=
  addressBytes env.src ++ addressBytes env.dst
    ++ [flagsByte env.info env.version env.retry env.flagsRsvd,
        Decode.typeByte env.packetType env.payloadType,
        env.packetNumber,
        BitVec.ofNat 8 env.datasets.length]
    ++ env.datasets.flatMap datasetBytes

/-- EP.BUILD's result or cause (R231). -/
def buildPayload (env : Envelope) : Except Cause Bytes :=
  match checkBuild env with
  | some c => .error c
  | none => .ok (payloadOf env)

/-- `FRAME(P)` (spec/30_encoding.md R71, R89): STX, `L = len(P) + 4`, the payload, its CRC, ETX. -/
def frameOf (P : Bytes) : Bytes :=
  [stxByte] ++ bytesOf16 (BitVec.ofNat 16 (P.length + 4)) ++ P ++ bytesOf16 (crc16 P) ++ [etxByte]

/-- FA.BUILD's result or cause (R233). -/
def buildFrame (P : Bytes) : Except Cause Bytes :=
  if maxLen < P.length + 4 then .error (.bldLen P.length) else .ok (frameOf P)

/-- EP.BUILD (R231). -/
def execEpBuild (env : Envelope) (s : State) : Outcome := whenReady s (concludeBytes s (buildPayload env))

/-- FA.BUILD (R233). -/
def execFaBuild (P : Bytes) (s : State) : Outcome := whenReady s (concludeBytes s (buildFrame P))

end Sys2Proof.Machine
end

