-- ==== Sys2Proof/Machine/Crc.lean ====
section
/-! DEFINITION. Sys2Proof/Machine/Crc.lean: the operations of the CRC unit (spec/40_crc16.md). -/

namespace Sys2Proof.Machine

/-- CRC.INIT: `CRC_ACC <- 0x0000`, the seed (R112). -/
def execCrcInit (s : State) : Outcome := whenReady s (finish (setCrc s crcSeed) .none)

/-- CRC.BYTE: one byte folded into `CRC_ACC` (R111). -/
def execCrcByte (b : Byte) (s : State) : Outcome :=
  whenReady s (finish (setCrc s (crcStep s.crcAcc b)) .none)

/-- CRC.BLOCK: `crc16(B)` from the seed; `CRC_ACC` is neither read nor written (R113). -/
def execCrcBlock (B : Bytes) (s : State) : Outcome := whenReady s (finish s (.crc (crc16 B)))

/-- CRC.CHECK: whether `CRC_ACC` equals the expected value (R114). -/
def execCrcCheck (e : Word16) (s : State) : Outcome := whenReady s (finish s (.truth (s.crcAcc == e)))

end Sys2Proof.Machine
end

