-- ==== Sys2Proof/Machine/System.lean ====
section
/-! DEFINITION. Sys2Proof/Machine/System.lean: SYS.RESET and FA.FLUSH (spec/45_system_ops.md). -/

namespace Sys2Proof.Machine

/-- `CFG` from the operand of SYS.RESET: the defaults for the fields not given (R240, spec/10_state.md R24). The two
fields without a default read as zeros here where they are not given; `illegalFields` then names them, and no such `CFG`
is installed. -/
def cfgOf (a : ResetArgs) : Cfg :=
  { maxBufferSize := a.maxBufferSize.getD 0
    lenCap := a.lenCap.getD defaultLenCap
    jumpSlack := a.jumpSlack.getD defaultJumpSlack
    jumpWindow := a.jumpWindow.getD defaultJumpWindow
    localAddr := a.localAddr.getD ⟨0, 0, 0⟩
    boolNonzeroTrue := a.boolNonzeroTrue.getD true
    round := a.round.getD .halfToEven }

/-- `MAX_BUFFER_SIZE` is given, and at least 6 (R24, R240). -/
def bufferSizeLegal (a : ResetArgs) : Bool :=
  match a.maxBufferSize with
  | some n => decide (minBufferSize ≤ n)
  | none => false

/-- `LEN_CAP` is from 6 to 65537 (R24). -/
def lenCapLegal (cfg : Cfg) : Bool := decide (minTotal ≤ cfg.lenCap) && decide (cfg.lenCap ≤ maxLenCap)

/-- A default, if present, can be encoded by its descriptor (R122): WC.ENCODE of it under the entry's id is ok. -/
def defaultEncodable (cfg : Cfg) (tab : DescTable) (id : MsgId) (d : DescBody) : Bool :=
  match d.declaredDefault with
  | some m =>
    match encodeMessage cfg tab m id with
    | .ok _ => true
    | .error _ => false
  | none => true

/-- One entry of a well-formed table: its tag is a descriptor type, its fields fit the type, its default can be encoded
(R122). -/
def entryLegal (cfg : Cfg) (tab : DescTable) (e : MsgId × Descriptor) : Bool :=
  match descTypeOf e.2.tag with
  | some t => bodyFits t e.2.body && defaultEncodable cfg tab e.1 e.2.body
  | none => false

/-- The table is well-formed (R122): a map, every entry legal. -/
def tableLegal (cfg : Cfg) (tab : DescTable) : Bool := isMap tab && tab.all (entryLegal cfg tab)

/-- A table is given and it is well-formed (R240). -/
def tableGivenLegal (cfg : Cfg) : Option DescTable → Bool
  | some tab => tableLegal cfg tab
  | none => false

/-- The SYS.RESET operands that are illegal or missing, in the order of R24's table (R240; an ill-formed argument raises
BAD_CONFIG, spec/92_eei_decisions.md D30: log entry 19). -/
def illegalFields (a : ResetArgs) (tab : Option DescTable) : List CfgField :=
  (if bufferSizeLegal a then [] else [.maxBufferSize])
    ++ (if lenCapLegal (cfgOf a) then [] else [.lenCap])
    ++ (if a.localAddr.isSome then [] else [.localAddr])
    ++ (if roundLegal (cfgOf a).round then [] else [.round])
    ++ (if tableGivenLegal (cfgOf a) tab then [] else [.descTable])

/-- The field that BAD_CONFIG records: the illegal one, and where several are illegal one of them, which one left free
(log entry 7). -/
def recordedField (a : ResetArgs) (tab : Option DescTable) (first : CfgField) (more : List CfgField) : CfgField :=
  match more with
  | [] => first
  | _ :: _ => (first :: more).getD (Config.badConfigPick a tab % (more.length + 1)) first

/-- The state after a successful SYS.RESET (R240, spec/70_reset_and_hazards.md R280). -/
def resetState (s : State) (cfg : Cfg) (tab : DescTable) : State :=
  finish { s with ready := true, rxbuf := [], crcAcc := crcSeed, cfg := cfg, descTable := tab } .none

/-- SYS.RESET (R240). On BAD_CONFIG nothing is written but that the block is not ready (spec/60_exceptions.md R255). -/
def execSysReset (a : ResetArgs) (tab : Option DescTable) (s : State) : Outcome :=
  match illegalFields a tab with
  | [] => .next (resetState s (cfgOf a) (tab.getD []))
  | f :: more => .next (raise { s with ready := false } (.badConfig (recordedField a tab f more)))

/-- FA.FLUSH: `RXBUF <- []`, nothing else (R241). -/
def execFaFlush (s : State) : Outcome := whenReady s (finish (setRxbuf s []) .none)

end Sys2Proof.Machine
end

