-- ==== Sys2Proof/Machine/Dispatch.lean ====
section
/-! DEFINITION. Sys2Proof/Machine/Dispatch.lean: one arm per instruction, each one direct call of its meaning. -/

namespace Sys2Proof.Machine

def exec (i : Instr) (s : State) : Host.Outcome State Fault Refusal :=
  match i with
  | .sysReset cfg table => Sys2Proof.Machine.execSysReset cfg table s
  | .faFlush => Sys2Proof.Machine.execFaFlush s
  | .crcInit => Sys2Proof.Machine.execCrcInit s
  | .crcByte b => Sys2Proof.Machine.execCrcByte b s
  | .crcBlock B => Sys2Proof.Machine.execCrcBlock B s
  | .crcCheck e => Sys2Proof.Machine.execCrcCheck e s
  | .faPush data => Sys2Proof.Machine.execFaPush data s
  | .epParse P => Sys2Proof.Machine.execEpParse P s
  | .epFilter env => Sys2Proof.Machine.execEpFilter env s
  | .epDecode P => Sys2Proof.Machine.execEpDecode P s
  | .wcDecode id B => Sys2Proof.Machine.execWcDecode id B s
  | .wcEncode id m => Sys2Proof.Machine.execWcEncode id m s
  | .epBuild env => Sys2Proof.Machine.execEpBuild env s
  | .faBuild P => Sys2Proof.Machine.execFaBuild P s
  | .stx => Sys2Proof.Machine.execStx s
  | .etx => Sys2Proof.Machine.execEtx s
  | .ptStandby d src dst => Sys2Proof.Machine.execPtStandby d src dst s
  | .ptNormal d src dst => Sys2Proof.Machine.execPtNormal d src dst s
  | .ptGathering d src dst => Sys2Proof.Machine.execPtGathering d src dst s
  | .ptInstall d src dst => Sys2Proof.Machine.execPtInstall d src dst s
  | .ptDownload d src dst => Sys2Proof.Machine.execPtDownload d src dst s
  | .dtUndefined p src dst => Sys2Proof.Machine.execDtUndefined p src dst s
  | .dtRead p src dst => Sys2Proof.Machine.execDtRead p src dst s
  | .dtWrite p src dst => Sys2Proof.Machine.execDtWrite p src dst s
  | .dtRequest p src dst => Sys2Proof.Machine.execDtRequest p src dst s
  | .dtNotification p src dst => Sys2Proof.Machine.execDtNotification p src dst s
  | .dtResponse p src dst => Sys2Proof.Machine.execDtResponse p src dst s
  | .dtAck p src dst => Sys2Proof.Machine.execDtAck p src dst s
  | .dtNack p src dst => Sys2Proof.Machine.execDtNack p src dst s
  | .dsK0 hi lo pos rest => Sys2Proof.Machine.execDsK0 hi lo pos rest s
  | .dsK1 hi lo pos rest => Sys2Proof.Machine.execDsK1 hi lo pos rest s
  | .dsK2 hi lo pos rest => Sys2Proof.Machine.execDsK2 hi lo pos rest s
  | .dsK3 hi lo pos rest => Sys2Proof.Machine.execDsK3 hi lo pos rest s
  | .decRaw d B => Sys2Proof.Machine.execDecRaw d B s
  | .decBool d B => Sys2Proof.Machine.execDecBool d B s
  | .decEnum d B => Sys2Proof.Machine.execDecEnum d B s
  | .decInt d B => Sys2Proof.Machine.execDecInt d B s
  | .decFloat d B => Sys2Proof.Machine.execDecFloat d B s
  | .decTemp d B => Sys2Proof.Machine.execDecTemp d B s
  | .decPower d B => Sys2Proof.Machine.execDecPower d B s
  | .decEnergy d B => Sys2Proof.Machine.execDecEnergy d B s
  | .decCurrent d B => Sys2Proof.Machine.execDecCurrent d B s
  | .decString d B => Sys2Proof.Machine.execDecString d B s
  | .decStruct d B => Sys2Proof.Machine.execDecStruct d B s
  | .encRaw id d m => Sys2Proof.Machine.execEncRaw id d m s
  | .encBool id d m => Sys2Proof.Machine.execEncBool id d m s
  | .encEnum id d m => Sys2Proof.Machine.execEncEnum id d m s
  | .encInt id d m => Sys2Proof.Machine.execEncInt id d m s
  | .encFloat id d m => Sys2Proof.Machine.execEncFloat id d m s
  | .encTemp id d m => Sys2Proof.Machine.execEncTemp id d m s
  | .encPower id d m => Sys2Proof.Machine.execEncPower id d m s
  | .encEnergy id d m => Sys2Proof.Machine.execEncEnergy id d m s
  | .encCurrent id d m => Sys2Proof.Machine.execEncCurrent id d m s
  | .encString id d m => Sys2Proof.Machine.execEncString id d m s
  | .encStruct id d m => Sys2Proof.Machine.execEncStruct id d m s

end Sys2Proof.Machine
end

