-- ==== Sys2Proof/WellFormed.lean ====
section
/-! DEFINITION. Sys2Proof/WellFormed.lean: which terms of `Instr` stand for something the block can be given. The types
rule out most of the rest (nibbles, 16-bit ids, bytes); these are the checks they do not make. -/

namespace Sys2Proof

/-- The walk of spec/43_envelope_parser.md R203 visits dataset `index` of `count`, `count` being one byte, at a payload
offset past the header. -/
def WalkPos.wf (p : WalkPos) : Bool :=
  decide (p.index < p.count) && decide (p.count ≤ 255) && decide (10 ≤ p.offset)

/-- The well-formed instructions. The fourteen operations are defined on all operands of their types (SYS.RESET checks its
own: R240). DS rows: the walk can stand there. DEC and ENC rows: the descriptor fields are those of the row's type
(spec/41_wire_codec.md R122), as in every table that SYS.RESET accepts. -/
def Instr.wf : Instr → Bool
  | .sysReset _ _ => true
  | .faFlush => true
  | .crcInit => true
  | .crcByte _ => true
  | .crcBlock _ => true
  | .crcCheck _ => true
  | .faPush _ => true
  | .epParse _ => true
  | .epFilter _ => true
  | .epDecode _ => true
  | .wcDecode _ _ => true
  | .wcEncode _ _ => true
  | .epBuild _ => true
  | .faBuild _ => true
  | .stx => true
  | .etx => true
  | .ptStandby _ _ _ => true
  | .ptNormal _ _ _ => true
  | .ptGathering _ _ _ => true
  | .ptInstall _ _ _ => true
  | .ptDownload _ _ _ => true
  | .dtUndefined _ _ _ => true
  | .dtRead _ _ _ => true
  | .dtWrite _ _ _ => true
  | .dtRequest _ _ _ => true
  | .dtNotification _ _ _ => true
  | .dtResponse _ _ _ => true
  | .dtAck _ _ _ => true
  | .dtNack _ _ _ => true
  | .dsK0 _ _ pos _ => pos.wf
  | .dsK1 _ _ pos _ => pos.wf
  | .dsK2 _ _ pos _ => pos.wf
  | .dsK3 _ _ pos _ => pos.wf
  | .decRaw d _ => Machine.bodyFits .raw d
  | .decBool d _ => Machine.bodyFits .bool d
  | .decEnum d _ => Machine.bodyFits .enum d
  | .decInt d _ => Machine.bodyFits .int d
  | .decFloat d _ => Machine.bodyFits .float d
  | .decTemp d _ => Machine.bodyFits .temp d
  | .decPower d _ => Machine.bodyFits .power d
  | .decEnergy d _ => Machine.bodyFits .energy d
  | .decCurrent d _ => Machine.bodyFits .current d
  | .decString d _ => Machine.bodyFits .string d
  | .decStruct d _ => Machine.bodyFits .struct d
  | .encRaw _ d _ => Machine.bodyFits .raw d
  | .encBool _ d _ => Machine.bodyFits .bool d
  | .encEnum _ d _ => Machine.bodyFits .enum d
  | .encInt _ d _ => Machine.bodyFits .int d
  | .encFloat _ d _ => Machine.bodyFits .float d
  | .encTemp _ d _ => Machine.bodyFits .temp d
  | .encPower _ d _ => Machine.bodyFits .power d
  | .encEnergy _ d _ => Machine.bodyFits .energy d
  | .encCurrent _ d _ => Machine.bodyFits .current d
  | .encString _ d _ => Machine.bodyFits .string d
  | .encStruct _ d _ => Machine.bodyFits .struct d

end Sys2Proof
end

