-- ==== Sys2Proof/Machine/Step.lean ====
section
/-! DEFINITION. Sys2Proof/Machine/Step.lean: one step of the block: the oldest issued command is taken, decoded and run
(spec/00_scope.md R6, spec/20_memory.md R60 d). -/

namespace Sys2Proof.Machine

/-- One step. With no command issued the block does nothing (spec/60_exceptions.md R267). A command is taken from the
inbox whole; if it decodes to a well-formed instruction, its operation runs to its end in this one step (R54); if not,
the command is rejected. -/
def step (s : State) : Host.Outcome State Fault Refusal :=
  match s.inbox with
  | [] => .next s
  | c :: rest =>
    match decode c with
    | .ok i =>
      if i.wf then exec i { s with inbox := rest }
      else rejectCommand { s with inbox := rest } (.badOperands c.space)
    | .error e => rejectCommand { s with inbox := rest } e

/-- `s` with a table word issued before everything else the host has issued, so that the next step takes it. -/
def State.withFetchWord (s : State) (nbits w : Nat) : State :=
  { s with inbox := Decode.commandOfWord nbits w :: s.inbox }

end Sys2Proof.Machine
end

