-- ==== Sys2Proof/Safety.lean ====
section
/-! DEFINITION. Sys2Proof/Safety.lean: the terms the statements use. Readings and step functions written a second time
straight from the spec's words, the step rules of the drain loop as a relation, runs of several operations, and the
invariant of the receive buffer. -/

namespace Sys2Proof.Safety

open Sys2Proof.Machine

/-! ### Numbers -/

/-- The unsigned big-endian value of a byte sequence (spec/00_scope.md R8): the bytes are its digits to base 256. -/
def bigEndian (B : Bytes) : Nat := Nat.ofDigits 256 (B.reverse.map BitVec.toNat)

/-- `p` is the wire integer of value bytes `B`: congruent to their unsigned value, in the range of the width and the
sign flag (spec/30_encoding.md R84). -/
def IsWireInt (signed : Bool) (B : Bytes) (p : Int) : Prop :=
  (2 ^ (8 * B.length) : Int) ∣ p - bigEndian B ∧
    if signed then -(2 ^ (8 * B.length - 1) : Int) ≤ p ∧ p ≤ 2 ^ (8 * B.length - 1) - 1
    else 0 ≤ p ∧ p ≤ 2 ^ (8 * B.length) - 1

/-- `p` is in the range of a width and a sign flag (spec/41_wire_codec.md R152). -/
def FitsWidth (w : Nat) (signed : Bool) (p : Int) : Prop :=
  if signed then -(2 ^ (8 * w - 1) : Int) ≤ p ∧ p ≤ 2 ^ (8 * w - 1) - 1
  else 0 ≤ p ∧ p ≤ 2 ^ (8 * w) - 1

/-- What a tie rule asks of the neighbour `p` that is taken for the half-way value `q`. -/
def TieTaken (t : TieRule) (q : Rat) (p : Int) : Prop :=
  match t with
  | .halfToEven => p % 2 = 0
  | .halfToOdd => p % 2 = 1
  | .halfUp => q < p
  | .halfDown => (p : Rat) < q
  | .halfAwayFromZero => |q| < |(p : Rat)|
  | .halfTowardZero => |(p : Rat)| < |q|
  | .upWhen t => q < p ↔ testHolds q.floor t = true
  | .host k => q < p ↔ Config.tieGoesUp k q.floor = true

/-- `p` is `ROUND(q)`: the value given for `q` where one is, and always a nearest integer; on a tie without a given value,
the neighbour that the tie rule takes (R144). -/
def IsRounded (r : RoundRule) (q : Rat) (p : Int) : Prop :=
  |(p : Rat) - q| ≤ 1 / 2 ∧
    (∀ n, List.lookup q r.points = some n → p = n) ∧
    (List.lookup q r.points = none → |(p : Rat) - q| = 1 / 2 → ∀ t, r.base = .nearest t → TieTaken t q p)

/-- A legal `ROUND`: no further than 1/2 from its argument (R144). -/
def LegalRound (r : RoundRule) : Prop := ∀ q : Rat, |(roundBy r q : Rat) - q| ≤ 1 / 2

/-! ### The CRC pseudocode over naturals (spec/40_crc16.md R111) -/

/-- One of the eight shifts of `crc_step`. -/
def crcShiftRef (c : Nat) : Nat :=
  if c / 32768 % 2 = 1 then (c * 2 % 65536) ^^^ 0x1021 else c * 2 % 65536

/-- `crc_step(c, b)`. -/
def crcStepRef (c b : Nat) : Nat := Nat.iterate crcShiftRef 8 (c ^^^ (b * 256))

/-- `B` with bit `j` of byte `i` flipped. -/
def flipBit (B : Bytes) (i j : Nat) : Bytes := B.modify i (fun b => b ^^^ (1#8 <<< j))

/-! ### Runs of operations -/

/-- The operations one after another, each in the state the one before it left. -/
def execAll : List Instr → State → Outcome
  | [], s => .next s
  | i :: is, s =>
    match exec i s with
    | .next t => execAll is t
    | .fault f => .fault f
    | .refused r => .refused r

/-- The event list of a report. -/
def eventsOf : Report → List Event
  | .ok (.events es) => es
  | _ => []

/-- `PUSH*(c1, c2, …)`: the pushes one after another, their event lists concatenated (spec/30_encoding.md R89). -/
def pushAll : List Bytes → State → List Event × State
  | [], s => ([], s)
  | c :: cs, s =>
    match exec (.faPush c) s with
    | .next t => (eventsOf t.report ++ (pushAll cs t).1, (pushAll cs t).2)
    | _ => ([], s)

/-- The payloads of the EMIT events, in order. -/
def emits (es : List Event) : List Bytes :=
  es.filterMap fun
    | .emit P => some P
    | _ => none

/-- Neither an OVERFLOW nor a JUMP_STX event occurs. -/
def NoOverflowNoJump (es : List Event) : Prop :=
  ∀ e ∈ es, (∀ n, e ≠ .overflow n) ∧ (∀ k, e ≠ .jumpStx k)

/-! ### The step rules of the drain loop as a relation (spec/42_frame_assembler.md R174 to R184)

`Drains cfg B es out`: from buffer `B` the loop emits `es` and stops with buffer `out`. Each rule names the parts of the
buffer instead of computing offsets. -/

/-- No byte of `G` is STX. -/
def NoStx (G : Bytes) : Prop := ∀ b ∈ G, b ≠ 0x32

/-- `total_len` of a candidate with LEN bytes `h` and `l` (spec/30_encoding.md R72). -/
def lenTotal (h l : Byte) : Nat := h.toNat * 256 + l.toNat + 2

inductive Drains (cfg : Cfg) : Bytes → List Event → Bytes → Prop where
  /-- Step 1 (R174). -/
  | empty : Drains cfg [] [.stopEmpty] []
  /-- Step 2, no STX (R175). -/
  | noStx (G : Bytes) : G ≠ [] → NoStx G → Drains cfg G [.clearNostx G.length] []
  /-- Step 2, STX after garbage (R176). -/
  | garbage (G R : Bytes) (es : List Event) (out : Bytes) :
      G ≠ [] → NoStx G → Drains cfg (0x32 :: R) es out →
      Drains cfg (G ++ 0x32 :: R) (.discardPrefix G.length :: es) out
  /-- Step 3 (R177). -/
  | waitHeader (R : Bytes) : R.length < 2 → Drains cfg (0x32 :: R) [.waitHeader (R.length + 1)] (0x32 :: R)
  /-- Step 4, over the cap (R178). -/
  | lenCap (h l : Byte) (R : Bytes) (es : List Event) (out : Bytes) :
      cfg.lenCap < lenTotal h l → Drains cfg (h :: l :: R) es out →
      Drains cfg (0x32 :: h :: l :: R) (.dropLencap (lenTotal h l) :: es) out
  /-- Step 4, too small (R179). -/
  | lenMin (h l : Byte) (R : Bytes) (es : List Event) (out : Bytes) :
      lenTotal h l ≤ cfg.lenCap → lenTotal h l < 6 → Drains cfg (h :: l :: R) es out →
      Drains cfg (0x32 :: h :: l :: R) (.dropLenmin (lenTotal h l) :: es) out
  /-- Step 5, jump to the nearer STX (R181): `G` is what stands before it, after the first byte. -/
  | jump (h l : Byte) (R G Q : Bytes) (es : List Event) (out : Bytes) :
      lenTotal h l ≤ cfg.lenCap → 6 ≤ lenTotal h l → R.length + 3 + cfg.jumpSlack < lenTotal h l →
      h :: l :: R = G ++ 0x32 :: Q → NoStx G → G.length + 1 ≤ cfg.jumpWindow →
      Drains cfg (0x32 :: Q) es out →
      Drains cfg (0x32 :: h :: l :: R) (.jumpStx (G.length + 1) :: es) out
  /-- Step 5, wait (R180). -/
  | waitBody (h l : Byte) (R : Bytes) :
      lenTotal h l ≤ cfg.lenCap → 6 ≤ lenTotal h l → R.length + 3 < lenTotal h l →
      (lenTotal h l ≤ R.length + 3 + cfg.jumpSlack ∨
        ∀ G Q, h :: l :: R = G ++ 0x32 :: Q → NoStx G → cfg.jumpWindow < G.length + 1) →
      Drains cfg (0x32 :: h :: l :: R) [.waitBody (R.length + 3) (lenTotal h l)] (0x32 :: h :: l :: R)
  /-- Step 6, the last byte of the candidate is not ETX (R182). -/
  | notEtx (h l e : Byte) (C R : Bytes) (es : List Event) (out : Bytes) :
      lenTotal h l ≤ cfg.lenCap → lenTotal h l = C.length + 4 → 6 ≤ lenTotal h l → e ≠ 0x34 →
      Drains cfg (h :: l :: (C ++ e :: R)) es out →
      Drains cfg (0x32 :: h :: l :: (C ++ e :: R)) (.dropEtx e :: es) out
  /-- Step 7, the CRC field is not the payload's CRC (R183). -/
  | badCrc (h l c1 c0 : Byte) (P R : Bytes) (es : List Event) (out : Bytes) :
      lenTotal h l ≤ cfg.lenCap → lenTotal h l = P.length + 6 → crc16 P ≠ (c1 ++ c0 : BitVec 16) →
      Drains cfg (h :: l :: (P ++ c1 :: c0 :: 0x34 :: R)) es out →
      Drains cfg (0x32 :: h :: l :: (P ++ c1 :: c0 :: 0x34 :: R)) (.dropCrc (crc16 P) (c1 ++ c0) :: es) out
  /-- Step 8 (R184). -/
  | emit (h l c1 c0 : Byte) (P R : Bytes) (es : List Event) (out : Bytes) :
      lenTotal h l ≤ cfg.lenCap → lenTotal h l = P.length + 6 → crc16 P = (c1 ++ c0 : BitVec 16) →
      Drains cfg R es out →
      Drains cfg (0x32 :: h :: l :: (P ++ c1 :: c0 :: 0x34 :: R)) (.emit P :: es) out

/-! ### The invariant -/

/-- The invariant of `RXBUF` (spec/10_state.md R29). -/
def BufferInv (cfg : Cfg) (B : Bytes) : Prop :=
  B.length ≤ cfg.maxBufferSize ∧
    (B = [] ∨
      (B.head? = some 0x32 ∧
        (B.length < 3 ∨ (6 ≤ totalLen B ∧ totalLen B ≤ cfg.lenCap ∧ B.length < totalLen B))))

/-- The legal configurations (R24). -/
def LegalCfg (cfg : Cfg) : Prop :=
  6 ≤ cfg.maxBufferSize ∧ 6 ≤ cfg.lenCap ∧ cfg.lenCap ≤ 65537 ∧ LegalRound cfg.round

/-- A block that is ready has a legal configuration, a well-formed table and a receive buffer as R29 says. -/
def BlockInv (s : State) : Prop :=
  s.ready = true → LegalCfg s.cfg ∧ tableLegal s.cfg s.descTable = true ∧ BufferInv s.cfg s.rxbuf

/-- The stop event that an empty push returns after a stop (R187). -/
def repeatedStop : Event → Event
  | .waitHeader n => .waitHeader n
  | .waitBody n T => .waitBody n T
  | _ => .stopEmpty

/-! ### Codec terms -/

/-- What a decode ends in when its arm fails: the declared default, else RAW (spec/41_wire_codec.md R124). -/
def failedDecode (d : DescBody) (B : Bytes) : Message × DecStatus :=
  match d.declaredDefault with
  | some m => (m, .defaulted)
  | none => (.raw B, .error)

/-- The state after an operation that ended with message `r`. -/
def withMessage (s : State) (r : Message × DecStatus) : State := { s with report := .ok (.message r.1 r.2) }

/-- The TLV layout of sub-values: `[len][sub_id:2][value]` each (spec/30_encoding.md R83). -/
def tlvLayout (es : List (MsgId × Bytes)) : Bytes :=
  es.flatMap fun e =>
    [BitVec.ofNat 8 (e.2.length + 2), e.1.extractLsb' 8 8, e.1.extractLsb' 0 8] ++ e.2

mutual
/-- The message that decoding gives back for an encoded one (R153): the message itself, but a scaled value at the
descriptor's resolution, and in a structure each sub-message so. -/
def returned (cfg : Cfg) (tab : DescTable) : Message → MsgId → Message
  | .bool b, _ => .bool b
  | .enum c, _ => .enum c
  | .int z, _ => .int z
  | .float q, id => .float (atResolution cfg tab id q)
  | .temp q, id => .temp (atResolution cfg tab id q)
  | .power q, id => .power (atResolution cfg tab id q)
  | .energy q, id => .energy (atResolution cfg tab id q)
  | .current q, id => .current (atResolution cfg tab id q)
  | .raw B, _ => .raw B
  | .string B, _ => .string B
  | .struct E, _ => .struct (returnedEntries cfg tab E)
/-- The entries of a structure as decoding gives them back; a sub-id without descriptor comes back as UNKNOWN_ID. -/
def returnedEntries (cfg : Cfg) (tab : DescTable) : Entries → Entries
  | .nil => .nil
  | .cons subId m _ rest =>
    .cons subId (returned cfg tab m subId) (if (lookupDesc tab subId).isSome then .ok else .unknownId)
      (returnedEntries cfg tab rest)
/-- `ROUND(q / arithmetic) * arithmetic` (R153). -/
def atResolution (cfg : Cfg) (tab : DescTable) (id : MsgId) (q : Rat) : Rat :=
  match lookupDesc tab id with
  | some d =>
    match d.body.arithmetic with
    | some a => (roundBy cfg.round (q / a) : Rat) * a
    | none => q
  | none => q
end

/-! ### Envelope terms -/

/-- The value length of a width-kind, for the kinds that have one (spec/30_encoding.md R80). -/
def kindLength (k : BitVec 2) : Option Nat :=
  if k = 0 then some 1 else if k = 1 then some 2 else if k = 2 then some 4 else none

/-- A dataset whose kind is its id's and, but for kind 3, whose value has the kind's length (spec/44_frame_build.md
R232). -/
def DatasetOk (d : Dataset) : Prop :=
  d.kind = d.id.extractLsb' 9 2 ∧ ∀ w, kindLength d.kind = some w → d.raw.length = w

/-- What EP.BUILD accepts (R232). -/
def Buildable (env : Envelope) : Prop :=
  env.datasets.length ≤ 255 ∧ (∀ d ∈ env.datasets, DatasetOk d) ∧
    (∀ d ∈ env.datasets, d.kind = 3 → env.datasets.length = 1)

/-- The bytes of datasets on the wire: id high byte, id low byte, value (spec/30_encoding.md R80, R81). -/
def datasetsOnWire (ds : List Dataset) : Bytes :=
  ds.flatMap fun d => [d.id.extractLsb' 8 8, d.id.extractLsb' 0 8] ++ d.raw

/-- A dataset without its decoded message. -/
def undecoded (d : Dataset) : Dataset := { d with decoded := none }

/-- The table of the direction filter (spec/43_envelope_parser.md R214): whether payload type `n` is forwarded. -/
def forwardTable (isLocal : Bool) (n : Nat) : Bool :=
  match n with
  | 2 => true
  | 3 => isLocal
  | 4 => !isLocal
  | 5 => !isLocal
  | _ => false

/-- The verdict of R213 to R215 on a packet type, a payload type and the addresses. -/
def verdictTable (cfg : Cfg) (p d : BitVec 4) (src dst : Address) : Verdict :=
  if p.toNat = 1 ∧ forwardTable (decide (src = cfg.localAddr)) d.toNat then
    (if src = cfg.localAddr then .forward dst else .forward src)
  else .drop

/-- SYS.RESET is the one operation that writes the configuration (spec/10_state.md R24). -/
def isReset : Instr → Bool
  | .sysReset _ _ => true
  | _ => false

/-- The operations that write `RXBUF` (R20): FA.PUSH, the two wire bytes it is made of, FA.FLUSH, SYS.RESET. -/
def writesRxbuf : Instr → Bool
  | .faPush _ | .stx | .etx | .faFlush | .sysReset _ _ => true
  | _ => false

/-- The operations that write `CRC_ACC` (R20): CRC.INIT, CRC.BYTE, SYS.RESET. -/
def writesCrc : Instr → Bool
  | .crcInit | .crcByte _ | .sysReset _ _ => true
  | _ => false

end Sys2Proof.Safety
end

