-- ==== Sys2Proof/Certificates/Slice0/Obligations.lean ====
section
/-! DEFINITION. Sys2Proof/Certificates/Slice0/Obligations.lean: the statements for the provers. -/

open Sys2Proof Sys2Proof.Machine Sys2Proof.Safety

/-! ### The CRC unit (spec/40_crc16.md) -/

/-- R112: CRC.INIT, select code 0x10, sets `CRC_ACC` to the seed and nothing else; after it CRC.BYTE 0x01 leaves 0x1021. -/
def Obligations.CrcInitLoadsSeed : Prop :=
  decode ⟨.op, [0x10], .none⟩ = .ok .crcInit ∧
  ∀ s : State, s.ready = true →
    exec .crcInit s = .next { s with crcAcc := 0x0000, report := .ok .none } ∧
    execAll [.crcInit, .crcByte 0x01] s = .next { s with crcAcc := 0x1021, report := .ok .none }

/-- R111: CRC.BYTE, select code 0x11, leaves in `CRC_ACC` what the pseudocode over naturals computes, every value on the way
below 65536, and nothing else changes; a zero byte leaves a zero register zero, and 0x80 on a zero register goes through
the eight values the rule prints. (The generator is the spec's own supply from general knowledge: its item G1.) -/
def Obligations.CrcByteFollowsPseudocode : Prop :=
  (∀ b : Byte, decode ⟨.op, [0x11, b], .none⟩ = .ok (.crcByte b)) ∧
  (∀ (s : State) (b : Byte), s.ready = true →
    (∀ k : Nat, k ≤ 8 → Nat.iterate crcShiftRef k (s.crcAcc.toNat ^^^ (b.toNat * 256)) < 65536) ∧
    exec (.crcByte b) s =
      .next { s with crcAcc := BitVec.ofNat 16 (crcStepRef s.crcAcc.toNat b.toNat), report := .ok .none }) ∧
  crcStepRef 0 0 = 0 ∧ crcStepRef 0 0x80 = 0x9188 ∧
  (List.range 9).map (fun k => Nat.iterate crcShiftRef k (0 ^^^ (0x80 * 256))) =
    [0x8000, 0x1021, 0x2042, 0x4084, 0x8108, 0x1231, 0x2462, 0x48C4, 0x9188]

/-- R113: CRC.BLOCK, select code 0x12, returns the fold of the pseudocode from the seed, the same whatever `CRC_ACC`
holds, and changes no other field. -/
def Obligations.CrcBlockFoldsFromSeed : Prop :=
  (∀ B : Bytes, decode ⟨.op, 0x12 :: B, .none⟩ = .ok (.crcBlock B)) ∧
  ∃ f : Bytes → Word16,
    f [] = 0x0000 ∧
    (∀ (B : Bytes) (b : Byte), (f (B ++ [b])).toNat = crcStepRef (f B).toNat b.toNat) ∧
    (∀ (s : State) (B : Bytes), s.ready = true →
      exec (.crcBlock B) s = .next { s with report := .ok (.crc (f B)) }) ∧
    f [0x20, 0x00, 0x01, 0x80, 0xFF, 0x01, 0x80, 0x15, 0x01, 0x01, 0x40, 0x00, 0x01] = 0xF9EE

/-- R114: CRC.CHECK, select code 0x13, tells whether `CRC_ACC` is the expected value and changes no other field; after
CRC.INIT and CRC.BYTE of the bytes of `P` it is true exactly for the value CRC.BLOCK returns for `P`. -/
def Obligations.CrcStreamingEqualsBlock : Prop :=
  (∀ h l : Byte, decode ⟨.op, [0x13, h, l], .none⟩ = .ok (.crcCheck (h ++ l))) ∧
  (∀ (s : State) (e : Word16), s.ready = true →
    exec (.crcCheck e) s = .next { s with report := .ok (.truth (decide (s.crcAcc = e))) }) ∧
  ∀ (s : State) (P : Bytes), s.ready = true →
    ∃ c : Word16,
      exec (.crcBlock P) s = .next { s with report := .ok (.crc c) } ∧
      ∀ e : Word16,
        execAll (.crcInit :: P.map .crcByte ++ [.crcCheck e]) s =
          .next { s with crcAcc := c, report := .ok (.truth (decide (c = e))) }

/-- R115 (b): flipping one bit of the operand changes what CRC.BLOCK returns. -/
def Obligations.CrcDetectsEverySingleBitFlip : Prop :=
  ∀ (s : State) (B : Bytes) (i j : Nat), s.ready = true → i < B.length → j < 8 →
    ∃ c c' : Word16,
      exec (.crcBlock B) s = .next { s with report := .ok (.crc c) } ∧
      exec (.crcBlock (flipBit B i j)) s = .next { s with report := .ok (.crc c') } ∧
      c ≠ c'

/-- R115 (c), (d): leading zero bytes do not change what CRC.BLOCK returns, and a sequence followed by its own CRC, high
byte first, gives 0x0000. -/
def Obligations.CrcBlindSpotAndResidue : Prop :=
  ∀ (s : State) (B : Bytes) (k : Nat), s.ready = true →
    ∃ c : Word16,
      exec (.crcBlock B) s = .next { s with report := .ok (.crc c) } ∧
      exec (.crcBlock (List.replicate k 0x00 ++ B)) s = .next { s with report := .ok (.crc c) } ∧
      exec (.crcBlock (B ++ [c.extractLsb' 8 8, c.extractLsb' 0 8])) s = .next { s with report := .ok (.crc 0x0000) }

/-! ### The frame assembler (spec/42_frame_assembler.md) -/

/-- R256: when the bytes held and the bytes of a push together exceed `MAX_BUFFER_SIZE`, the buffer is emptied, the one
event is OVERFLOW with their number, and the next push is accepted. That the instructions STX and ETX are pushes of
their own byte is the model's choice (log entry 3), not R256's. -/
def Obligations.OverflowDropsTheWholeBuffer : Prop :=
  ∀ (s : State) (data : Bytes) (i : Instr), s.ready = true →
    (i = .faPush data ∨ (i = .stx ∧ data = [0x32]) ∨ (i = .etx ∧ data = [0x34])) →
    s.cfg.maxBufferSize < (s.rxbuf ++ data).length →
    exec i s = .next { s with rxbuf := [], report := .ok (.events [.overflow (s.rxbuf ++ data).length]) } ∧
    ∀ more : Bytes, ∃ t u : State, exec i s = .next t ∧ exec (.faPush more) t = .next u ∧ u.ready = true

/-- R173 to R184: when there is no overflow, FA.PUSH, STX and ETX return the events and leave the buffer that the step
rules of the drain loop give for the bytes held and pushed, the step rules give nothing else, and no other field
changes. That the instructions STX and ETX are pushes of their own byte is the model's choice (log entry 3). -/
def Obligations.PushFollowsTheStepRules : Prop :=
  ∀ (s : State) (data : Bytes) (i : Instr), s.ready = true →
    (i = .faPush data ∨ (i = .stx ∧ data = [0x32]) ∨ (i = .etx ∧ data = [0x34])) →
    (s.rxbuf ++ data).length ≤ s.cfg.maxBufferSize →
    ∃ (es : List Event) (out : Bytes),
      exec i s = .next { s with rxbuf := out, report := .ok (.events es) } ∧
      Drains s.cfg (s.rxbuf ++ data) es out ∧
      ∀ es' out', Drains s.cfg (s.rxbuf ++ data) es' out' → es' = es ∧ out' = out

/-- R171, R186: the last event of a push is a stop event and no other is, and a push emits at most a sixth as many
payloads as there are bytes buffered. -/
def Obligations.PushEndsInOneStopEvent : Prop :=
  ∀ (s : State) (data : Bytes), s.ready = true →
    ∃ (t : State) (es : List Event) (last : Event),
      exec (.faPush data) s = .next t ∧ t.report = .ok (.events (es ++ [last])) ∧
      isStop last = true ∧ (∀ e ∈ es, isStop e = false) ∧
      6 * (emits (es ++ [last])).length ≤ (s.rxbuf ++ data).length

/-- R187: after a push the buffer satisfies R29, and an empty push then changes nothing but the report, which is the one
stop event again (STOP_EMPTY where the buffer was left empty). -/
def Obligations.EmptyPushRepeatsTheStop : Prop :=
  ∀ (s : State) (data : Bytes), s.ready = true →
    ∃ (t : State) (es : List Event) (last : Event),
      exec (.faPush data) s = .next t ∧ t.report = .ok (.events (es ++ [last])) ∧
      BufferInv t.cfg t.rxbuf ∧
      exec (.faPush []) t = .next { t with report := .ok (.events [repeatedStop last]) }

/-- R188: a stream pushed in chunks, and in one push, emits the same payloads and leaves the same buffer, if no OVERFLOW
and no JUMP_STX occurs either way. -/
def Obligations.EmissionsDoNotDependOnChunking : Prop :=
  ∀ (s : State) (c : Bytes) (cs : List Bytes), s.ready = true →
    NoOverflowNoJump (pushAll (c :: cs) s).1 → NoOverflowNoJump (pushAll [(c :: cs).flatten] s).1 →
    emits (pushAll (c :: cs) s).1 = emits (pushAll [(c :: cs).flatten] s).1 ∧
    (pushAll (c :: cs) s).2.rxbuf = (pushAll [(c :: cs).flatten] s).2.rxbuf

/-- R189: garbage without STX, a built frame, garbage without STX and a second built frame, in any chunks, give exactly
the two payloads and leave the buffer empty, if no overflow and no jump occurs; and none occurs if the stream fits the
buffer and the frames are no longer than `JUMP_SLACK + 3` or the window is 0. -/
def Obligations.ResyncYieldsBothFrames : Prop :=
  ∀ (s : State) (G1 P1 G2 P2 F1 F2 : Bytes) (chunks : List Bytes), s.ready = true → s.rxbuf = [] →
    s.cfg.lenCap ≤ 65537 → P1.length + 6 ≤ s.cfg.lenCap → P2.length + 6 ≤ s.cfg.lenCap →
    NoStx G1 → NoStx G2 →
    exec (.faBuild P1) s = .next { s with report := .ok (.bytes F1) } →
    exec (.faBuild P2) s = .next { s with report := .ok (.bytes F2) } →
    chunks.flatten = G1 ++ F1 ++ G2 ++ F2 →
    (NoOverflowNoJump (pushAll chunks s).1 →
      emits (pushAll chunks s).1 = [P1, P2] ∧ (pushAll chunks s).2.rxbuf = []) ∧
    ((G1 ++ F1 ++ G2 ++ F2).length ≤ s.cfg.maxBufferSize →
      (s.cfg.jumpWindow = 0 ∨ (F1.length ≤ s.cfg.jumpSlack + 3 ∧ F2.length ≤ s.cfg.jumpSlack + 3)) →
      NoOverflowNoJump (pushAll chunks s).1)

/-- R29: every step keeps the invariant of the receive buffer (with a legal configuration and a well-formed table, while
the block is ready). What a step is, is the model's choice (log entry 1), and so is part of what makes a table
well-formed (log entries 10, 16 and 18). -/
def Obligations.StepKeepsReceiveBufferInvariant : Prop :=
  ∀ s t : State, BlockInv s → step s = .next t → BlockInv t

/-- R30, R29: the state after reset satisfies the invariant and has the values the spec gives: empty buffer, zero CRC
register, the defaults of the configuration. That `MAX_BUFFER_SIZE` is 8192, the local address 800001 and the table the
test table is the model's choice (log entry 2) and is not claimed here. -/
def Obligations.ResetStateIsAsStated : Prop :=
  BlockInv State.reset ∧ State.reset.rxbuf = [] ∧ State.reset.crcAcc = 0x0000 ∧ State.reset.cfg.lenCap = 4096 ∧
  State.reset.cfg.jumpSlack = 512 ∧ State.reset.cfg.jumpWindow = 32 ∧ State.reset.cfg.boolNonzeroTrue = true ∧
  State.reset.cfg.round = .halfToEven ∧ State.reset.ready = true

/-! ### Build (spec/44_frame_build.md) -/

/-- R233: FA.BUILD, select code 0x51, returns STX, LEN, the payload, its CRC and ETX, with LEN the payload's length plus 4
and the CRC the one CRC.BLOCK returns, both high byte first; or BLD_LEN where LEN would pass 65535. -/
def Obligations.FrameBuildFramesThePayload : Prop :=
  (∀ P : Bytes, decode ⟨.op, 0x51 :: P, .none⟩ = .ok (.faBuild P)) ∧
  (∀ (s : State) (P : Bytes), s.ready = true →
    (65535 < P.length + 4 → exec (.faBuild P) s = .next { s with report := .raised (.bldLen P.length) }) ∧
    (P.length + 4 ≤ 65535 → ∃ h l c1 c0 : Byte,
      h.toNat * 256 + l.toNat = P.length + 4 ∧
      exec (.crcBlock P) s = .next { s with report := .ok (.crc (c1 ++ c0)) } ∧
      exec (.faBuild P) s = .next { s with report := .ok (.bytes ([0x32, h, l] ++ P ++ [c1, c0, 0x34])) })) ∧
  (∀ s : State, s.ready = true →
    exec (.faBuild []) s = .next { s with report := .ok (.bytes [0x32, 0x00, 0x04, 0x00, 0x00, 0x34]) })

/-- R235 (a): a built frame no longer than `LEN_CAP` and `MAX_BUFFER_SIZE`, pushed into an empty buffer, is emitted and
the buffer is empty again. -/
def Obligations.BuiltFrameIsReceived : Prop :=
  ∀ (s : State) (P : Bytes), s.ready = true → s.rxbuf = [] → s.cfg.lenCap ≤ 65537 →
    P.length + 6 ≤ s.cfg.lenCap → P.length + 6 ≤ s.cfg.maxBufferSize →
    ∃ F : Bytes,
      exec (.faBuild P) s = .next { s with report := .ok (.bytes F) } ∧
      exec (.faPush F) s = .next { s with report := .ok (.events [.emit P, .stopEmpty]) }

/-- R235 (b): a built frame with one bit of its payload flipped fails the CRC step first. -/
def Obligations.DamagedFrameFailsTheCrcStep : Prop :=
  ∀ (s : State) (P : Bytes) (i j : Nat), s.ready = true → s.rxbuf = [] → s.cfg.lenCap ≤ 65537 →
    P.length + 6 ≤ s.cfg.lenCap → P.length + 6 ≤ s.cfg.maxBufferSize → i < P.length → j < 8 →
    ∃ (F : Bytes) (t : State) (c f : Word16) (es : List Event),
      exec (.faBuild P) s = .next { s with report := .ok (.bytes F) } ∧
      exec (.faPush (flipBit F (i + 3) j)) s = .next t ∧
      t.report = .ok (.events (.dropCrc c f :: es)) ∧ c ≠ f

/-- R236: a built frame longer than `LEN_CAP` is dropped at the cap when it is received. -/
def Obligations.OverlongBuiltFrameIsDropped : Prop :=
  ∀ (s : State) (P : Bytes), s.ready = true → s.rxbuf = [] → P.length + 6 ≤ 65537 →
    s.cfg.lenCap < P.length + 6 → P.length + 6 ≤ s.cfg.maxBufferSize →
    ∃ (F : Bytes) (t : State) (es : List Event),
      exec (.faBuild P) s = .next { s with report := .ok (.bytes F) } ∧
      exec (.faPush F) s = .next t ∧
      t.report = .ok (.events (.dropLencap (P.length + 6) :: es))

/-- R231: EP.BUILD, select code 0x50, of an envelope it accepts returns the addresses, the FLAGS byte, the TYPE byte, the
packet number, the number of datasets, and each dataset's id and value; `ds_count` and the decoded messages are
ignored. -/
def Obligations.PayloadBuildLaysOutTheEnvelope : Prop :=
  (∀ env : Envelope, decode ⟨.op, [0x50], .envelope env⟩ = .ok (.epBuild env)) ∧
  ∀ (s : State) (env : Envelope), s.ready = true → Buildable env →
    ∃ flags type count : Byte,
      flags.toNat = env.info.toNat * 128 + env.version.toNat * 32 + env.retry.toNat * 8 + env.flagsRsvd.toNat ∧
      type.toNat = env.packetType.toNat * 16 + env.payloadType.toNat ∧
      count.toNat = env.datasets.length ∧
      exec (.epBuild env) s = .next { s with report := .ok (.bytes
        ([env.src.cls, env.src.chan, env.src.unit, env.dst.cls, env.dst.chan, env.dst.unit,
          flags, type, env.packetNumber, count] ++ datasetsOnWire env.datasets)) }

/-- R232: EP.BUILD checks the number of datasets, then each dataset in order, kind against id, then value length, then
that kind 3 stands alone; the first check that fails is the cause, with the count or the dataset's index. -/
def Obligations.PayloadBuildChecksInOrder : Prop :=
  ∀ (s : State) (env : Envelope), s.ready = true →
    (255 < env.datasets.length →
      exec (.epBuild env) s = .next { s with report := .raised (.bldCount env.datasets.length) }) ∧
    ∀ (before after : List Dataset) (d : Dataset),
      env.datasets = before ++ d :: after → env.datasets.length ≤ 255 →
      (∀ x ∈ before, DatasetOk x ∧ (x.kind = 3 → env.datasets.length = 1)) →
      (¬ DatasetOk d → exec (.epBuild env) s = .next { s with report := .raised (.bldWidth before.length) }) ∧
      (DatasetOk d → d.kind = 3 → env.datasets.length ≠ 1 →
        exec (.epBuild env) s = .next { s with report := .raised (.bldStruct before.length) })

/-! ### The envelope parser (spec/43_envelope_parser.md) -/

/-- R202: EP.PARSE and EP.DECODE of a payload shorter than 10 bytes raise ERR_SHORT_PAYLOAD with its length, whatever the
bytes are; of a payload of 10 bytes or more they do not raise it. -/
def Obligations.ShortPayloadIsRejected : Prop :=
  ∀ (s : State) (P : Bytes), s.ready = true →
    (P.length < 10 →
      exec (.epParse P) s = .next { s with report := .raised (.errShortPayload P.length) } ∧
      exec (.epDecode P) s = .next { s with report := .raised (.errShortPayload P.length) }) ∧
    (10 ≤ P.length → ∃ r r' : Report,
      exec (.epParse P) s = .next { s with report := r } ∧ (∀ n, r ≠ .raised (.errShortPayload n)) ∧
      exec (.epDecode P) s = .next { s with report := r' } ∧ (∀ n, r' ≠ .raised (.errShortPayload n)))

/-- R235 (c): for every envelope EP.BUILD accepts, it returns a payload, and EP.PARSE of that payload returns the envelope
in every field, with `ds_count` the number of datasets. -/
def Obligations.ParseInvertsBuild : Prop :=
  ∀ (s : State) (env : Envelope), s.ready = true → Buildable env →
    ∃ P : Bytes,
      exec (.epBuild env) s = .next { s with report := .ok (.bytes P) } ∧
      exec (.epParse P) s = .next { s with report := .ok (.envelope
        { env with dsCount := BitVec.ofNat 8 env.datasets.length, datasets := env.datasets.map undecoded }) }

/-- R235 (d): for every payload EP.PARSE accepts, EP.BUILD of the envelope returns the payload byte for byte. -/
def Obligations.BuildInvertsParse : Prop :=
  ∀ (s : State) (P : Bytes) (env : Envelope), s.ready = true →
    exec (.epParse P) s = .next { s with report := .ok (.envelope env) } →
    exec (.epBuild env) s = .next { s with report := .ok (.bytes P) }

/-- R203 to R209: the walk over a payload of a 10-byte header, `m` good datasets of kind 0, 1 or 2 and a rest. With fewer
datasets than DS_COUNT and a rest that cannot hold one, the cause is ERR_DS_COUNT(underrun) for a missing id, then
ERR_STRUCT_MIXED for a kind 3 that is not alone, then underrun for a missing value; with all datasets there and bytes
left, ERR_DS_COUNT(trailing). -/
def Obligations.WalkRaisesTheFirstCause : Prop :=
  ∀ (s : State) (H R : Bytes) (n : Byte) (ds : List Dataset), s.ready = true → H.length = 9 →
    (∀ d ∈ ds, DatasetOk d ∧ d.kind ≠ 3) →
    let P := H ++ n :: (datasetsOnWire ds ++ R)
    let off := 10 + (datasetsOnWire ds).length
    (ds.length < n.toNat → R.length < 2 →
      exec (.epParse P) s = .next { s with report := .raised (.errDsUnderrun ds.length off) }) ∧
    (∀ (a b : Byte) (V : Bytes), R = a :: b :: V → ds.length < n.toNat → n.toNat ≠ 1 →
      (a ++ b : MsgId).extractLsb' 9 2 = 3 →
      exec (.epParse P) s = .next { s with report := .raised (.errStructMixed ds.length off) }) ∧
    (∀ (a b : Byte) (V : Bytes) (w : Nat), R = a :: b :: V → ds.length < n.toNat →
      kindLength ((a ++ b : MsgId).extractLsb' 9 2) = some w → V.length < w →
      exec (.epParse P) s = .next { s with report := .raised (.errDsUnderrun ds.length off) }) ∧
    (ds.length = n.toNat → R ≠ [] →
      exec (.epParse P) s = .next { s with report := .raised (.errDsTrailing R.length) })

/-- R217: a payload of exactly 10 bytes with DS_COUNT 0 parses, for EP.PARSE and EP.DECODE alike, to an envelope without
datasets whose other fields are those of the header (the table of R200). -/
def Obligations.EmptyDatasetListParses : Prop :=
  ∀ (s : State) (a0 a1 a2 b0 b1 b2 flags type number : Byte), s.ready = true →
    let P : Bytes := [a0, a1, a2, b0, b1, b2, flags, type, number, 0x00]
    let env : Envelope :=
      { src := ⟨a0, a1, a2⟩
        dst := ⟨b0, b1, b2⟩
        info := flags.extractLsb' 7 1
        version := flags.extractLsb' 5 2
        retry := flags.extractLsb' 3 2
        flagsRsvd := flags.extractLsb' 0 3
        packetType := type.extractLsb' 4 4
        payloadType := type.extractLsb' 0 4
        packetNumber := number
        dsCount := 0
        datasets := [] }
    exec (.epParse P) s = .next { s with report := .ok (.envelope env) } ∧
    exec (.epDecode P) s = .next { s with report := .ok (.envelope env) }

/-- R211: EP.DECODE of the payload of an envelope that EP.BUILD accepts returns the envelope with every dataset extended
by the message and status that WC.DECODE returns for its id and value; and where EP.PARSE raises a cause, EP.DECODE
raises it too. -/
def Obligations.DecodeIsParseThenCodec : Prop :=
  (∀ (s : State) (env : Envelope), s.ready = true → Buildable env →
    ∃ (P : Bytes) (rs : List (Message × DecStatus)),
      exec (.epBuild env) s = .next { s with report := .ok (.bytes P) } ∧
      List.Forall₂ (fun d r => exec (.wcDecode d.id d.raw) s = .next (withMessage s r)) env.datasets rs ∧
      exec (.epDecode P) s = .next { s with report := .ok (.envelope
        { env with
          dsCount := BitVec.ofNat 8 env.datasets.length
          datasets := List.zipWith (fun d r => { d with decoded := some r }) env.datasets rs }) }) ∧
  ∀ (s : State) (P : Bytes) (c : Cause), s.ready = true →
    exec (.epParse P) s = .next { s with report := .raised c } →
    exec (.epDecode P) s = .next { s with report := .raised c }

/-- R213 to R215: EP.FILTER, select code 0x31, answers the verdict of the table, with the destination as owner for a local
source and the source for any other. -/
def Obligations.FilterFollowsTheTable : Prop :=
  (∀ env : Envelope, decode ⟨.op, [0x31], .envelope env⟩ = .ok (.epFilter env)) ∧
  ∀ (s : State) (env : Envelope), s.ready = true →
    exec (.epFilter env) s = .next { s with report := .ok (.verdict
      (verdictTable s.cfg env.packetType env.payloadType env.src env.dst)) }

/-- R77, R213: of the packet types only NORMAL lets a packet through, and then the table decides. That a packet type is an
instruction of its own, with these operands, is the model's choice (log entry 3). -/
def Obligations.PacketTypeRowsFollowTheTable : Prop :=
  ∀ (s : State) (d : BitVec 4) (src dst : Address), s.ready = true →
    (∀ i ∈ [Instr.ptStandby d src dst, .ptGathering d src dst, .ptInstall d src dst, .ptDownload d src dst],
      exec i s = .next { s with report := .ok (.verdict .drop) }) ∧
    exec (.ptNormal d src dst) s = .next { s with report := .ok (.verdict (verdictTable s.cfg 1 d src dst)) }

/-- R78, R214: the eight payload types on packet type `p`: UNDEFINED, READ, ACK and NACK are dropped, WRITE passes both
ways, REQUEST from the local address only, NOTIFICATION and RESPONSE from any other only; all only on NORMAL. That a
payload type is an instruction of its own, with these operands, is the model's choice (log entry 3). -/
def Obligations.PayloadTypeRowsFollowTheTable : Prop :=
  ∀ (s : State) (p : BitVec 4) (src dst : Address), s.ready = true →
    let atHome : Bool := decide (src = s.cfg.localAddr)
    let out (pass : Bool) : State := { s with report := .ok (.verdict
      (if p = 1 ∧ pass = true then .forward (if atHome then dst else src) else .drop)) }
    (∀ i ∈ [Instr.dtUndefined p src dst, .dtRead p src dst, .dtAck p src dst, .dtNack p src dst],
      exec i s = .next (out false)) ∧
    exec (.dtWrite p src dst) s = .next (out true) ∧
    exec (.dtRequest p src dst) s = .next (out atHome) ∧
    exec (.dtNotification p src dst) s = .next (out (!atHome)) ∧
    exec (.dtResponse p src dst) s = .next (out (!atHome))

/-- R80, R81, R204 to R206: the width-kind rows at a walk position. Kinds 0, 1 and 2 take 1, 2 and 4 value bytes or raise
ERR_DS_COUNT(underrun); kind 3 takes the rest of the payload, or raises ERR_STRUCT_MIXED unless DS_COUNT is 1. That a
width-kind is an instruction of its own, with these operands, is the model's choice (log entry 3). -/
def Obligations.WidthKindRowsTakeTheirValue : Prop :=
  ∀ (s : State) (hi : BitVec 5) (lo : BitVec 9) (pos : WalkPos) (rest : Bytes), s.ready = true →
    (∀ x ∈ [(Instr.dsK0 hi lo pos rest, (0 : BitVec 2), 1), (.dsK1 hi lo pos rest, 1, 2), (.dsK2 hi lo pos rest, 2, 4)],
      (∀ V R : Bytes, rest = V ++ R → V.length = x.2.2 →
        exec x.1 s = .next { s with report := .ok (.dataset
          ⟨hi ++ x.2.1 ++ lo, x.2.1, V, none⟩ (pos.offset + 2 + x.2.2)) }) ∧
      (rest.length < x.2.2 →
        exec x.1 s = .next { s with report := .raised (.errDsUnderrun pos.index pos.offset) })) ∧
    (pos.count = 1 → exec (.dsK3 hi lo pos rest) s = .next { s with report := .ok (.dataset
      ⟨hi ++ (3 : BitVec 2) ++ lo, 3, rest, none⟩ (pos.offset + 2 + rest.length)) }) ∧
    (pos.count ≠ 1 → exec (.dsK3 hi lo pos rest) s =
      .next { s with report := .raised (.errStructMixed pos.index pos.offset) })

/-! ### The wire codec, decode (spec/41_wire_codec.md) -/

/-- R124, R125: a value whose length is not the descriptor's width gives the declared default with DEFAULTED, or RAW of
the bytes with ERROR, in each of the eight sized arms. -/
def Obligations.WidthMismatchTakesDefaultOrRaw : Prop :=
  ∀ (s : State) (d : DescBody) (B : Bytes) (w : Nat), s.ready = true → d.width = some w → B.length ≠ w →
    ∀ i ∈ [Instr.decBool d B, .decEnum d B, .decInt d B, .decFloat d B, .decTemp d B, .decPower d B, .decEnergy d B,
        .decCurrent d B],
      exec i s = .next (withMessage s (failedDecode d B))

/-- R126: BOOL of the right width: 0 is false, 1 is true, 2 and above true or, in strict mode, a failure. -/
def Obligations.DecodeBoolByValue : Prop :=
  ∀ (s : State) (d : DescBody) (B : Bytes), s.ready = true → d.width = some B.length →
    (bigEndian B = 0 → exec (.decBool d B) s = .next (withMessage s (.bool false, .ok))) ∧
    (bigEndian B = 1 → exec (.decBool d B) s = .next (withMessage s (.bool true, .ok))) ∧
    (2 ≤ bigEndian B → s.cfg.boolNonzeroTrue = true →
      exec (.decBool d B) s = .next (withMessage s (.bool true, .ok))) ∧
    (2 ≤ bigEndian B → s.cfg.boolNonzeroTrue = false →
      exec (.decBool d B) s = .next (withMessage s (failedDecode d B)))

/-- R127: ENUM of the right width decodes exactly the codes of its set. -/
def Obligations.DecodeEnumIsClosed : Prop :=
  ∀ (s : State) (d : DescBody) (members : List (Nat × String)) (B : Bytes), s.ready = true →
    d.width = some B.length → d.enumSet = some members →
    (bigEndian B ∈ members.map Prod.fst →
      exec (.decEnum d B) s = .next (withMessage s (.enum (bigEndian B), .ok))) ∧
    (bigEndian B ∉ members.map Prod.fst → exec (.decEnum d B) s = .next (withMessage s (failedDecode d B)))

/-- R128: INT of the right width decodes to the wire integer, two's complement if signed. -/
def Obligations.DecodeIntReadsTheWireInteger : Prop :=
  ∀ (s : State) (d : DescBody) (sg : Bool) (B : Bytes), s.ready = true → B ≠ [] →
    d.width = some B.length → d.signed = some sg →
    ∃ p : Int, IsWireInt sg B p ∧ exec (.decInt d B) s = .next (withMessage s (.int p, .ok))

/-- R129 to R133: the five scaled arms decode to the wire integer times the arithmetic, exactly, each under its own tag. -/
def Obligations.DecodeScaledIsExact : Prop :=
  ∀ (s : State) (d : DescBody) (sg : Bool) (a : Rat) (B : Bytes), s.ready = true → B ≠ [] →
    d.width = some B.length → d.signed = some sg → d.arithmetic = some a →
    ∃ p : Int, IsWireInt sg B p ∧
      exec (.decFloat d B) s = .next (withMessage s (.float (p * a), .ok)) ∧
      exec (.decTemp d B) s = .next (withMessage s (.temp (p * a), .ok)) ∧
      exec (.decPower d B) s = .next (withMessage s (.power (p * a), .ok)) ∧
      exec (.decEnergy d B) s = .next (withMessage s (.energy (p * a), .ok)) ∧
      exec (.decCurrent d B) s = .next (withMessage s (.current (p * a), .ok))

/-- R134, R135: RAW and STRING keep the octets, whatever their number, and never fail. -/
def Obligations.DecodeRawAndStringKeepOctets : Prop :=
  ∀ (s : State) (d : DescBody) (B : Bytes), s.ready = true →
    exec (.decRaw d B) s = .next (withMessage s (.raw B, .ok)) ∧
    exec (.decString d B) s = .next (withMessage s (.string B, .ok))

/-- R136: STRUCT of a TLV layout decodes to its entries in order, each with what WC.DECODE returns for it; a value that is
no TLV layout fails as a whole. -/
def Obligations.DecodeStructWalksTheLayout : Prop :=
  ∀ (s : State) (d : DescBody), s.ready = true →
    (∀ es : List (MsgId × Bytes), (∀ e ∈ es, e.2.length ≤ 253) →
      ∃ E : Entries,
        List.Forall₂ (fun e x => x.1 = e.1 ∧ exec (.wcDecode e.1 e.2) s = .next (withMessage s x.2)) es
          (entriesToList E) ∧
        exec (.decStruct d (tlvLayout es)) s = .next (withMessage s (.struct E, .ok))) ∧
    ∀ B : Bytes, (¬ ∃ es : List (MsgId × Bytes), (∀ e ∈ es, e.2.length ≤ 253) ∧ B = tlvLayout es) →
      exec (.decStruct d B) s = .next (withMessage s (failedDecode d B))

/-- R123: WC.DECODE always returns a message and changes nothing else; an id without descriptor gives RAW with
UNKNOWN_ID, and with a descriptor it is the arm that the type tag selects. -/
def Obligations.WcDecodeSelectsTheArm : Prop :=
  ∀ (s : State) (id : MsgId) (B : Bytes), s.ready = true →
    (∃ r : Message × DecStatus, exec (.wcDecode id B) s = .next (withMessage s r)) ∧
    (lookupDesc s.descTable id = none → exec (.wcDecode id B) s = .next (withMessage s (.raw B, .unknownId))) ∧
    ∀ d : Descriptor, lookupDesc s.descTable id = some d →
      ∀ x ∈ [((0 : Byte), Instr.decRaw d.body B), (1, .decBool d.body B), (2, .decEnum d.body B),
          (3, .decInt d.body B), (4, .decFloat d.body B), (5, .decTemp d.body B), (6, .decPower d.body B),
          (7, .decEnergy d.body B), (8, .decCurrent d.body B), (9, .decString d.body B), (10, .decStruct d.body B)],
        d.tag = x.1 → exec (.wcDecode id B) s = exec x.2 s

/-! ### The wire codec, encode (spec/41_wire_codec.md) -/

/-- R141, R142: BOOL encodes to 0 or 1 at the descriptor's width; ENUM encodes a member's code at the width and rejects any
other code with ENC_RANGE. -/
def Obligations.EncodeBoolAndEnum : Prop :=
  ∀ (s : State) (id : MsgId) (d : DescBody) (w : Nat), s.ready = true → d.width = some w →
    (∀ b : Bool, 0 < w → ∃ B : Bytes, B.length = w ∧ bigEndian B = (if b then 1 else 0) ∧
      exec (.encBool id d (.bool b)) s = .next { s with report := .ok (.bytes B) }) ∧
    ∀ (members : List (Nat × String)) (c : Nat), d.enumSet = some members →
      (c ∈ members.map Prod.fst → c < 2 ^ (8 * w) → ∃ B : Bytes, B.length = w ∧ bigEndian B = c ∧
        exec (.encEnum id d (.enum c)) s = .next { s with report := .ok (.bytes B) }) ∧
      (c ∉ members.map Prod.fst →
        exec (.encEnum id d (.enum c)) s = .next { s with report := .raised (.encRange id) })

/-- R143, R152: INT in range encodes to the bytes of the width whose wire integer it is; out of range it raises ENC_RANGE. -/
def Obligations.EncodeIntChecksTheRange : Prop :=
  ∀ (s : State) (id : MsgId) (d : DescBody) (w : Nat) (sg : Bool) (z : Int), s.ready = true → 0 < w →
    d.width = some w → d.signed = some sg →
    (FitsWidth w sg z → ∃ B : Bytes, B.length = w ∧ IsWireInt sg B z ∧
      exec (.encInt id d (.int z)) s = .next { s with report := .ok (.bytes B) }) ∧
    (¬ FitsWidth w sg z → exec (.encInt id d (.int z)) s = .next { s with report := .raised (.encRange id) })

/-- R144 to R148, R152: under a legal `ROUND` the five scaled arms round `value / arithmetic` to a nearest integer, on a tie
the one that `ROUND` takes (the even one, under the default rule), and encode it, or raise ENC_RANGE where it is out of
range; a value at the resolution, an integer in range times the arithmetic, encodes to the bytes of that integer. How a
`ROUND` is given as data is the model's choice (log entry 6). -/
def Obligations.EncodeScaledRoundsToNearest : Prop :=
  ∀ (s : State) (id : MsgId) (d : DescBody) (w : Nat) (sg : Bool) (a : Rat), s.ready = true →
    LegalRound s.cfg.round → 0 < w → 0 < a →
    d.width = some w → d.signed = some sg → d.arithmetic = some a →
    (∀ q : Rat, ∃ p : Int, IsRounded s.cfg.round (q / a) p ∧
      ∀ i ∈ [Instr.encFloat id d (.float q), .encTemp id d (.temp q), .encPower id d (.power q),
          .encEnergy id d (.energy q), .encCurrent id d (.current q)],
        (FitsWidth w sg p → ∃ B : Bytes, B.length = w ∧ IsWireInt sg B p ∧
          exec i s = .next { s with report := .ok (.bytes B) }) ∧
        (¬ FitsWidth w sg p → exec i s = .next { s with report := .raised (.encRange id) })) ∧
    ∀ p : Int, FitsWidth w sg p → ∃ B : Bytes, B.length = w ∧ IsWireInt sg B p ∧
      ∀ i ∈ [Instr.encFloat id d (.float (p * a)), .encTemp id d (.temp (p * a)), .encPower id d (.power (p * a)),
          .encEnergy id d (.energy (p * a)), .encCurrent id d (.current (p * a))],
        exec i s = .next { s with report := .ok (.bytes B) }

/-- R149, R150: RAW and STRING encode to their octets and never reject. -/
def Obligations.EncodeRawAndStringKeepOctets : Prop :=
  ∀ (s : State) (id : MsgId) (d : DescBody) (B : Bytes), s.ready = true →
    exec (.encRaw id d (.raw B)) s = .next { s with report := .ok (.bytes B) } ∧
    exec (.encString id d (.string B)) s = .next { s with report := .ok (.bytes B) }

/-- R151: STRUCT encodes its entries in order, each as the TLV entry of what WC.ENCODE returns for it; the first entry that
WC.ENCODE rejects gives its cause, and one longer than 253 bytes ENC_RANGE (with the structure's own id: log entry 8). In
particular RAW entries of at most 253 bytes under ids without descriptor encode to their layout. -/
def Obligations.EncodeStructLaysOutTheEntries : Prop :=
  (∀ (s : State) (id : MsgId) (d : DescBody) (es : List (MsgId × Bytes)), s.ready = true →
    (∀ e ∈ es, lookupDesc s.descTable e.1 = none ∧ e.2.length ≤ 253) →
    exec (.encStruct id d (.struct (entriesOfList (es.map fun e => (e.1, .raw e.2, .ok))))) s =
      .next { s with report := .ok (.bytes (tlvLayout es)) }) ∧
  ∀ (s : State) (id : MsgId) (d : DescBody) (done : List (MsgId × Message × DecStatus)) (es : List (MsgId × Bytes)),
    s.ready = true →
    List.Forall₂ (fun x e => x.1 = e.1 ∧ e.2.length ≤ 253 ∧
      exec (.wcEncode x.1 x.2.1) s = .next { s with report := .ok (.bytes e.2) }) done es →
    exec (.encStruct id d (.struct (entriesOfList done))) s = .next { s with report := .ok (.bytes (tlvLayout es)) } ∧
    ∀ (x : MsgId × Message × DecStatus) (more : List (MsgId × Message × DecStatus)),
      (∀ c : Cause, exec (.wcEncode x.1 x.2.1) s = .next { s with report := .raised c } →
        exec (.encStruct id d (.struct (entriesOfList (done ++ x :: more)))) s =
          .next { s with report := .raised c }) ∧
      (∀ V : Bytes, exec (.wcEncode x.1 x.2.1) s = .next { s with report := .ok (.bytes V) } → 253 < V.length →
        exec (.encStruct id d (.struct (entriesOfList (done ++ x :: more)))) s =
          .next { s with report := .raised (.encRange id) })

/-- R140: an ENC row offered a message of another variant raises ENC_TYPE. -/
def Obligations.EncodeRejectsTheWrongVariant : Prop :=
  ∀ (s : State) (id : MsgId) (d : DescBody) (m : Message), s.ready = true →
    ∀ x ∈ [(DescType.raw, Instr.encRaw id d m), (.bool, .encBool id d m), (.enum, .encEnum id d m),
        (.int, .encInt id d m), (.float, .encFloat id d m), (.temp, .encTemp id d m), (.power, .encPower id d m),
        (.energy, .encEnergy id d m), (.current, .encCurrent id d m), (.string, .encString id d m),
        (.struct, .encStruct id d m)],
      messageType m ≠ x.1 → exec x.2 s = .next { s with report := .raised (.encType id) }

/-- R140: WC.ENCODE without a descriptor passes RAW through and rejects any other message with ENC_UNKNOWN_ID; with one it
is the arm that the type tag selects. -/
def Obligations.WcEncodeSelectsTheArm : Prop :=
  ∀ (s : State) (id : MsgId) (m : Message), s.ready = true →
    (lookupDesc s.descTable id = none →
      (∀ B : Bytes, m = .raw B → exec (.wcEncode id m) s = .next { s with report := .ok (.bytes B) }) ∧
      ((∀ B : Bytes, m ≠ .raw B) →
        exec (.wcEncode id m) s = .next { s with report := .raised (.encUnknownId id) })) ∧
    ∀ d : Descriptor, lookupDesc s.descTable id = some d →
      ∀ x ∈ [((0 : Byte), Instr.encRaw id d.body m), (1, .encBool id d.body m), (2, .encEnum id d.body m),
          (3, .encInt id d.body m), (4, .encFloat id d.body m), (5, .encTemp id d.body m), (6, .encPower id d.body m),
          (7, .encEnergy id d.body m), (8, .encCurrent id d.body m), (9, .encString id d.body m),
          (10, .encStruct id d.body m)],
        d.tag = x.1 → exec (.wcEncode id m) s = exec x.2 s

/-- R153: with a well-formed table, the bytes WC.ENCODE returns for a message under an id with a descriptor decode to that
message, status OK, but for scaled values, which come back at the descriptor's resolution. -/
def Obligations.DecodeInvertsEncode : Prop :=
  ∀ (s : State) (id : MsgId) (m : Message) (B : Bytes), s.ready = true →
    tableLegal s.cfg s.descTable = true → (lookupDesc s.descTable id).isSome = true →
    exec (.wcEncode id m) s = .next { s with report := .ok (.bytes B) } →
    exec (.wcDecode id B) s = .next (withMessage s (returned s.cfg s.descTable m id, .ok))

/-- R153, the other direction: with a legal `ROUND` and a well-formed table, a value that decodes with status OK under a
descriptor of a sized type encodes back to the same bytes, but for BOOL bytes of value 2 or more. -/
def Obligations.EncodeInvertsDecode : Prop :=
  ∀ (s : State) (id : MsgId) (d : Descriptor) (B : Bytes) (m : Message), s.ready = true →
    LegalRound s.cfg.round → tableLegal s.cfg s.descTable = true → lookupDesc s.descTable id = some d →
    d.body.width.isSome = true →
    exec (.wcDecode id B) s = .next (withMessage s (m, .ok)) →
    (∀ b : Bool, m = .bool b → bigEndian B < 2) →
    exec (.wcEncode id m) s = .next { s with report := .ok (.bytes B) }

/-! ### System operations, causes, the whole machine -/

/-- R240: SYS.RESET with legal operands empties `RXBUF`, seeds `CRC_ACC`, installs the configuration with its defaults and
the table, and makes the block ready, from any state; the commands still issued stay in the model's own `inbox` (log entry
1). Part of what makes a table legal is the model's choice or reading (log entries 10, 16 and 18). -/
def Obligations.ResetInstallsTheConfiguration : Prop :=
  ∀ (s : State) (bound : Nat) (home : Address) (cap slack window : Option Nat) (lenient : Option Bool)
    (round : Option RoundRule) (tab : DescTable),
    let cfg : Cfg := ⟨bound, cap.getD 4096, slack.getD 512, window.getD 32, home, lenient.getD true,
      round.getD ⟨[], .nearest .halfToEven⟩⟩
    LegalCfg cfg → tableLegal cfg tab = true →
    exec (.sysReset ⟨some bound, some home, cap, slack, window, lenient, round⟩ (some tab)) s =
      .next ⟨true, [], 0x0000, cfg, tab, .ok .none, s.inbox⟩

/-- R240, R255: SYS.RESET with an illegal operand, or without one that must be given, raises BAD_CONFIG naming one that is
illegal or missing, leaves the block not ready, and changes nothing else. A `ROUND` that is somewhere further than 1/2
from its argument is illegal (R144). The model's choices and readings in this: that a missing operand is an ill-formed
argument (D30: log entry 19); and, in what makes a table illegal, a repeated key (log entry 10), what an encodable default
is (log entry 16), and a `signed` flag on a descriptor of a type that does not use it (log entry 18). -/
def Obligations.IllegalResetLeavesTheBlockNotReady : Prop :=
  ∀ (s : State) (a : ResetArgs) (tab : Option DescTable),
    ¬ (a.maxBufferSize.isSome = true ∧ a.localAddr.isSome = true ∧ LegalCfg (cfgOf a) ∧
      ∃ t, tab = some t ∧ tableLegal (cfgOf a) t = true) →
    ∃ f : CfgField,
      (f = .maxBufferSize → ∀ n, a.maxBufferSize = some n → n < 6) ∧
      (f = .lenCap → ∃ n, a.lenCap = some n ∧ (n < 6 ∨ 65537 < n)) ∧
      (f = .localAddr → a.localAddr = none) ∧
      (f = .round → ∃ r, a.round = some r ∧ ¬ LegalRound r) ∧
      (f = .descTable → ∀ t, tab = some t → tableLegal (cfgOf a) t = false) ∧
      exec (.sysReset a tab) s = .next { s with ready := false, report := .raised (.badConfig f) }

/-- R240: before a successful SYS.RESET every other operation is rejected with NOT_READY and changes nothing else. That the
same holds of the 41 instructions that are no operation of R90 is the model's choice (log entry 3). -/
def Obligations.NotReadyRejectsEveryOtherOperation : Prop :=
  ∀ (s : State) (i : Instr), s.ready = false → isReset i = false →
    exec i s = .next { s with report := .raised .notReady }

/-- R90, R260: a select code outside the fourteen is BAD_OP with no state change, and NOT_READY while the block is not
ready; so is any other operation then, whatever its operands. That a step takes the command from an inbox is the model's
choice (log entry 1). -/
def Obligations.UnlistedSelectCodeIsBadOp : Prop :=
  ∀ (s : State) (op : Byte) (B : Bytes) (a : Arg) (rest : List Command),
    s.inbox = ⟨.op, op :: B, a⟩ :: rest →
    (op ∉ ([0x00, 0x02, 0x10, 0x11, 0x12, 0x13, 0x20, 0x30, 0x31, 0x32, 0x40, 0x41, 0x50, 0x51] : List Byte) →
      s.ready = true → step s = .next { s with inbox := rest, report := .raised (.badOp op) }) ∧
    (op ≠ 0x00 → s.ready = false → step s = .next { s with inbox := rest, report := .raised .notReady })

/-- R241: FA.FLUSH, select code 0x02, empties `RXBUF` and nothing else, with no result; a FA.PUSH of nothing then stops at
once on the empty buffer. -/
def Obligations.FlushEmptiesTheReceiveBuffer : Prop :=
  decode ⟨.op, [0x02], .none⟩ = .ok .faFlush ∧
  ∀ s : State, s.ready = true →
    exec .faFlush s = .next { s with rxbuf := [], report := .ok .none } ∧
    execAll [.faFlush, .faPush []] s = .next { s with rxbuf := [], report := .ok (.events [.stopEmpty]) }

/-- R242, R20, R23: no operation but SYS.RESET writes the configuration, the table or readiness; only FA.PUSH, FA.FLUSH and
SYS.RESET write `RXBUF`; only CRC.INIT, CRC.BYTE and SYS.RESET write `CRC_ACC`. The model's choices in this: that STX and
ETX write `RXBUF` as pushes of their own byte, and that the other rows which are no operation write nothing (log entry
3); and that none touches the commands issued, which stand in the model's own `inbox` (log entry 1). -/
def Obligations.EachFieldHasItsWriters : Prop :=
  ∀ (s t : State) (i : Instr), exec i s = .next t →
    t.inbox = s.inbox ∧
    (isReset i = false → t.cfg = s.cfg ∧ t.descTable = s.descTable ∧ t.ready = s.ready) ∧
    (writesRxbuf i = false → t.rxbuf = s.rxbuf) ∧
    (writesCrc i = false → t.crcAcc = s.crcAcc)

/-- R261, R255: the state after a cause is the state before the operation, and after a failed SYS.RESET that state with the
block not ready. The cause is read in the model's own `report` (log entry 1), and that the rows which are no operation of
R90 raise causes in the same way is the model's choice (log entry 3). -/
def Obligations.CauseLeavesTheState : Prop :=
  ∀ (s t : State) (i : Instr) (c : Cause), exec i s = .next t → t.report = .raised c →
    (isReset i = false → t = { s with report := .raised c }) ∧
    (isReset i = true → t = { s with ready := false, report := .raised c })

/-- R154, R212, R27: the operations that keep nothing read only the configuration and the table: in two ready states that
agree on those, each gives the same report and changes nothing else. That the PT, DT, DS, DEC and ENC rows are
instructions of the same kind is the model's choice (log entry 3), and the report is the model's own field (log entry
1). -/
def Obligations.PureOperationsReadOnlyConfiguration : Prop :=
  ∀ (s t : State) (i : Instr), s.ready = true → t.ready = true → s.cfg = t.cfg → s.descTable = t.descTable →
    writesRxbuf i = false → writesCrc i = false → (∀ e : Word16, i ≠ .crcCheck e) →
    ∃ r : Report, exec i s = .next { s with report := r } ∧ exec i t = .next { t with report := r }

/-- R11: every operation ends in a next state, in every state: ok or with a cause, never a stop. That the rows which are no
operation of R90 are instructions that end so too is the model's choice (log entry 3). -/
def Obligations.EveryInstructionAnswersNext : Prop :=
  ∀ (s : State) (i : Instr), ∃ t : State, exec i s = .next t

/-- The model's own: a step takes the oldest command of the inbox; if it decodes to a well-formed instruction, the step is
that instruction in the state without the command; with no command issued nothing happens. That there is an inbox and a
step that takes from it is the model's choice (log entry 1), and so is that only a well-formed command runs (log entry
5); R6 and R60 (d) say that operations run one by one in the order of issue. -/
def Obligations.StepRunsTheDecodedInstruction : Prop :=
  (∀ (s : State) (c : Command) (rest : List Command) (i : Instr),
    s.inbox = c :: rest → decode c = .ok i → i.wf = true →
      step s = exec i { s with inbox := rest }) ∧
  (∀ s : State, s.inbox = [] → step s = .next s)

/-- R71, R77, R78, R82, R85, R90: decoding the encoded command of an instruction gives the instruction back. -/
def Obligations.DecodeInvertsTheEncoder : Prop :=
  ∀ i : Instr, decode (encode i) = .ok i

/-- One command of each place, its bytes written out, decodes to its row; R90, R71, R77, R78, R82 and R85 give the
selecting values. That a command names its place is the model's choice (log entry 3), and where the operand bytes stand
after the selecting ones is its reading (log entry 9). -/
def Obligations.WrittenOutCommandsDecode : Prop :=
  decode ⟨.op, [0x13, 0xF9, 0xEE], .none⟩ = .ok (.crcCheck 0xF9EE) ∧
  decode ⟨.op, [0x40, 0x42, 0x01, 0x00, 0xEB], .none⟩ = .ok (.wcDecode 0x4201 [0x00, 0xEB]) ∧
  decode ⟨.frame, [0x34], .none⟩ = .ok .etx ∧
  (∀ src dst : Address, decode ⟨.packetType, [0x15], .addresses src dst⟩ = .ok (.ptNormal 5 src dst)) ∧
  (∀ src dst : Address, decode ⟨.payloadType, [0x15], .addresses src dst⟩ = .ok (.dtResponse 1 src dst)) ∧
  (∀ pos : WalkPos, decode ⟨.dataset, [0x42, 0x01, 0x00, 0xEB], .walk pos⟩ = .ok (.dsK1 8 1 pos [0x00, 0xEB])) ∧
  (∀ d : DescBody, decode ⟨.decArm, [0x05, 0x00, 0xEB], .descriptor d⟩ = .ok (.decTemp d [0x00, 0xEB])) ∧
  (∀ (d : DescBody) (m : Message), decode ⟨.encArm, [0x0A, 0x06, 0x01], .encoding d m⟩ = .ok (.encStruct 0x0601 d m))

/-- D30, R240: no SYS.RESET command is refused. With `cfg` and table it is SYS.RESET of those; with operands of another
shape it raises BAD_CONFIG on an operand that must be given, leaves the block not ready, and changes nothing else. That
such a command is a SYS.RESET that gives no operand is the model's reading (log entry 19), and that a step takes it from
an inbox its choice (log entry 1). -/
def Obligations.ResetCommandAlwaysEndsInAnOutcome : Prop :=
  ∀ (s : State) (B : Bytes) (arg : Arg) (rest : List Command), s.inbox = ⟨.op, 0x00 :: B, arg⟩ :: rest →
    (∀ a tab, B = [] → arg = .reset a tab → step s = exec (.sysReset a tab) { s with inbox := rest }) ∧
    ((∀ a tab, B = [] → arg ≠ .reset a tab) →
      ∃ f ∈ ([.maxBufferSize, .localAddr, .descTable] : List CfgField),
        step s = .next { s with inbox := rest, ready := false, report := .raised (.badConfig f) })
end

