-- ==== Sys2Proof/Laws/Assembler.lean ====
section
/-! SUPPORT. Sys2Proof/Laws/Assembler.lean: the search for STX, what one pass of the drain loop can do, that a pass which
does not stop shortens the buffer, and that the bound of `drainFor` is never used up. -/

namespace Sys2Proof.Machine

/-! ### The search for STX -/

/-- No STX is found exactly when there is none. -/
theorem findStx_none {B : Bytes} : findStx B = none ↔ ∀ b ∈ B, b ≠ stxByte := by
  simp [findStx]

/-- The STX found splits the sequence at the first one. -/
theorem findStx_some {B : Bytes} {k : Nat} (h : findStx B = some k) :
    ∃ G R : Bytes, B = G ++ stxByte :: R ∧ G.length = k ∧ ∀ b ∈ G, b ≠ stxByte := by
  obtain ⟨hk, hb, hbefore⟩ := List.findIdx?_eq_some_iff_getElem.mp h
  refine ⟨B.take k, B.drop (k + 1), ?_, by simp; omega, ?_⟩
  · have hb' : B[k] = stxByte := by simpa using hb
    rw [← hb', ← List.drop_eq_getElem_cons hk, List.take_append_drop]
  · intro b hb
    obtain ⟨i, hi, rfl⟩ := List.getElem_of_mem hb
    have hi' : i < k := by simp at hi; omega
    simpa using hbefore i hi'

/-- The first STX after bytes that are none is found. -/
theorem findStx_append (G R : Bytes) (hG : ∀ b ∈ G, b ≠ stxByte) : findStx (G ++ stxByte :: R) = some G.length := by
  induction G with
  | nil => rfl
  | cons b G ih =>
    have hb : (b == stxByte) = false := by simpa using hG b (by simp)
    have := ih (fun x hx => hG x (by simp [hx]))
    simp only [findStx] at this ⊢
    rw [List.cons_append, List.findIdx?_cons, hb, this]
    rfl

/-! ### One pass -/

/-- All that steps 6 to 8 can answer. -/
theorem checkFrame_cases (es : List Event) (B : Bytes) (T : Nat) :
    (byteAt B (T - 1) ≠ etxByte ∧ checkFrame es B T = .again (es ++ [.dropEtx (byteAt B (T - 1))]) (B.drop 1)) ∨
    (byteAt B (T - 1) = etxByte ∧ crc16 (slice B 3 (T - 3)) ≠ word16At B (T - 3) ∧
      checkFrame es B T =
        .again (es ++ [.dropCrc (crc16 (slice B 3 (T - 3))) (word16At B (T - 3))]) (B.drop 1)) ∨
    (byteAt B (T - 1) = etxByte ∧ crc16 (slice B 3 (T - 3)) = word16At B (T - 3) ∧
      checkFrame es B T = .again (es ++ [.emit (slice B 3 (T - 3))]) (B.drop T)) := by
  by_cases he : byteAt B (T - 1) = etxByte
  · by_cases hc : crc16 (slice B 3 (T - 3)) = word16At B (T - 3)
    · exact .inr (.inr ⟨he, hc, by simp only [checkFrame, he, hc, ne_eq, not_true, if_false]⟩)
    · exact .inr (.inl ⟨he, hc, by simp only [checkFrame, he, hc, ne_eq, not_true, not_false_eq_true, if_true, if_false]⟩)
  · exact .inl ⟨he, by simp only [checkFrame, he, ne_eq, not_false_eq_true, if_true]⟩

/-- All that steps 3 to 8 can answer on a buffer that begins with STX. -/
theorem candidate_cases (cfg : Cfg) (es : List Event) (B : Bytes) :
    (B.length < 3 ∧ candidate cfg es B = .stop (es ++ [.waitHeader B.length]) B) ∨
    (3 ≤ B.length ∧ cfg.lenCap < totalLen B ∧
      candidate cfg es B = .again (es ++ [.dropLencap (totalLen B)]) (B.drop 1)) ∨
    (3 ≤ B.length ∧ totalLen B ≤ cfg.lenCap ∧ totalLen B < 6 ∧
      candidate cfg es B = .again (es ++ [.dropLenmin (totalLen B)]) (B.drop 1)) ∨
    (3 ≤ B.length ∧ totalLen B ≤ cfg.lenCap ∧ 6 ≤ totalLen B ∧ B.length < totalLen B ∧
      ∃ j, jumpTarget cfg B (totalLen B) = some j ∧ candidate cfg es B = .again (es ++ [.jumpStx j]) (B.drop j)) ∨
    (3 ≤ B.length ∧ totalLen B ≤ cfg.lenCap ∧ 6 ≤ totalLen B ∧ B.length < totalLen B ∧
      jumpTarget cfg B (totalLen B) = none ∧
      candidate cfg es B = .stop (es ++ [.waitBody B.length (totalLen B)]) B) ∨
    (3 ≤ B.length ∧ totalLen B ≤ cfg.lenCap ∧ 6 ≤ totalLen B ∧ totalLen B ≤ B.length ∧
      candidate cfg es B = checkFrame es B (totalLen B)) := by
  unfold candidate
  by_cases h3 : B.length < 3
  · exact .inl ⟨h3, by simp [h3]⟩
  by_cases hc : cfg.lenCap < totalLen B
  · exact .inr (.inl ⟨by omega, hc, by simp [h3, hc]⟩)
  by_cases hm : totalLen B < 6
  · exact .inr (.inr (.inl ⟨by omega, by omega, hm, by simp [h3, hc, hm, minTotal]⟩))
  by_cases hn : B.length < totalLen B
  · cases hj : jumpTarget cfg B (totalLen B) with
    | some j =>
      exact .inr (.inr (.inr (.inl ⟨by omega, by omega, by omega, hn, j, rfl, by simp [h3, hc, hm, hn, hj, minTotal]⟩)))
    | none =>
      exact .inr (.inr (.inr (.inr (.inl
        ⟨by omega, by omega, by omega, hn, rfl, by simp [h3, hc, hm, hn, hj, minTotal]⟩))))
  · exact .inr (.inr (.inr (.inr (.inr
      ⟨by omega, by omega, by omega, by omega, by simp [h3, hc, hm, hn, minTotal]⟩))))

/-- A jump goes to a STX at an offset from 1 to the window, and only where more than `JUMP_SLACK` bytes are missing. -/
theorem jumpTarget_some {cfg : Cfg} {B : Bytes} {T j : Nat} (h : jumpTarget cfg B T = some j) :
    cfg.jumpSlack < T - B.length ∧
      ∃ G R : Bytes, (B.drop 1).take cfg.jumpWindow = G ++ stxByte :: R ∧ j = G.length + 1 ∧ ∀ b ∈ G, b ≠ stxByte := by
  unfold jumpTarget at h
  split at h
  · cases hf : findStx ((B.drop 1).take cfg.jumpWindow) with
    | none => rw [hf] at h; cases h
    | some k =>
      obtain ⟨G, R, h1, h2, h3⟩ := findStx_some hf
      rw [hf] at h
      cases h
      exact ⟨‹_›, G, R, h1, by omega, h3⟩
  · cases h

/-- A resync from a candidate shortens the buffer (R186). -/
theorem candidate_again {cfg : Cfg} {es es' : List Event} {B B' : Bytes} (h : candidate cfg es B = .again es' B') :
    B'.length < B.length := by
  obtain ⟨_, e⟩ | ⟨h3, _, e⟩ | ⟨h3, _, _, e⟩ | ⟨h3, _, _, _, j, hj, e⟩ | ⟨_, _, _, _, _, e⟩ | ⟨h3, _, h6, _, e⟩ :=
    candidate_cases cfg es B
  · simp [e] at h
  · rw [e] at h; cases h; rw [List.length_drop]; omega
  · rw [e] at h; cases h; rw [List.length_drop]; omega
  · obtain ⟨_, G, R, _, hj', _⟩ := jumpTarget_some hj
    rw [e] at h; cases h; rw [List.length_drop]; omega
  · simp [e] at h
  · rw [e] at h
    obtain ⟨_, c⟩ | ⟨_, _, c⟩ | ⟨_, _, c⟩ := checkFrame_cases es B (totalLen B)
    all_goals rw [c] at h; cases h; rw [List.length_drop]; omega

/-- All that a pass can do, from step 1. -/
theorem drainPass_cases (cfg : Cfg) (B : Bytes) :
    (B = [] ∧ drainPass cfg B = .stop [.stopEmpty] []) ∨
    (B ≠ [] ∧ (∀ b ∈ B, b ≠ stxByte) ∧ drainPass cfg B = .stop [.clearNostx B.length] []) ∨
    (∃ R, B = stxByte :: R ∧ drainPass cfg B = candidate cfg [] B) ∨
    (∃ G R, G ≠ [] ∧ (∀ b ∈ G, b ≠ stxByte) ∧ B = G ++ stxByte :: R ∧
      drainPass cfg B = candidate cfg [.discardPrefix G.length] (stxByte :: R)) := by
  unfold drainPass
  cases B with
  | nil => exact .inl ⟨rfl, rfl⟩
  | cons b B =>
    cases hf : findStx (b :: B) with
    | none => exact .inr (.inl ⟨by simp, findStx_none.mp hf, by simp⟩)
    | some k =>
      obtain ⟨G, R, h1, h2, h3⟩ := findStx_some hf
      cases k with
      | zero =>
        obtain rfl := List.length_eq_zero_iff.mp h2
        exact .inr (.inr (.inl ⟨R, by simpa using h1, by simp⟩))
      | succ k =>
        refine .inr (.inr (.inr ⟨G, R, by rintro rfl; simp at h2, h3, h1, ?_⟩))
        have hd : (b :: B).drop (k + 1) = stxByte :: R := by rw [h1, ← h2, List.drop_left]
        simp only [List.isEmpty_cons, Bool.false_eq_true, if_false, hd]
        rw [h2]

/-- A buffer that begins with STX is a candidate at once. -/
theorem drainPass_stx (cfg : Cfg) (R : Bytes) : drainPass cfg (stxByte :: R) = candidate cfg [] (stxByte :: R) := by
  simp [drainPass, findStx, List.findIdx?_cons]

/-- Bytes before the first STX are discarded and named (R176). -/
theorem drainPass_garbage (cfg : Cfg) {G : Bytes} (R : Bytes) (hG : G ≠ []) (hn : ∀ b ∈ G, b ≠ stxByte) :
    drainPass cfg (G ++ stxByte :: R) = candidate cfg [.discardPrefix G.length] (stxByte :: R) := by
  obtain ⟨k, hk⟩ : ∃ k, G.length = k + 1 := ⟨G.length - 1, by have := List.length_pos_of_ne_nil hG; omega⟩
  have hd : (G ++ stxByte :: R).drop (k + 1) = stxByte :: R := by rw [← hk, List.drop_left]
  have he : (G ++ stxByte :: R).isEmpty = false := by simp
  simp only [drainPass, he, findStx_append G R hn, hk, hd, Bool.false_eq_true, if_false]

/-- The events of a pass are put after those already there. -/
theorem candidate_prefix (cfg : Cfg) (p : List Event) (B : Bytes) :
    candidate cfg p B =
      match candidate cfg [] B with
      | .stop es B' => .stop (p ++ es) B'
      | .again es B' => .again (p ++ es) B' := by
  unfold candidate checkFrame
  simp only [List.nil_append]
  split_ifs <;> first | rfl | (split <;> rfl)

/-- A pass that does not stop shortens the buffer (R186). -/
theorem drainPass_again {cfg : Cfg} {B B' : Bytes} {es : List Event} (h : drainPass cfg B = .again es B') :
    B'.length < B.length := by
  obtain ⟨_, e⟩ | ⟨_, _, e⟩ | ⟨R, _, e⟩ | ⟨G, R, _, _, hB, e⟩ := drainPass_cases cfg B
  · simp [e] at h
  · simp [e] at h
  · exact candidate_again (e ▸ h)
  · have := candidate_again (e ▸ h)
    rw [hB, List.length_append]
    omega

/-! ### The loop -/

/-- A bound above the buffer's length is never used up (R186): every such bound gives the same. -/
theorem drain_bound (cfg : Cfg) (n m : Nat) (B : Bytes) (hn : B.length < n) (hm : B.length < m) :
    drainFor n cfg B = drainFor m cfg B := by
  induction n generalizing m B with
  | zero => omega
  | succ n ih =>
    cases m with
    | zero => omega
    | succ m =>
      simp only [drainFor]
      cases hp : drainPass cfg B with
      | stop es B' => rfl
      | again es B' =>
        have := drainPass_again hp
        simp only
        rw [ih m B' (by omega) (by omega)]

/-- A pass that stops ends the loop. -/
theorem drain_stop {cfg : Cfg} {B B' : Bytes} {es : List Event} (h : drainPass cfg B = .stop es B') :
    drain cfg B = (es, B') := by
  simp [drain, drainFor, h]

/-- A pass that does not stop goes to step 1 with the buffer it leaves. -/
theorem drain_again {cfg : Cfg} {B B' : Bytes} {es : List Event} (h : drainPass cfg B = .again es B') :
    drain cfg B = (es ++ (drain cfg B').1, (drain cfg B').2) := by
  have := drainPass_again h
  rw [drain, drainFor, h]
  simp only [drain_bound cfg B.length (B'.length + 1) B' this (by omega), drain]

/-- Garbage before a STX adds its event and nothing else (R176). -/
theorem drain_garbage (cfg : Cfg) {G : Bytes} (R : Bytes) (hG : G ≠ []) (hn : ∀ b ∈ G, b ≠ stxByte) :
    drain cfg (G ++ stxByte :: R) =
      (.discardPrefix G.length :: (drain cfg (stxByte :: R)).1, (drain cfg (stxByte :: R)).2) := by
  have h1 := drainPass_garbage cfg R hG hn
  have h2 := drainPass_stx cfg R
  rw [candidate_prefix] at h1
  cases hc : candidate cfg [] (stxByte :: R) with
  | stop es B' =>
    rw [hc] at h1 h2
    rw [drain_stop h1, drain_stop h2]
    rfl
  | again es B' =>
    rw [hc] at h1 h2
    rw [drain_again h1, drain_again h2]
    rfl

/-- A push over the bound empties the buffer (R256). -/
theorem pushResult_overflow {cfg : Cfg} {B : Bytes} (h : cfg.maxBufferSize < B.length) :
    pushResult cfg B = ([.overflow B.length], []) := by
  simp [pushResult, h]

/-- A push within the bound drains. -/
theorem pushResult_drain {cfg : Cfg} {B : Bytes} (h : B.length ≤ cfg.maxBufferSize) :
    pushResult cfg B = drain cfg B := by
  simp [pushResult, Nat.not_lt.mpr h]

/-- All that pushing bytes changes: `RXBUF` and the report. -/
theorem pushBytes_eq (s : State) (data : Bytes) :
    pushBytes s data =
      { s with
        rxbuf := (pushResult s.cfg (s.rxbuf ++ data)).2
        report := .ok (.events (pushResult s.cfg (s.rxbuf ++ data)).1) } := rfl

end Sys2Proof.Machine
end

