-- ==== Sys2Proof/Laws/Bytes.lean ====
section
/-! SUPPORT. Sys2Proof/Laws/Bytes.lean: what the readings and writings of numbers do. -/

namespace Sys2Proof.Machine

/-! ### BEU and BYTES -/

@[simp] theorem beu_nil : beu [] = 0 := rfl

/-- The last byte is the least significant. -/
theorem beu_concat (B : Bytes) (b : Byte) : beu (B ++ [b]) = beu B * 256 + b.toNat := by
  simp [beu]

/-- The value of `w` bytes is below `2^(8w)`. -/
theorem beu_lt (B : Bytes) : beu B < 2 ^ (8 * B.length) := by
  induction B using List.reverseRecOn with
  | nil => simp
  | append_singleton B b ih =>
    have hb := b.isLt
    rw [beu_concat, List.length_append, List.length_singleton, Nat.mul_add, Nat.pow_add]
    omega

@[simp] theorem bytesOf_length (w u : Nat) : (bytesOf w u).length = w := by
  induction w generalizing u with
  | zero => rfl
  | succ w ih => simp [bytesOf, ih]

/-- `BYTES(w, u)` has value `u`, for `u` in range. -/
theorem beu_bytesOf (w u : Nat) (h : u < 2 ^ (8 * w)) : beu (bytesOf w u) = u := by
  induction w generalizing u with
  | zero => simp at h; simp [bytesOf, h]
  | succ w ih =>
    have h' : u / 256 < 2 ^ (8 * w) := by
      apply Nat.div_lt_of_lt_mul
      calc u < 2 ^ (8 * (w + 1)) := h
        _ = 256 * 2 ^ (8 * w) := by rw [Nat.mul_add, Nat.pow_add]; ring
    rw [bytesOf, beu_concat, ih _ h', BitVec.toNat_ofNat]
    omega

/-- `BYTES` undoes `BEU`. -/
theorem bytesOf_beu (B : Bytes) : bytesOf B.length (beu B) = B := by
  induction B using List.reverseRecOn with
  | nil => rfl
  | append_singleton B b ih =>
    have hb := b.isLt
    rw [List.length_append, List.length_singleton, bytesOf, beu_concat]
    have h1 : (beu B * 256 + b.toNat) / 256 = beu B := by omega
    have h2 : BitVec.ofNat 8 (beu B * 256 + b.toNat) = b := by
      apply BitVec.eq_of_toNat_eq
      rw [BitVec.toNat_ofNat]
      omega
    rw [h1, h2, ih]

/-! ### BES -/

/-- The signed and the unsigned reading differ by a multiple of `2^(8w)`. -/
theorem bes_eq (B : Bytes) : bes B = beu B ∨ bes B = (beu B : Int) - 2 ^ (8 * B.length) := by
  unfold bes
  split <;> simp

/-! ### 16-bit words -/

@[simp] theorem bytesOf16_length (w : Word16) : (bytesOf16 w).length = 2 := rfl

/-- The high and the low byte of a word put together are the word. -/
theorem extract_append (w : Word16) : (w.extractLsb' 8 8 ++ w.extractLsb' 0 8 : BitVec 16) = w := by
  ext i hi
  simp only [BitVec.getElem_append, BitVec.getElem_extractLsb']
  split <;> simp_all [BitVec.getLsbD_eq_getElem]

/-- The bytes of a word read back as the word. -/
theorem word16At_bytesOf16 (w : Word16) (B : Bytes) : word16At (bytesOf16 w ++ B) 0 = w := by
  simpa [word16At, byteAt, bytesOf16] using extract_append w

/-- The high byte of two bytes put together. -/
theorem extract_high (h l : Byte) : (h ++ l : BitVec (8 + 8)).extractLsb' 8 8 = h := by
  apply BitVec.eq_of_toNat_eq
  have := l.isLt
  rw [BitVec.extractLsb'_toNat, BitVec.toNat_append, Nat.shiftRight_or_distrib, Nat.shiftLeft_shiftRight,
    Nat.shiftRight_eq_div_pow, Nat.div_eq_of_lt this, Nat.or_zero, Nat.mod_eq_of_lt h.isLt]

/-- The low byte of two bytes put together. -/
theorem extract_low (h l : Byte) : (h ++ l : BitVec (8 + 8)).extractLsb' 0 8 = l := by
  apply BitVec.eq_of_toNat_eq
  rw [BitVec.extractLsb'_toNat, BitVec.toNat_append, Nat.shiftRight_zero, Nat.or_mod_two_pow, Nat.shiftLeft_eq,
    Nat.mul_mod_left, Nat.zero_or, Nat.mod_eq_of_lt l.isLt]

/-- Writing what was read: two bytes put together and taken apart. -/
theorem bytesOf16_append (h l : Byte) : bytesOf16 (h ++ l) = [h, l] := by
  rw [bytesOf16, extract_high, extract_low]

/-- `BE16` as a number is the value of the word. -/
theorem be16_eq_word16At (B : Bytes) (i : Nat) : be16 B i = (word16At B i).toNat := by
  have h2 := (byteAt B (i + 1)).isLt
  rw [be16, word16At, BitVec.toNat_append, ← Nat.shiftLeft_add_eq_or_of_lt h2, Nat.shiftLeft_eq]

/-! ### Offsets and slices -/

@[simp] theorem byteAt_cons_zero (b : Byte) (B : Bytes) : byteAt (b :: B) 0 = b := rfl
@[simp] theorem byteAt_cons_succ (b : Byte) (B : Bytes) (i : Nat) : byteAt (b :: B) (i + 1) = byteAt B i := rfl

/-- The byte after a first part. -/
theorem byteAt_append_length (A : Bytes) (b : Byte) (R : Bytes) : byteAt (A ++ b :: R) A.length = b := by
  simp [byteAt]

/-- A slice is the middle part. -/
theorem slice_append (A M R : Bytes) : slice (A ++ (M ++ R)) A.length (A.length + M.length) = M := by
  rw [slice, ← List.append_assoc, List.take_append_of_le_length (by simp)]
  simp [List.take_of_length_le]

end Sys2Proof.Machine
end

