-- ==== Sys2Proof/Laws/Codec.lean ====
section
/-! SUPPORT. Sys2Proof/Laws/Codec.lean: the TLV walk, the nesting of structures, what the shared codec operations can
answer. -/

namespace Sys2Proof.Machine

/-! ### Entries -/

@[simp] theorem entriesToList_ofList (l : List (MsgId × Message × DecStatus)) :
    entriesToList (entriesOfList l) = l := by
  induction l with
  | nil => rfl
  | cons x l ih => simp [entriesOfList, entriesToList, ih]

@[simp] theorem entriesOfList_toList : ∀ E : Entries, entriesOfList (entriesToList E) = E
  | .nil => rfl
  | .cons _ _ _ rest => by rw [entriesToList, entriesOfList, entriesOfList_toList rest]

/-! ### The TLV walk (R136) -/

/-- Every bound that reaches the value's length gives the same walk. -/
theorem tlvSplitFor_bound (n m : Nat) (B : Bytes) (hn : B.length ≤ n) (hm : B.length ≤ m) :
    tlvSplitFor n B = tlvSplitFor m B := by
  induction n generalizing m B with
  | zero => cases B <;> simp_all [tlvSplitFor]
  | succ n ih =>
    cases B with
    | nil => simp [tlvSplitFor]
    | cons b rest =>
      cases m with
      | zero => simp at hm
      | succ m =>
        simp only [List.length_cons, Nat.add_le_add_iff_right] at hn hm
        simp only [tlvSplitFor]
        rw [ih m (rest.drop b.toNat) (by simp; omega) (by simp; omega)]

@[simp] theorem tlvSplit_nil : tlvSplit [] = some [] := rfl

/-- One step of the walk. -/
theorem tlvSplit_cons (n : Byte) (rest : Bytes) :
    tlvSplit (n :: rest) =
      if n.toNat < 2 ∨ rest.length < n.toNat then none
      else (tlvSplit (rest.drop n.toNat)).map (fun more => (word16At rest 0, slice rest 2 n.toNat) :: more) := by
  rw [tlvSplit, List.length_cons, tlvSplitFor]
  split
  · rfl
  · rw [tlvSplitFor_bound rest.length (rest.drop n.toNat).length _ (by simp) (by simp), ← tlvSplit]
    cases tlvSplit (rest.drop n.toNat) <;> rfl

/-- The walk reads back the entry that R151 writes. -/
theorem tlvSplit_entry (id : MsgId) (V B : Bytes) (h : V.length ≤ 253) :
    tlvSplit (tlvEntry id V ++ B) = (tlvSplit B).map ((id, V) :: ·) := by
  have hn : (BitVec.ofNat 8 (V.length + 2)).toNat = V.length + 2 := by
    rw [BitVec.toNat_ofNat]
    omega
  have hw : word16At (bytesOf16 id ++ V ++ B) 0 = id := by
    rw [List.append_assoc]
    exact word16At_bytesOf16 id _
  have hs : slice (bytesOf16 id ++ V ++ B) 2 (V.length + 2) = V := by
    have := slice_append (bytesOf16 id) V B
    rw [bytesOf16_length, Nat.add_comm, ← List.append_assoc] at this
    exact this
  have hd : (bytesOf16 id ++ V ++ B).drop (V.length + 2) = B :=
    List.drop_left' (by simp [Nat.add_comm])
  rw [tlvEntry, List.cons_append, tlvSplit_cons, hn, hw, hs, hd, if_neg (by simp; omega)]

/-- Each sub-value is at least three bytes shorter than the value that holds it. -/
theorem tlvSplit_shorter {B : Bytes} {es : List (MsgId × Bytes)} (h : tlvSplit B = some es) :
    ∀ e ∈ es, e.2.length + 3 ≤ B.length := by
  induction hn : B.length using Nat.strong_induction_on generalizing B es with
  | _ n ih =>
    cases B with
    | nil =>
      cases h
      simp
    | cons b rest =>
      rw [tlvSplit_cons] at h
      split at h
      · cases h
      · rename_i hb
        simp only [List.length_cons] at hn
        obtain ⟨more, hmore, rfl⟩ := Option.map_eq_some_iff.mp h
        intro e he
        rcases List.mem_cons.mp he with rfl | he
        · simp [slice]
          omega
        · have := ih (rest.drop b.toNat).length (by simp; omega) hmore rfl e he
          simp at this
          omega

/-! ### Decode -/

/-- STRUCT uses the decoding of its sub-values only. -/
theorem armStruct_congr {f g : MsgId → Bytes → Message × DecStatus} {B : Bytes}
    (h : ∀ id V, V.length < B.length → f id V = g id V) : armStruct f B = armStruct g B := by
  unfold armStruct
  cases hs : tlvSplit B with
  | none => rfl
  | some es =>
    have : es.map (fun e => (e.1, f e.1 e.2)) = es.map (fun e => (e.1, g e.1 e.2)) :=
      List.map_congr_left fun e he => by rw [h e.1 e.2 (by have := tlvSplit_shorter hs e he; omega)]
    simp only [this]

/-- An arm uses the decoding of shorter values only. -/
theorem runArm_congr {f g : MsgId → Bytes → Message × DecStatus} {B : Bytes} (cfg : Cfg) (tag : Byte) (d : DescBody)
    (h : ∀ id V, V.length < B.length → f id V = g id V) : runArm f cfg tag d B = runArm g cfg tag d B := by
  unfold runArm
  rw [armStruct_congr h]

/-- A bound above the value's length is never used up: every such bound gives the same. -/
theorem decodeFor_bound (cfg : Cfg) (tab : DescTable) (n m : Nat) (id : MsgId) (B : Bytes) (hn : B.length < n)
    (hm : B.length < m) : decodeFor cfg tab n id B = decodeFor cfg tab m id B := by
  induction n generalizing m id B with
  | zero => omega
  | succ n ih =>
    cases m with
    | zero => omega
    | succ m =>
      simp only [decodeFor]
      cases lookupDesc tab id with
      | none => rfl
      | some d =>
        simp only
        rw [runArm_congr cfg d.tag d.body (fun i V hV => ih m i V (by omega) (by omega))]

/-- WC.DECODE of an id without descriptor (R123). -/
theorem decodeMessage_unknown {cfg : Cfg} {tab : DescTable} {id : MsgId} (h : lookupDesc tab id = none) (B : Bytes) :
    decodeMessage cfg tab id B = (.raw B, .unknownId) := by
  simp [decodeMessage, decodeFor, h]

/-- WC.DECODE of an id with a descriptor: its arm, sub-values by WC.DECODE, then the resolution of a failure (R123). -/
theorem decodeMessage_known {cfg : Cfg} {tab : DescTable} {id : MsgId} {d : Descriptor} (h : lookupDesc tab id = some d)
    (B : Bytes) :
    decodeMessage cfg tab id B = resolve d.body B (runArm (decodeMessage cfg tab) cfg d.tag d.body B) := by
  rw [decodeMessage, decodeFor, h]
  simp only
  rw [runArm_congr cfg d.tag d.body fun i V hV => decodeFor_bound cfg tab B.length (V.length + 1) i V hV (by omega)]
  rfl

/-- All that the resolution of an arm can answer (R124). -/
theorem resolve_cases (d : DescBody) (B : Bytes) (x : Option Message) :
    (∃ m, x = some m ∧ resolve d B x = (m, .ok)) ∨
    (∃ m, x = none ∧ d.declaredDefault = some m ∧ resolve d B x = (m, .defaulted)) ∨
    (x = none ∧ d.declaredDefault = none ∧ resolve d B x = (.raw B, .error)) := by
  cases x with
  | some m => exact .inl ⟨m, rfl, rfl⟩
  | none =>
    cases h : d.declaredDefault with
    | some m => exact .inr (.inl ⟨m, rfl, rfl, by simp [resolve, h]⟩)
    | none => exact .inr (.inr ⟨rfl, rfl, by simp [resolve, h]⟩)

/-- The width check as a proposition (R125). -/
@[simp] theorem widthOk_iff (d : DescBody) (B : Bytes) : widthOk d B = true ↔ d.width = some B.length := by
  simp [widthOk]

/-- Membership in the enum set as a proposition. -/
theorem isMember_iff {d : DescBody} {members : List (Nat × String)} (h : d.enumSet = some members) (code : Nat) :
    isMember d code = true ↔ code ∈ members.map Prod.fst := by
  simp [isMember, h]

/-! ### Encode -/

/-- All that the lookup and variant match of WC.ENCODE can answer (R140). -/
theorem withDescriptor_cases (tab : DescTable) (id : MsgId) (m : Message) (arm : DescBody → Except Cause Bytes) :
    (lookupDesc tab id = none ∧ ∃ B, m = .raw B ∧ withDescriptor tab id m arm = .ok B) ∨
    (lookupDesc tab id = none ∧ (∀ B, m ≠ .raw B) ∧ withDescriptor tab id m arm = .error (.encUnknownId id)) ∨
    (∃ d, lookupDesc tab id = some d ∧ descTypeOf d.tag = some (messageType m) ∧
      withDescriptor tab id m arm = arm d.body) ∨
    (∃ d, lookupDesc tab id = some d ∧ descTypeOf d.tag ≠ some (messageType m) ∧
      withDescriptor tab id m arm = .error (.encType id)) := by
  unfold withDescriptor
  cases h : lookupDesc tab id with
  | none => cases m <;> simp
  | some d =>
    by_cases ht : descTypeOf d.tag = some (messageType m)
    · exact .inr (.inr (.inl ⟨d, rfl, ht, by simp [ht]⟩))
    · exact .inr (.inr (.inr ⟨d, rfl, ht, by simp [ht]⟩))

/-- All that the range check and byte generation can answer for a descriptor with a width and a sign flag (R152). -/
theorem putInt_cases {d : DescBody} {w : Nat} {sg : Bool} (hw : d.width = some w) (hs : d.signed = some sg) (id : MsgId)
    (p : Int) :
    (inRange w sg p = true ∧ putInt id d p = .ok (bytesOfInt w p)) ∨
    (inRange w sg p = false ∧ putInt id d p = .error (.encRange id)) := by
  cases h : inRange w sg p <;> simp [putInt, hw, hs, h]

/-- Bytes in place of an entry list: all that the encoding of a first entry can lead to (R151). -/
theorem encodeEntries_cons (cfg : Cfg) (tab : DescTable) (subId : MsgId) (m : Message) (st : DecStatus) (rest : Entries)
    (id : MsgId) :
    (∃ c, encodeMessage cfg tab m subId = .error c ∧
      encodeEntries cfg tab (.cons subId m st rest) id = .error c) ∨
    (∃ V, encodeMessage cfg tab m subId = .ok V ∧ 253 < V.length ∧
      encodeEntries cfg tab (.cons subId m st rest) id = .error (.encRange id)) ∨
    (∃ V, encodeMessage cfg tab m subId = .ok V ∧ V.length ≤ 253 ∧
      encodeEntries cfg tab (.cons subId m st rest) id =
        (encodeEntries cfg tab rest id).map (fun more => tlvEntry subId V ++ more)) := by
  rw [encodeEntries]
  cases hm : encodeMessage cfg tab m subId with
  | error c => exact .inl ⟨c, rfl, rfl⟩
  | ok V =>
    by_cases hV : 253 < V.length
    · exact .inr (.inl ⟨V, rfl, hV, by simp [maxSubValue, hV]⟩)
    · refine .inr (.inr ⟨V, rfl, by omega, ?_⟩)
      simp only [maxSubValue, hV, if_false]
      cases encodeEntries cfg tab rest id <;> rfl

end Sys2Proof.Machine
end

