-- ==== Sys2Proof/Laws/Crc.lean ====
section
/-! SUPPORT. Sys2Proof/Laws/Crc.lean: the CRC function over appended sequences, and why a change is never lost. -/

namespace Sys2Proof.Machine

@[simp] theorem crc16_nil : crc16 [] = crcSeed := rfl

/-- One more byte is one more step (R113). -/
theorem crc16_concat (B : Bytes) (b : Byte) : crc16 (B ++ [b]) = crcStep (crc16 B) b := by
  simp [crc16]

/-- A sequence continues from the register its first part leaves. -/
theorem crc16_append (A B : Bytes) : crc16 (A ++ B) = B.foldl crcStep (crc16 A) := by
  simp [crc16]

/-- A zero byte leaves a zero register zero (R111). -/
theorem crcStep_zero : crcStep 0 0 = 0 := by decide

/-- Bit 0 of a shifted register is the bit that was shifted out. -/
theorem crcShift_bit_zero (x : Word16) : (crcShift x).getLsbD 0 = x.msb := by
  unfold crcShift
  cases h : x.msb <;> simp [crcPoly]

/-- The generator has a non-zero constant term, so a shift can be undone (R115 b). -/
theorem crcShift_injective : Function.Injective crcShift := by
  intro a b h
  have hm : a.msb = b.msb := by rw [← crcShift_bit_zero, ← crcShift_bit_zero, h]
  have hs : a <<< 1 = b <<< 1 := by
    unfold crcShift at h
    rw [hm] at h
    split at h
    · simpa using h
    · exact h
  apply BitVec.eq_of_getLsbD_eq
  intro i hi
  by_cases hi' : i = 15
  · subst hi'
    simpa [BitVec.msb_eq_getLsbD_last] using hm
  · have := congrArg (fun w : Word16 => w.getLsbD (i + 1)) hs
    have h1 : i + 1 < 16 := by omega
    simpa [h1, hi, BitVec.getLsbD_eq_getElem] using this

/-- Two registers that differ still differ after the same byte. -/
theorem crcStep_injective (b : Byte) : Function.Injective (fun c => crcStep c b) := by
  intro c c' h
  simp only [crcStep] at h
  iterate 8 replace h := crcShift_injective h
  simpa using h

/-- Two bytes that differ give different registers. -/
theorem crcStep_byte_injective (c : Word16) : Function.Injective (crcStep c) := by
  intro b b' h
  simp only [crcStep] at h
  iterate 8 replace h := crcShift_injective h
  have h' : (b ++ (0 : Byte) : BitVec (8 + 8)) = b' ++ (0 : Byte) := by simpa using h
  rw [← extract_high b 0, ← extract_high b' 0, h']

/-- A difference in the register survives any further bytes. -/
theorem foldl_crcStep_injective (B : Bytes) : Function.Injective (fun c => B.foldl crcStep c) := by
  induction B with
  | nil => exact fun _ _ h => h
  | cons b B ih => exact fun _ _ h => crcStep_injective b (ih h)

end Sys2Proof.Machine
end

