-- ==== Sys2Proof/Laws/Decode.lean ====
section
/-! SUPPORT. Sys2Proof/Laws/Decode.lean: the packed fields read back as they were written: the nibbles of TYPE, the fields
of FLAGS, the width-kind of a message id. -/

namespace Sys2Proof.Decode

open Sys2Proof.Machine

/-! ### The TYPE byte (R77, R78) -/

@[simp] theorem highNibble_typeByte : ∀ p d : BitVec 4, highNibble (typeByte p d) = p := by decide

@[simp] theorem lowNibble_typeByte : ∀ p d : BitVec 4, lowNibble (typeByte p d) = d := by decide

/-- The TYPE byte is its two nibbles. -/
theorem typeByte_nibbles : ∀ b : Byte, typeByte (highNibble b) (lowNibble b) = b := by decide

/-! ### The message id (R82) -/

/-- A bit of a message id put together from its three fields. -/
theorem mkId_bit (hi : BitVec 5) (k : BitVec 2) (lo : BitVec 9) (i : Nat) :
    (mkId hi k lo).getLsbD i =
      if i < 9 then lo.getLsbD i else if i < 11 then k.getLsbD (i - 9) else hi.getLsbD (i - 11) := by
  have : i - 9 - 2 = i - 11 := by omega
  simp only [mkId, BitVec.getLsbD_append, this]
  by_cases h1 : i < 9
  · simp [h1]
  · by_cases h2 : i < 11
    · have : i - 9 < 2 := by omega
      simp [h1, h2, this]
    · have : ¬ i - 9 < 2 := by omega
      simp [h1, h2, this]

@[simp] theorem kindOf_mkId (hi : BitVec 5) (k : BitVec 2) (lo : BitVec 9) : kindOf (mkId hi k lo) = k := by
  apply BitVec.eq_of_getLsbD_eq
  intro i hi'
  have h1 : ¬ 9 + i < 9 := by omega
  have h2 : 9 + i < 11 := by omega
  rw [kindOf, BitVec.getLsbD_extractLsb', mkId_bit]
  simp [hi', h1, h2]

@[simp] theorem idHigh_mkId (hi : BitVec 5) (k : BitVec 2) (lo : BitVec 9) : idHigh (mkId hi k lo) = hi := by
  apply BitVec.eq_of_getLsbD_eq
  intro i hi'
  have h1 : ¬ 11 + i < 9 := by omega
  have h2 : ¬ 11 + i < 11 := by omega
  rw [idHigh, BitVec.getLsbD_extractLsb', mkId_bit]
  simp [hi', h1, h2]

@[simp] theorem idLow_mkId (hi : BitVec 5) (k : BitVec 2) (lo : BitVec 9) : idLow (mkId hi k lo) = lo := by
  apply BitVec.eq_of_getLsbD_eq
  intro i hi'
  rw [idLow, BitVec.getLsbD_extractLsb', mkId_bit]
  simp [hi']

/-- A message id is its three fields. -/
theorem mkId_fields (id : MsgId) : mkId (idHigh id) (kindOf id) (idLow id) = id := by
  apply BitVec.eq_of_getLsbD_eq
  intro i hi
  rw [mkId_bit]
  by_cases h1 : i < 9
  · simp [idLow, h1]
  · by_cases h2 : i < 11
    · have h3 : i - 9 < 2 := by omega
      have h4 : 9 + (i - 9) = i := by omega
      simp [kindOf, h1, h2, h3, h4]
    · have h3 : i - 11 < 5 := by omega
      have h4 : 11 + (i - 11) = i := by omega
      simp [idHigh, h1, h2, h3, h4]

end Sys2Proof.Decode

namespace Sys2Proof.Machine

/-! ### The FLAGS byte (R76) -/

@[simp] theorem flagsInfo_flagsByte :
    ∀ (i : BitVec 1) (v r : BitVec 2) (x : BitVec 3), flagsInfo (flagsByte i v r x) = i := by decide

@[simp] theorem flagsVersion_flagsByte :
    ∀ (i : BitVec 1) (v r : BitVec 2) (x : BitVec 3), flagsVersion (flagsByte i v r x) = v := by decide

@[simp] theorem flagsRetry_flagsByte :
    ∀ (i : BitVec 1) (v r : BitVec 2) (x : BitVec 3), flagsRetry (flagsByte i v r x) = r := by decide

@[simp] theorem flagsReserved_flagsByte :
    ∀ (i : BitVec 1) (v r : BitVec 2) (x : BitVec 3), flagsReserved (flagsByte i v r x) = x := by decide

/-- The FLAGS byte is its four fields. -/
theorem flagsByte_fields :
    ∀ b : Byte, flagsByte (flagsInfo b) (flagsVersion b) (flagsRetry b) (flagsReserved b) = b := by decide

end Sys2Proof.Machine
end

