-- ==== Sys2Proof/Laws/Envelope.lean ====
section
/-! SUPPORT. Sys2Proof/Laws/Envelope.lean: what a step of the dataset walk, the parser, the dispatch filter and the build
checks can answer. -/

namespace Sys2Proof.Machine

/-- All that a dataset of kind 0, 1 or 2 can give (R204). -/
theorem fixedDataset_cases (id : MsgId) (w : Nat) (pos : WalkPos) (rest : Bytes) :
    (rest.length < w ∧ fixedDataset id w pos rest = .error (.errDsUnderrun pos.index pos.offset)) ∨
    (w ≤ rest.length ∧
      fixedDataset id w pos rest = .ok (⟨id, Decode.kindOf id, rest.take w, none⟩, pos.offset + 2 + w)) := by
  by_cases h : rest.length < w
  · exact .inl ⟨h, by simp [fixedDataset, h]⟩
  · exact .inr ⟨by omega, by simp [fixedDataset, h]⟩

/-- All that a dataset of kind 3 can give (R205, R206). -/
theorem structDataset_cases (id : MsgId) (pos : WalkPos) (rest : Bytes) :
    (pos.count ≠ 1 ∧ structDataset id pos rest = .error (.errStructMixed pos.index pos.offset)) ∨
    (pos.count = 1 ∧
      structDataset id pos rest = .ok (⟨id, Decode.kindOf id, rest, none⟩, pos.offset + 2 + rest.length)) := by
  by_cases h : pos.count = 1 <;> simp [structDataset, h]

/-- All that one turn of the walk can give (R203). -/
theorem walkDatasets_succ_cases (P : Bytes) (count left i off : Nat) :
    (P.length - off < 2 ∧ walkDatasets P count (left + 1) i off = .error (.errDsUnderrun i off)) ∨
    (2 ≤ P.length - off ∧ ∃ c, datasetStep (word16At P off) ⟨i, off, count⟩ (P.drop (off + 2)) = .error c ∧
      walkDatasets P count (left + 1) i off = .error c) ∨
    (2 ≤ P.length - off ∧ ∃ d off',
      datasetStep (word16At P off) ⟨i, off, count⟩ (P.drop (off + 2)) = .ok (d, off') ∧
      walkDatasets P count (left + 1) i off =
        (walkDatasets P count left (i + 1) off').map (fun x => (d :: x.1, x.2))) := by
  by_cases h : P.length - off < 2
  · exact .inl ⟨h, by simp [walkDatasets, h]⟩
  · refine .inr ?_
    rw [walkDatasets, if_neg h]
    cases hs : datasetStep (word16At P off) ⟨i, off, count⟩ (P.drop (off + 2)) with
    | error c => exact .inl ⟨by omega, c, rfl, rfl⟩
    | ok x =>
      refine .inr ⟨by omega, x.1, x.2, rfl, ?_⟩
      simp only
      cases walkDatasets P count left (i + 1) x.2 <;> rfl

/-- All that the dispatch filter can answer (R213 to R215). -/
theorem filterVerdict_cases (cfg : Cfg) (p d : BitVec 4) (src dst : Address) :
    filterVerdict cfg p d src dst = .drop ∨
    (p = 1 ∧ src = cfg.localAddr ∧ filterVerdict cfg p d src dst = .forward dst) ∨
    (p = 1 ∧ src ≠ cfg.localAddr ∧ filterVerdict cfg p d src dst = .forward src) := by
  unfold filterVerdict directionVerdict
  by_cases hp : p = 1
  · subst hp
    by_cases hs : src = cfg.localAddr
    · cases hd : directionForwards (src == cfg.localAddr) d <;> simp [ptNormalCode, hs] at hd ⊢
    · cases hd : directionForwards (src == cfg.localAddr) d <;> simp [ptNormalCode, hs] at hd ⊢
  · exact .inl (if_neg hp)

/-- The checks of one dataset pass exactly when its kind is its id's, its value fits and kind 3 stands alone (R232). -/
theorem checkDataset_none (count i : Nat) (d : Dataset) :
    checkDataset count i d = none ↔
      d.kind = Decode.kindOf d.id ∧ (d.kind = 3 → count = 1) ∧ (d.kind ≠ 3 → d.raw.length = kindWidth d.kind) := by
  unfold checkDataset
  split
  · simp_all
  · split
    · split <;> simp_all
    · split <;> simp_all

@[simp] theorem addressBytes_length (a : Address) : (addressBytes a).length = 3 := rfl

/-- A built frame is six bytes longer than its payload (R71). -/
@[simp] theorem frameOf_length (P : Bytes) : (frameOf P).length = P.length + 6 := by
  simp [frameOf]
  omega

end Sys2Proof.Machine
end

