-- ==== Sys2Proof/Laws/Operands.lean ====
section
/-! SUPPORT. Sys2Proof/Laws/Operands.lean: wire integers there and back, and what rounding answers. -/

namespace Sys2Proof.Machine

/-! ### Wire integers (R84, R152) -/

@[simp] theorem bytesOfInt_length (w : Nat) (p : Int) : (bytesOfInt w p).length = w := by
  simp [bytesOfInt]

/-- The value of the generated bytes is the integer modulo `2^(8w)`. -/
theorem beu_bytesOfInt (w : Nat) (p : Int) : (beu (bytesOfInt w p) : Int) = p % 2 ^ (8 * w) := by
  have hpos : (0 : Int) < 2 ^ (8 * w) := by positivity
  have h0 := Int.emod_nonneg p hpos.ne'
  have hlt : (p % 2 ^ (8 * w)).toNat < 2 ^ (8 * w) := by
    have := Int.emod_lt_of_pos p hpos
    zify
    rw [Int.toNat_of_nonneg h0]
    exact this
  rw [bytesOfInt, beu_bytesOf _ _ hlt, Int.toNat_of_nonneg h0]

/-- The wire integer of a value is congruent to its unsigned value. -/
theorem wireInt_congr (sg : Bool) (B : Bytes) : (2 ^ (8 * B.length) : Int) ∣ wireInt sg B - beu B := by
  cases sg
  · simp [wireInt]
  · rcases bes_eq B with h | h <;> simp [wireInt, h]

/-- The range check as inequalities. -/
theorem inRange_iff (w : Nat) (sg : Bool) (p : Int) :
    inRange w sg p = true ↔
      if sg then -(2 ^ (8 * w - 1) : Int) ≤ p ∧ p ≤ 2 ^ (8 * w - 1) - 1 else 0 ≤ p ∧ p ≤ 2 ^ (8 * w) - 1 := by
  cases sg <;> simp [inRange]

/-- The wire integer of a non-empty value is in range. -/
theorem inRange_wireInt (sg : Bool) (B : Bytes) (h : B ≠ []) : inRange B.length sg (wireInt sg B) = true := by
  have hlt := beu_lt B
  have hl : 0 < B.length := List.length_pos_of_ne_nil h
  have hp : (2 : Int) ^ (8 * B.length) = 2 * 2 ^ (8 * B.length - 1) := by
    rw [← pow_succ']
    congr 1
    omega
  have hlt' : (beu B : Int) < 2 ^ (8 * B.length) := by exact_mod_cast hlt
  have h0 : (0 : Int) ≤ beu B := by positivity
  rw [inRange_iff]
  cases sg
  · simp only [wireInt, Bool.false_eq_true, if_false]
    omega
  · simp only [wireInt, if_true, bes]
    split
    · rename_i hb
      have hb' : (beu B : Int) < 2 ^ (8 * B.length - 1) := by exact_mod_cast hb
      omega
    · rename_i hb
      have hb' : (2 : Int) ^ (8 * B.length - 1) ≤ beu B := by exact_mod_cast Nat.not_lt.mp hb
      omega

/-- Two integers in range with the same residue are the same. -/
theorem inRange_unique {w : Nat} {sg : Bool} {p q : Int} (hw : 0 < w) (hp : inRange w sg p = true)
    (hq : inRange w sg q = true) (h : (2 ^ (8 * w) : Int) ∣ p - q) : p = q := by
  have hh : (2 : Int) ^ (8 * w) = 2 * 2 ^ (8 * w - 1) := by
    rw [← pow_succ']
    congr 1
    omega
  rw [inRange_iff] at hp hq
  obtain ⟨k, hk⟩ := h
  have hpos : (0 : Int) < 2 ^ (8 * w - 1) := by positivity
  have : k = 0 := by
    cases sg <;> simp only [Bool.false_eq_true, if_false, if_true] at hp hq <;> nlinarith
  subst this
  omega

/-- The bytes generated for an integer in range read back as it. -/
theorem wireInt_bytesOfInt {w : Nat} {sg : Bool} {p : Int} (hw : 0 < w) (h : inRange w sg p = true) :
    wireInt sg (bytesOfInt w p) = p := by
  have hne : bytesOfInt w p ≠ [] := by
    intro he
    have := congrArg List.length he
    simp at this
    omega
  have h1 := inRange_wireInt sg _ hne
  rw [bytesOfInt_length] at h1
  refine inRange_unique hw h1 h ?_
  have h2 := wireInt_congr sg (bytesOfInt w p)
  rw [bytesOfInt_length, beu_bytesOfInt] at h2
  have h3 : (2 ^ (8 * w) : Int) ∣ p % 2 ^ (8 * w) - p := by
    rw [Int.emod_def]
    exact ⟨-(p / 2 ^ (8 * w)), by ring⟩
  have := dvd_add h2 h3
  rwa [sub_add_sub_cancel] at this

/-- The bytes generated for a value's wire integer are the value. -/
theorem bytesOfInt_wireInt (sg : Bool) (B : Bytes) : bytesOfInt B.length (wireInt sg B) = B := by
  have h : (wireInt sg B) % 2 ^ (8 * B.length) = beu B := by
    have h1 := (Int.emod_emod_of_dvd (wireInt sg B) (dvd_refl (2 ^ (8 * B.length) : Int)))
    rw [(Int.emod_emod_of_dvd _ dvd_rfl).symm, Int.emod_eq_emod_iff_emod_sub_eq_zero.mpr
      (Int.emod_eq_zero_of_dvd (wireInt_congr sg B)), Int.emod_emod_of_dvd _ dvd_rfl]
    exact Int.emod_eq_of_lt (by positivity) (by exact_mod_cast beu_lt B)
  rw [bytesOfInt, h, Int.toNat_natCast, bytesOf_beu]

/-! ### Rounding (R144) -/

/-- All that the nearest-integer rules can answer: the nearest integer, on a tie the one the rule picks. -/
theorem roundNearest_cases (t : TieRule) (q : Rat) :
    (q - q.floor < 1 / 2 ∧ roundNearest t q = q.floor) ∨
    (1 / 2 < q - q.floor ∧ roundNearest t q = q.floor + 1) ∨
    (q - q.floor = 1 / 2 ∧ tieUp t q.floor = true ∧ roundNearest t q = q.floor + 1) ∨
    (q - q.floor = 1 / 2 ∧ tieUp t q.floor = false ∧ roundNearest t q = q.floor) := by
  by_cases h1 : q - q.floor < 1 / 2
  · exact .inl ⟨h1, by simp only [roundNearest, h1, if_true]⟩
  by_cases h2 : 1 / 2 < q - q.floor
  · exact .inr (.inl ⟨h2, by simp only [roundNearest, h1, h2, if_true, if_false]⟩)
  have h3 : q - q.floor = 1 / 2 := le_antisymm (not_lt.mp h2) (not_lt.mp h1)
  cases ht : tieUp t q.floor
  · exact .inr (.inr (.inr ⟨h3, rfl, by simp [roundNearest, h3, ht]⟩))
  · exact .inr (.inr (.inl ⟨h3, rfl, by simp [roundNearest, h3, ht]⟩))

/-- `Rat.floor` is the greatest integer not above. -/
theorem rat_floor_bounds (q : Rat) : (q.floor : Rat) ≤ q ∧ q < q.floor + 1 :=
  ⟨Rat.floor_le q, by exact_mod_cast Rat.lt_floor_add_one q⟩

/-- A nearest-integer rule is within 1/2. -/
theorem roundNearest_within (t : TieRule) (q : Rat) : |(roundNearest t q : Rat) - q| ≤ 1 / 2 := by
  obtain ⟨hl, hu⟩ := rat_floor_bounds q
  rw [abs_le]
  rcases roundNearest_cases t q with ⟨h, e⟩ | ⟨h, e⟩ | ⟨h, _, e⟩ | ⟨h, _, e⟩ <;> rw [e] <;> push_cast <;>
    constructor <;> linarith

/-- `withinHalf` says what its name says. -/
theorem withinHalf_iff (n : Int) (q : Rat) : withinHalf n q = true ↔ |(n : Rat) - q| ≤ 1 / 2 := by
  rw [withinHalf, Bool.and_eq_true, decide_eq_true_eq, decide_eq_true_eq, abs_le]
  constructor <;> rintro ⟨h1, h2⟩ <;> constructor <;> linarith

/-- Where no value is given, `ROUND` is the rule. -/
theorem roundBy_base {r : RoundRule} {q : Rat} (h : List.lookup q r.points = none) : roundBy r q = roundBase r.base q := by
  simp only [roundBy, h]

/-- Where a value is given, `ROUND` is that value. -/
theorem roundBy_point {r : RoundRule} {q : Rat} {n : Int} (h : List.lookup q r.points = some n) : roundBy r q = n := by
  simp only [roundBy, h]

/-- A point looked up is listed. -/
theorem mem_of_lookup {q : Rat} {n : Int} {ps : List (Rat × Int)} (h : List.lookup q ps = some n) : (q, n) ∈ ps := by
  induction ps with
  | nil => simp at h
  | cons e ps ih =>
    obtain ⟨x, m⟩ := e
    by_cases hq : q = x
    · subst hq
      simp only [List.lookup_cons, beq_self_eq_true, Option.some.injEq] at h
      exact h ▸ List.mem_cons_self
    · rw [List.lookup_cons, beq_eq_false_iff_ne.mpr hq] at h
      exact List.mem_cons_of_mem _ (ih h)

/-- A point that is not among the listed ones has no value given. -/
theorem lookup_unlisted {q : Rat} {ps : List (Rat × Int)} (h : q ∉ ps.map Prod.fst) : List.lookup q ps = none := by
  cases hl : List.lookup q ps with
  | none => rfl
  | some n => exact absurd (List.mem_map_of_mem (mem_of_lookup hl)) h

/-- Of the numbers `n + x`, `n` natural, one is not listed. -/
theorem exists_unlisted (ps : List (Rat × Int)) (x : Rat) : ∃ n : Nat, List.lookup ((n : Rat) + x) ps = none := by
  have hinj : Function.Injective (fun n : Nat => (n : Rat) + x) := fun a b h => by
    exact_mod_cast add_right_cancel h
  obtain ⟨q, ⟨n, rfl⟩, hq⟩ := (Set.infinite_range_of_injective hinj).exists_notMem_finset (ps.map Prod.fst).toFinset
  exact ⟨n, lookup_unlisted (fun h => hq (List.mem_toFinset.mpr h))⟩

/-- `Rat.floor` of three quarters above a natural number. -/
theorem floor_threeQuarters (n : Nat) : ((n : Rat) + 3 / 4).floor = (n : Int) := by
  obtain ⟨hl, hu⟩ := rat_floor_bounds ((n : Rat) + 3 / 4)
  have h1 : ((((n : Rat) + 3 / 4).floor : Int) : Rat) < ((n + 1 : Int) : Rat) := by push_cast; linarith
  have h2 : ((n : Int) : Rat) < (((((n : Rat) + 3 / 4).floor + 1 : Int)) : Rat) := by push_cast; linarith
  have h3 := Int.cast_lt.mp h1
  have h4 := Int.cast_lt.mp h2
  omega

/-- `Rat.ceil` of a quarter above a natural number. -/
theorem ceil_quarter (n : Nat) : ((n : Rat) + 1 / 4).ceil = (n : Int) + 1 := by
  have hl : ((n : Rat) + 1 / 4) ≤ ((n : Rat) + 1 / 4).ceil := Rat.le_ceil
  have hu : ((((n : Rat) + 1 / 4).ceil : Int) : Rat) < (n : Rat) + 1 / 4 + 1 := by
    exact_mod_cast Rat.ceil_lt
  have h1 : ((n : Int) : Rat) < ((((n : Rat) + 1 / 4).ceil : Int) : Rat) := by push_cast; linarith
  have h2 : ((((n : Rat) + 1 / 4).ceil : Int) : Rat) < ((n + 2 : Int) : Rat) := by push_cast; linarith
  have h3 := Int.cast_lt.mp h1
  have h4 := Int.cast_lt.mp h2
  omega

/-- A directed rule is further than 1/2 off at some point that is not listed. -/
theorem directed_off (d : Direction) (ps : List (Rat × Int)) :
    ∃ q : Rat, List.lookup q ps = none ∧ 1 / 2 < |(roundDirected d q : Rat) - q| := by
  have down : ∃ q : Rat, List.lookup q ps = none ∧ ¬ q < 0 ∧ 1 / 2 < |(q.floor : Rat) - q| := by
    obtain ⟨n, hn⟩ := exists_unlisted ps (3 / 4)
    refine ⟨_, hn, not_lt.mpr (by positivity), ?_⟩
    rw [floor_threeQuarters, lt_abs]
    right; push_cast; linarith
  have up : ∃ q : Rat, List.lookup q ps = none ∧ ¬ q < 0 ∧ 1 / 2 < |(q.ceil : Rat) - q| := by
    obtain ⟨n, hn⟩ := exists_unlisted ps (1 / 4)
    refine ⟨_, hn, not_lt.mpr (by positivity), ?_⟩
    rw [ceil_quarter, lt_abs]
    left; push_cast; linarith
  cases d with
  | floor => exact down.imp fun q h => ⟨h.1, h.2.2⟩
  | ceiling => exact up.imp fun q h => ⟨h.1, h.2.2⟩
  | towardZero => exact down.imp fun q h => ⟨h.1, by simpa only [roundDirected, if_neg h.2.1] using h.2.2⟩
  | awayFromZero => exact up.imp fun q h => ⟨h.1, by simpa only [roundDirected, if_neg h.2.1] using h.2.2⟩

/-- The test of SYS.RESET on `ROUND` is exact: it accepts the functions within 1/2 of their argument (R144). -/
theorem roundLegal_iff (r : RoundRule) : roundLegal r = true ↔ ∀ q : Rat, |(roundBy r q : Rat) - q| ≤ 1 / 2 := by
  constructor
  · intro h q
    rw [roundLegal, Bool.and_eq_true, List.all_eq_true] at h
    cases hl : List.lookup q r.points with
    | some n => exact (withinHalf_iff _ _).mp (h.2 _ (mem_of_lookup hl))
    | none =>
      rw [roundBy_base hl]
      cases hb : r.base with
      | nearest t => exact roundNearest_within t q
      | directed d => simp [baseLegal, hb] at h
  · intro h
    rw [roundLegal, Bool.and_eq_true, List.all_eq_true]
    refine ⟨?_, fun e _ => (withinHalf_iff _ _).mpr (h e.1)⟩
    cases hb : r.base with
    | nearest t => rfl
    | directed d =>
      obtain ⟨q, hq, hd⟩ := directed_off d r.points
      have := h q
      rw [roundBy_base hq, hb] at this
      exact absurd this (not_le.mpr hd)

/-- A legal `ROUND` keeps integers. -/
theorem roundBy_int {r : RoundRule} (h : roundLegal r = true) (p : Int) : roundBy r p = p := by
  have h1 := abs_le.mp ((roundLegal_iff r).mp h p)
  have h2 : ((roundBy r p - p : Int) : Rat) < 1 := by push_cast; linarith [h1.2]
  have h3 : (-1 : Rat) < ((roundBy r p - p : Int) : Rat) := by push_cast; linarith [h1.1]
  have h4 : roundBy r p - p < 1 := by exact_mod_cast h2
  have h5 : -1 < roundBy r p - p := by exact_mod_cast h3
  omega

/-- The default rule is legal. -/
theorem roundLegal_halfToEven : roundLegal .halfToEven = true := rfl

/-! ### The textual form of an address (R88) -/

/-- A digit written and read back. -/
theorem hexValue_hexDigit : ∀ n : BitVec 4, hexValue (hexDigit n) = some n := by decide

/-- The two nibbles of a byte put together are the byte. -/
theorem nibbles_append : ∀ b : Byte, (b.extractLsb' 4 4 ++ b.extractLsb' 0 4 : BitVec (4 + 4)) = b := by decide

/-- An address written and read back. -/
theorem addressOfText_addressText (a : Address) : addressOfText (addressText a) = some a := by
  simp only [addressText, hexOfByte, List.cons_append, List.nil_append, addressOfText, byteOfHex, hexValue_hexDigit,
    nibbles_append]

end Sys2Proof.Machine
end

