-- ==== Sys2Proof/Laws/PerInstr.lean ====
section
/-! SUPPORT. Sys2Proof/Laws/PerInstr.lean: the families of lemmas that hold one per instruction. Family `TableRow`: the
command that `encode` writes carries, in the place of the instruction's row of spec/opcode_table.json, a selecting value
that meets the row's mask and match. -/

namespace Sys2Proof.Laws.TableRow

open Sys2Proof

/-- A row of spec/opcode_table.json: the place it stands in, its mask, its match; 8 bits, or the 16 of a message id. -/
inductive Row where
  | byte (place : Space) (mask code : BitVec 8)
  | word (place : Space) (mask code : BitVec 16)
deriving DecidableEq, Repr

/-- The row of each instruction, copied from spec/opcode_table.json. -/
def rowOf : Instr → Row
  | .sysReset _ _ => .byte .op 0xFF 0x00
  | .faFlush => .byte .op 0xFF 0x02
  | .crcInit => .byte .op 0xFF 0x10
  | .crcByte _ => .byte .op 0xFF 0x11
  | .crcBlock _ => .byte .op 0xFF 0x12
  | .crcCheck _ => .byte .op 0xFF 0x13
  | .faPush _ => .byte .op 0xFF 0x20
  | .epParse _ => .byte .op 0xFF 0x30
  | .epFilter _ => .byte .op 0xFF 0x31
  | .epDecode _ => .byte .op 0xFF 0x32
  | .wcDecode _ _ => .byte .op 0xFF 0x40
  | .wcEncode _ _ => .byte .op 0xFF 0x41
  | .epBuild _ => .byte .op 0xFF 0x50
  | .faBuild _ => .byte .op 0xFF 0x51
  | .stx => .byte .frame 0xFF 0x32
  | .etx => .byte .frame 0xFF 0x34
  | .ptStandby _ _ _ => .byte .packetType 0xF0 0x00
  | .ptNormal _ _ _ => .byte .packetType 0xF0 0x10
  | .ptGathering _ _ _ => .byte .packetType 0xF0 0x20
  | .ptInstall _ _ _ => .byte .packetType 0xF0 0x30
  | .ptDownload _ _ _ => .byte .packetType 0xF0 0x40
  | .dtUndefined _ _ _ => .byte .payloadType 0x0F 0x00
  | .dtRead _ _ _ => .byte .payloadType 0x0F 0x01
  | .dtWrite _ _ _ => .byte .payloadType 0x0F 0x02
  | .dtRequest _ _ _ => .byte .payloadType 0x0F 0x03
  | .dtNotification _ _ _ => .byte .payloadType 0x0F 0x04
  | .dtResponse _ _ _ => .byte .payloadType 0x0F 0x05
  | .dtAck _ _ _ => .byte .payloadType 0x0F 0x06
  | .dtNack _ _ _ => .byte .payloadType 0x0F 0x07
  | .dsK0 _ _ _ _ => .word .dataset 0x0600 0x0000
  | .dsK1 _ _ _ _ => .word .dataset 0x0600 0x0200
  | .dsK2 _ _ _ _ => .word .dataset 0x0600 0x0400
  | .dsK3 _ _ _ _ => .word .dataset 0x0600 0x0600
  | .decRaw _ _ => .byte .decArm 0xFF 0x00
  | .decBool _ _ => .byte .decArm 0xFF 0x01
  | .decEnum _ _ => .byte .decArm 0xFF 0x02
  | .decInt _ _ => .byte .decArm 0xFF 0x03
  | .decFloat _ _ => .byte .decArm 0xFF 0x04
  | .decTemp _ _ => .byte .decArm 0xFF 0x05
  | .decPower _ _ => .byte .decArm 0xFF 0x06
  | .decEnergy _ _ => .byte .decArm 0xFF 0x07
  | .decCurrent _ _ => .byte .decArm 0xFF 0x08
  | .decString _ _ => .byte .decArm 0xFF 0x09
  | .decStruct _ _ => .byte .decArm 0xFF 0x0A
  | .encRaw _ _ _ => .byte .encArm 0xFF 0x00
  | .encBool _ _ _ => .byte .encArm 0xFF 0x01
  | .encEnum _ _ _ => .byte .encArm 0xFF 0x02
  | .encInt _ _ _ => .byte .encArm 0xFF 0x03
  | .encFloat _ _ _ => .byte .encArm 0xFF 0x04
  | .encTemp _ _ _ => .byte .encArm 0xFF 0x05
  | .encPower _ _ _ => .byte .encArm 0xFF 0x06
  | .encEnergy _ _ _ => .byte .encArm 0xFF 0x07
  | .encCurrent _ _ _ => .byte .encArm 0xFF 0x08
  | .encString _ _ _ => .byte .encArm 0xFF 0x09
  | .encStruct _ _ _ => .byte .encArm 0xFF 0x0A

/-- A command's place and selecting value meet a row. -/
def Meets (c : Command) : Row → Prop
  | .byte place mask code =>
    c.space = place ∧
      match c.word with
      | b :: _ => b &&& mask = code
      | [] => False
  | .word place mask code =>
    c.space = place ∧
      match c.word with
      | b :: b' :: _ => (b ++ b' : BitVec (8 + 8)) &&& mask = code
      | _ => False

/-- The encoded command meets the instruction's row. -/
def Statement (i : Instr) : Prop := Meets (encode i) (rowOf i)

theorem packet_nibble : ∀ p d : BitVec 4, Decode.typeByte p d &&& 0xF0 = (p ++ (0 : BitVec 4) : BitVec (4 + 4)) := by
  decide

theorem payload_nibble : ∀ p d : BitVec 4, Decode.typeByte p d &&& 0x0F = ((0 : BitVec 4) ++ d : BitVec (4 + 4)) := by
  decide

theorem width_kind (hi : BitVec 5) (k : BitVec 2) (lo : BitVec 9) :
    ((Decode.mkId hi k lo).extractLsb' 8 8 ++ (Decode.mkId hi k lo).extractLsb' 0 8 : BitVec (8 + 8)) &&& 0x0600 =
      Decode.mkId 0 k 0 := by
  rw [show ((Decode.mkId hi k lo).extractLsb' 8 8 ++ (Decode.mkId hi k lo).extractLsb' 0 8 : BitVec (8 + 8)) =
    Decode.mkId hi k lo from Machine.extract_append _]
  apply BitVec.eq_of_getLsbD_eq
  intro i hi'
  have hi16 : i < 16 := hi'
  rw [BitVec.getLsbD_and, Decode.mkId_bit, Decode.mkId_bit]
  interval_cases i <;> simp

end Sys2Proof.Laws.TableRow

open Sys2Proof Sys2Proof.Laws.TableRow

theorem Sys2Proof.Laws.TableRow.sysReset (cfg : ResetArgs) (table : Option DescTable) : Statement (.sysReset cfg table) :=
  ⟨rfl, rfl⟩

theorem Sys2Proof.Laws.TableRow.faFlush : Statement .faFlush :=
  ⟨rfl, rfl⟩

theorem Sys2Proof.Laws.TableRow.crcInit : Statement .crcInit :=
  ⟨rfl, rfl⟩

theorem Sys2Proof.Laws.TableRow.crcByte (b : Byte) : Statement (.crcByte b) :=
  ⟨rfl, rfl⟩

theorem Sys2Proof.Laws.TableRow.crcBlock (B : Bytes) : Statement (.crcBlock B) :=
  ⟨rfl, rfl⟩

theorem Sys2Proof.Laws.TableRow.crcCheck (e : Word16) : Statement (.crcCheck e) :=
  ⟨rfl, rfl⟩

theorem Sys2Proof.Laws.TableRow.faPush (data : Bytes) : Statement (.faPush data) :=
  ⟨rfl, rfl⟩

theorem Sys2Proof.Laws.TableRow.epParse (P : Bytes) : Statement (.epParse P) :=
  ⟨rfl, rfl⟩

theorem Sys2Proof.Laws.TableRow.epFilter (env : Envelope) : Statement (.epFilter env) :=
  ⟨rfl, rfl⟩

theorem Sys2Proof.Laws.TableRow.epDecode (P : Bytes) : Statement (.epDecode P) :=
  ⟨rfl, rfl⟩

theorem Sys2Proof.Laws.TableRow.wcDecode (id : MsgId) (B : Bytes) : Statement (.wcDecode id B) :=
  ⟨rfl, rfl⟩

theorem Sys2Proof.Laws.TableRow.wcEncode (id : MsgId) (m : Message) : Statement (.wcEncode id m) :=
  ⟨rfl, rfl⟩

theorem Sys2Proof.Laws.TableRow.epBuild (env : Envelope) : Statement (.epBuild env) :=
  ⟨rfl, rfl⟩

theorem Sys2Proof.Laws.TableRow.faBuild (P : Bytes) : Statement (.faBuild P) :=
  ⟨rfl, rfl⟩

theorem Sys2Proof.Laws.TableRow.stx : Statement .stx :=
  ⟨rfl, rfl⟩

theorem Sys2Proof.Laws.TableRow.etx : Statement .etx :=
  ⟨rfl, rfl⟩

theorem Sys2Proof.Laws.TableRow.ptStandby (d : BitVec 4) (src dst : Address) : Statement (.ptStandby d src dst) :=
  ⟨rfl, packet_nibble 0 d⟩

theorem Sys2Proof.Laws.TableRow.ptNormal (d : BitVec 4) (src dst : Address) : Statement (.ptNormal d src dst) :=
  ⟨rfl, packet_nibble 1 d⟩

theorem Sys2Proof.Laws.TableRow.ptGathering (d : BitVec 4) (src dst : Address) : Statement (.ptGathering d src dst) :=
  ⟨rfl, packet_nibble 2 d⟩

theorem Sys2Proof.Laws.TableRow.ptInstall (d : BitVec 4) (src dst : Address) : Statement (.ptInstall d src dst) :=
  ⟨rfl, packet_nibble 3 d⟩

theorem Sys2Proof.Laws.TableRow.ptDownload (d : BitVec 4) (src dst : Address) : Statement (.ptDownload d src dst) :=
  ⟨rfl, packet_nibble 4 d⟩

theorem Sys2Proof.Laws.TableRow.dtUndefined (p : BitVec 4) (src dst : Address) : Statement (.dtUndefined p src dst) :=
  ⟨rfl, payload_nibble p 0⟩

theorem Sys2Proof.Laws.TableRow.dtRead (p : BitVec 4) (src dst : Address) : Statement (.dtRead p src dst) :=
  ⟨rfl, payload_nibble p 1⟩

theorem Sys2Proof.Laws.TableRow.dtWrite (p : BitVec 4) (src dst : Address) : Statement (.dtWrite p src dst) :=
  ⟨rfl, payload_nibble p 2⟩

theorem Sys2Proof.Laws.TableRow.dtRequest (p : BitVec 4) (src dst : Address) : Statement (.dtRequest p src dst) :=
  ⟨rfl, payload_nibble p 3⟩

theorem Sys2Proof.Laws.TableRow.dtNotification (p : BitVec 4) (src dst : Address) : Statement (.dtNotification p src dst) :=
  ⟨rfl, payload_nibble p 4⟩

theorem Sys2Proof.Laws.TableRow.dtResponse (p : BitVec 4) (src dst : Address) : Statement (.dtResponse p src dst) :=
  ⟨rfl, payload_nibble p 5⟩

theorem Sys2Proof.Laws.TableRow.dtAck (p : BitVec 4) (src dst : Address) : Statement (.dtAck p src dst) :=
  ⟨rfl, payload_nibble p 6⟩

theorem Sys2Proof.Laws.TableRow.dtNack (p : BitVec 4) (src dst : Address) : Statement (.dtNack p src dst) :=
  ⟨rfl, payload_nibble p 7⟩

theorem Sys2Proof.Laws.TableRow.dsK0 (hi : BitVec 5) (lo : BitVec 9) (pos : WalkPos) (rest : Bytes) : Statement (.dsK0 hi lo pos rest) :=
  ⟨rfl, width_kind hi 0 lo⟩

theorem Sys2Proof.Laws.TableRow.dsK1 (hi : BitVec 5) (lo : BitVec 9) (pos : WalkPos) (rest : Bytes) : Statement (.dsK1 hi lo pos rest) :=
  ⟨rfl, width_kind hi 1 lo⟩

theorem Sys2Proof.Laws.TableRow.dsK2 (hi : BitVec 5) (lo : BitVec 9) (pos : WalkPos) (rest : Bytes) : Statement (.dsK2 hi lo pos rest) :=
  ⟨rfl, width_kind hi 2 lo⟩

theorem Sys2Proof.Laws.TableRow.dsK3 (hi : BitVec 5) (lo : BitVec 9) (pos : WalkPos) (rest : Bytes) : Statement (.dsK3 hi lo pos rest) :=
  ⟨rfl, width_kind hi 3 lo⟩

theorem Sys2Proof.Laws.TableRow.decRaw (d : DescBody) (B : Bytes) : Statement (.decRaw d B) :=
  ⟨rfl, rfl⟩

theorem Sys2Proof.Laws.TableRow.decBool (d : DescBody) (B : Bytes) : Statement (.decBool d B) :=
  ⟨rfl, rfl⟩

theorem Sys2Proof.Laws.TableRow.decEnum (d : DescBody) (B : Bytes) : Statement (.decEnum d B) :=
  ⟨rfl, rfl⟩

theorem Sys2Proof.Laws.TableRow.decInt (d : DescBody) (B : Bytes) : Statement (.decInt d B) :=
  ⟨rfl, rfl⟩

theorem Sys2Proof.Laws.TableRow.decFloat (d : DescBody) (B : Bytes) : Statement (.decFloat d B) :=
  ⟨rfl, rfl⟩

theorem Sys2Proof.Laws.TableRow.decTemp (d : DescBody) (B : Bytes) : Statement (.decTemp d B) :=
  ⟨rfl, rfl⟩

theorem Sys2Proof.Laws.TableRow.decPower (d : DescBody) (B : Bytes) : Statement (.decPower d B) :=
  ⟨rfl, rfl⟩

theorem Sys2Proof.Laws.TableRow.decEnergy (d : DescBody) (B : Bytes) : Statement (.decEnergy d B) :=
  ⟨rfl, rfl⟩

theorem Sys2Proof.Laws.TableRow.decCurrent (d : DescBody) (B : Bytes) : Statement (.decCurrent d B) :=
  ⟨rfl, rfl⟩

theorem Sys2Proof.Laws.TableRow.decString (d : DescBody) (B : Bytes) : Statement (.decString d B) :=
  ⟨rfl, rfl⟩

theorem Sys2Proof.Laws.TableRow.decStruct (d : DescBody) (B : Bytes) : Statement (.decStruct d B) :=
  ⟨rfl, rfl⟩

theorem Sys2Proof.Laws.TableRow.encRaw (id : MsgId) (d : DescBody) (m : Message) : Statement (.encRaw id d m) :=
  ⟨rfl, rfl⟩

theorem Sys2Proof.Laws.TableRow.encBool (id : MsgId) (d : DescBody) (m : Message) : Statement (.encBool id d m) :=
  ⟨rfl, rfl⟩

theorem Sys2Proof.Laws.TableRow.encEnum (id : MsgId) (d : DescBody) (m : Message) : Statement (.encEnum id d m) :=
  ⟨rfl, rfl⟩

theorem Sys2Proof.Laws.TableRow.encInt (id : MsgId) (d : DescBody) (m : Message) : Statement (.encInt id d m) :=
  ⟨rfl, rfl⟩

theorem Sys2Proof.Laws.TableRow.encFloat (id : MsgId) (d : DescBody) (m : Message) : Statement (.encFloat id d m) :=
  ⟨rfl, rfl⟩

theorem Sys2Proof.Laws.TableRow.encTemp (id : MsgId) (d : DescBody) (m : Message) : Statement (.encTemp id d m) :=
  ⟨rfl, rfl⟩

theorem Sys2Proof.Laws.TableRow.encPower (id : MsgId) (d : DescBody) (m : Message) : Statement (.encPower id d m) :=
  ⟨rfl, rfl⟩

theorem Sys2Proof.Laws.TableRow.encEnergy (id : MsgId) (d : DescBody) (m : Message) : Statement (.encEnergy id d m) :=
  ⟨rfl, rfl⟩

theorem Sys2Proof.Laws.TableRow.encCurrent (id : MsgId) (d : DescBody) (m : Message) : Statement (.encCurrent id d m) :=
  ⟨rfl, rfl⟩

theorem Sys2Proof.Laws.TableRow.encString (id : MsgId) (d : DescBody) (m : Message) : Statement (.encString id d m) :=
  ⟨rfl, rfl⟩

theorem Sys2Proof.Laws.TableRow.encStruct (id : MsgId) (d : DescBody) (m : Message) : Statement (.encStruct id d m) :=
  ⟨rfl, rfl⟩
end

