-- ==== Sys2Proof/Laws/State.lean ====
section
/-! SUPPORT. Sys2Proof/Laws/State.lean: one lemma per field per update of State, and what `whenReady` and `conclude` can
answer. -/

namespace Sys2Proof.Machine

@[simp] theorem finish_ready (s : State) (r : Result) : (finish s r).ready = s.ready := rfl
@[simp] theorem finish_rxbuf (s : State) (r : Result) : (finish s r).rxbuf = s.rxbuf := rfl
@[simp] theorem finish_crcAcc (s : State) (r : Result) : (finish s r).crcAcc = s.crcAcc := rfl
@[simp] theorem finish_cfg (s : State) (r : Result) : (finish s r).cfg = s.cfg := rfl
@[simp] theorem finish_descTable (s : State) (r : Result) : (finish s r).descTable = s.descTable := rfl
@[simp] theorem finish_report (s : State) (r : Result) : (finish s r).report = .ok r := rfl
@[simp] theorem finish_inbox (s : State) (r : Result) : (finish s r).inbox = s.inbox := rfl

@[simp] theorem raise_ready (s : State) (c : Cause) : (raise s c).ready = s.ready := rfl
@[simp] theorem raise_rxbuf (s : State) (c : Cause) : (raise s c).rxbuf = s.rxbuf := rfl
@[simp] theorem raise_crcAcc (s : State) (c : Cause) : (raise s c).crcAcc = s.crcAcc := rfl
@[simp] theorem raise_cfg (s : State) (c : Cause) : (raise s c).cfg = s.cfg := rfl
@[simp] theorem raise_descTable (s : State) (c : Cause) : (raise s c).descTable = s.descTable := rfl
@[simp] theorem raise_report (s : State) (c : Cause) : (raise s c).report = .raised c := rfl
@[simp] theorem raise_inbox (s : State) (c : Cause) : (raise s c).inbox = s.inbox := rfl

@[simp] theorem setRxbuf_ready (s : State) (B : Bytes) : (setRxbuf s B).ready = s.ready := rfl
@[simp] theorem setRxbuf_rxbuf (s : State) (B : Bytes) : (setRxbuf s B).rxbuf = B := rfl
@[simp] theorem setRxbuf_crcAcc (s : State) (B : Bytes) : (setRxbuf s B).crcAcc = s.crcAcc := rfl
@[simp] theorem setRxbuf_cfg (s : State) (B : Bytes) : (setRxbuf s B).cfg = s.cfg := rfl
@[simp] theorem setRxbuf_descTable (s : State) (B : Bytes) : (setRxbuf s B).descTable = s.descTable := rfl
@[simp] theorem setRxbuf_report (s : State) (B : Bytes) : (setRxbuf s B).report = s.report := rfl
@[simp] theorem setRxbuf_inbox (s : State) (B : Bytes) : (setRxbuf s B).inbox = s.inbox := rfl

@[simp] theorem setCrc_ready (s : State) (c : Word16) : (setCrc s c).ready = s.ready := rfl
@[simp] theorem setCrc_rxbuf (s : State) (c : Word16) : (setCrc s c).rxbuf = s.rxbuf := rfl
@[simp] theorem setCrc_crcAcc (s : State) (c : Word16) : (setCrc s c).crcAcc = c := rfl
@[simp] theorem setCrc_cfg (s : State) (c : Word16) : (setCrc s c).cfg = s.cfg := rfl
@[simp] theorem setCrc_descTable (s : State) (c : Word16) : (setCrc s c).descTable = s.descTable := rfl
@[simp] theorem setCrc_report (s : State) (c : Word16) : (setCrc s c).report = s.report := rfl
@[simp] theorem setCrc_inbox (s : State) (c : Word16) : (setCrc s c).inbox = s.inbox := rfl

@[simp] theorem issue_ready (s : State) (c : Command) : (issue s c).ready = s.ready := rfl
@[simp] theorem issue_rxbuf (s : State) (c : Command) : (issue s c).rxbuf = s.rxbuf := rfl
@[simp] theorem issue_crcAcc (s : State) (c : Command) : (issue s c).crcAcc = s.crcAcc := rfl
@[simp] theorem issue_cfg (s : State) (c : Command) : (issue s c).cfg = s.cfg := rfl
@[simp] theorem issue_descTable (s : State) (c : Command) : (issue s c).descTable = s.descTable := rfl
@[simp] theorem issue_report (s : State) (c : Command) : (issue s c).report = s.report := rfl
@[simp] theorem issue_inbox (s : State) (c : Command) : (issue s c).inbox = s.inbox ++ [c] := rfl

@[simp] theorem resetState_ready (s : State) (g : Cfg) (tab : DescTable) : (resetState s g tab).ready = true := rfl
@[simp] theorem resetState_rxbuf (s : State) (g : Cfg) (tab : DescTable) : (resetState s g tab).rxbuf = [] := rfl
@[simp] theorem resetState_crcAcc (s : State) (g : Cfg) (tab : DescTable) : (resetState s g tab).crcAcc = crcSeed := rfl
@[simp] theorem resetState_cfg (s : State) (g : Cfg) (tab : DescTable) : (resetState s g tab).cfg = g := rfl
@[simp] theorem resetState_descTable (s : State) (g : Cfg) (tab : DescTable) : (resetState s g tab).descTable = tab := rfl
@[simp] theorem resetState_report (s : State) (g : Cfg) (tab : DescTable) : (resetState s g tab).report = .ok .none := rfl
@[simp] theorem resetState_inbox (s : State) (g : Cfg) (tab : DescTable) : (resetState s g tab).inbox = s.inbox := rfl

@[simp] theorem withFetchWord_ready (s : State) (nbits w : Nat) : (s.withFetchWord nbits w).ready = s.ready := rfl
@[simp] theorem withFetchWord_rxbuf (s : State) (nbits w : Nat) : (s.withFetchWord nbits w).rxbuf = s.rxbuf := rfl
@[simp] theorem withFetchWord_crcAcc (s : State) (nbits w : Nat) : (s.withFetchWord nbits w).crcAcc = s.crcAcc := rfl
@[simp] theorem withFetchWord_cfg (s : State) (nbits w : Nat) : (s.withFetchWord nbits w).cfg = s.cfg := rfl
@[simp] theorem withFetchWord_descTable (s : State) (nbits w : Nat) : (s.withFetchWord nbits w).descTable = s.descTable := rfl
@[simp] theorem withFetchWord_report (s : State) (nbits w : Nat) : (s.withFetchWord nbits w).report = s.report := rfl
@[simp] theorem withFetchWord_inbox (s : State) (nbits w : Nat) : (s.withFetchWord nbits w).inbox = Decode.commandOfWord nbits w :: s.inbox := rfl

/-- A ready block runs the operation. -/
theorem whenReady_of_ready {s : State} (h : s.ready = true) (k : State) : whenReady s k = .next k := by
  simp [whenReady, h]

/-- A block that is not ready raises NOT_READY. -/
theorem whenReady_of_not_ready {s : State} (h : s.ready = false) (k : State) :
    whenReady s k = .next (raise s .notReady) := by
  simp [whenReady, h]

/-- All that `whenReady` can answer. -/
theorem whenReady_cases {s k t : State} (h : whenReady s k = .next t) :
    (s.ready = true ∧ t = k) ∨ (s.ready = false ∧ t = raise s .notReady) := by
  unfold whenReady at h
  split at h <;> simp_all

/-- `whenReady` always answers a next state. -/
theorem whenReady_next (s k : State) : ∃ t, whenReady s k = .next t := by
  unfold whenReady
  split <;> exact ⟨_, rfl⟩

@[simp] theorem conclude_ok (s : State) (r : Result) : conclude s (.ok r) = finish s r := rfl
@[simp] theorem conclude_error (s : State) (c : Cause) : conclude s (.error c) = raise s c := rfl

/-- All that `conclude` can do: write the report. -/
theorem conclude_eq (s : State) (x : Except Cause Result) : ∃ r, conclude s x = { s with report := r } := by
  cases x <;> exact ⟨_, rfl⟩

/-- The report of `conclude` is a cause only where the computation ended in one. -/
theorem conclude_raised {s : State} {x : Except Cause Result} {c : Cause} (h : (conclude s x).report = .raised c) :
    conclude s x = raise s c := by
  cases x with
  | ok r => simp at h
  | error e => simp at h; simp [h]

@[simp] theorem concludeBytes_ok (s : State) (B : Bytes) : concludeBytes s (.ok B) = finish s (.bytes B) := rfl
@[simp] theorem concludeBytes_error (s : State) (c : Cause) : concludeBytes s (.error c) = raise s c := rfl
@[simp] theorem concludeDataset_ok (s : State) (x : Dataset × Nat) :
    concludeDataset s (.ok x) = finish s (.dataset x.1 x.2) := rfl
@[simp] theorem concludeDataset_error (s : State) (c : Cause) : concludeDataset s (.error c) = raise s c := rfl

end Sys2Proof.Machine
end

