-- ==== Sys2Proof/Laws/System.lean ====
section
/-! SUPPORT. Sys2Proof/Laws/System.lean: which operands of SYS.RESET are named illegal, and what SYS.RESET can do. -/

namespace Sys2Proof.Machine

/-- No operand is named exactly when every operand that must be given is, and all are legal. -/
theorem illegalFields_nil (a : ResetArgs) (tab : Option DescTable) :
    illegalFields a tab = [] ↔
      bufferSizeLegal a = true ∧ lenCapLegal (cfgOf a) = true ∧ a.localAddr.isSome = true ∧
        roundLegal (cfgOf a).round = true ∧ tableGivenLegal (cfgOf a) tab = true := by
  simp [illegalFields, Option.isSome_iff_ne_none]

/-- Each operand is named exactly when it is illegal or missing. -/
theorem mem_illegalFields (a : ResetArgs) (tab : Option DescTable) (f : CfgField) :
    f ∈ illegalFields a tab ↔
      match f with
      | .maxBufferSize => bufferSizeLegal a = false
      | .lenCap => lenCapLegal (cfgOf a) = false
      | .localAddr => a.localAddr = none
      | .round => roundLegal (cfgOf a).round = false
      | .descTable => tableGivenLegal (cfgOf a) tab = false := by
  cases f <;> simp [illegalFields]

/-- What BAD_CONFIG records is one of the operands named. -/
theorem recordedField_mem (a : ResetArgs) (tab : Option DescTable) (f : CfgField) (more : List CfgField) :
    recordedField a tab f more ∈ f :: more := by
  cases more with
  | nil => exact List.mem_cons_self
  | cons g more =>
    have h : Config.badConfigPick a tab % ((g :: more).length + 1) < (f :: g :: more).length :=
      Nat.mod_lt _ (Nat.succ_pos _)
    rw [recordedField, List.getD_eq_getElem _ _ h]
    exact List.getElem_mem h

/-- All that SYS.RESET can do: install its operands, or raise BAD_CONFIG on one that is named. -/
theorem execSysReset_cases (a : ResetArgs) (tab : Option DescTable) (s : State) :
    (illegalFields a tab = [] ∧ ∃ t, tab = some t ∧ execSysReset a tab s = .next (resetState s (cfgOf a) t)) ∨
    ∃ f ∈ illegalFields a tab, execSysReset a tab s = .next (raise { s with ready := false } (.badConfig f)) := by
  cases h : illegalFields a tab with
  | nil =>
    refine .inl ⟨rfl, ?_⟩
    cases tab with
    | none => exact absurd ((illegalFields_nil a none).mp h).2.2.2.2 (by simp [tableGivenLegal])
    | some t => exact ⟨t, rfl, by simp only [execSysReset, h, Option.getD_some]⟩
  | cons f more => exact .inr ⟨_, recordedField_mem a tab f more, by simp only [execSysReset, h]⟩

end Sys2Proof.Machine
end

