-- ==== Sys2Proof/Tests/Slice0.lean ====
section
/-! SUPPORT. Sys2Proof/Tests/Slice0.lean: small tests against values the spec prints, and for every statement a state and
operands that meet its hypotheses. -/

-- Each kernel evaluation waits for the declarations before it; checked side by side they only hold threads and memory.
set_option Elab.async false

namespace Sys2Proof.Tests

open Sys2Proof Sys2Proof.Machine Sys2Proof.Safety

/-! ### Helpers -/

/-- The report an operation leaves. -/
def reportOf : Outcome → Option Report
  | .next t => some t.report
  | .fault _ => none
  | .refused _ => none

/-- The receive buffer an operation leaves. -/
def bufferOf : Outcome → Option Bytes
  | .next t => some t.rxbuf
  | .fault _ => none
  | .refused _ => none

/-- The operation answers the next state `u`. -/
def answers (o : Outcome) (u : State) : Bool :=
  match o with
  | .next t => decide (t = u)
  | .fault _ => false
  | .refused _ => false

/-- What `answers` says. -/
theorem eq_next {o : Outcome} {u : State} (h : answers o u = true) : o = .next u := by
  cases o <;> simp_all [answers]

/-- The operation run after reset. -/
def fresh (i : Instr) : Option Report := reportOf (exec i State.reset)

/-- A decoded message as a report. -/
def gives (m : Message) (st : DecStatus) : Option Report := some (.ok (.message m st))

/-- The state after reset with a receive buffer. -/
def holding (B : Bytes) : State := { State.reset with rxbuf := B }

/-- The state after reset with other buffer limits. -/
def limited (maxBuffer lenCap : Nat) (B : Bytes) : State :=
  { State.reset with rxbuf := B, cfg := { Config.resetCfg with maxBufferSize := maxBuffer, lenCap := lenCap } }

/-- The payload `P1` and its frame `F1` (spec/95_test_vectors.md section 2). -/
def p1 : Bytes := [0x20, 0x00, 0x01, 0x80, 0xFF, 0x01, 0x80, 0x15, 0x01, 0x01, 0x40, 0x00, 0x01]
def f1 : Bytes := [0x32, 0x00, 0x11] ++ p1 ++ [0xF9, 0xEE, 0x34]

/-- The payload `P3`: one structure dataset. -/
def p3 : Bytes :=
  [0x20, 0x00, 0x01, 0x80, 0xFF, 0x01, 0x80, 0x14, 0x05, 0x01, 0x06, 0x01, 0x03, 0x40, 0x00, 0x01, 0x04, 0x42, 0x01, 0x00,
    0xEB]

/-- The frame of the empty payload (V-FA-11). -/
def emptyFrame : Bytes := [0x32, 0x00, 0x04, 0x00, 0x00, 0x34]

def home : Address := ⟨0x80, 0x00, 0x01⟩
def peer : Address := ⟨0x20, 0x00, 0x01⟩

/-- The envelope of V-EP-1. -/
def env1 : Envelope := ⟨peer, ⟨0x80, 0xFF, 0x01⟩, 1, 0, 0, 0, 1, 5, 1, 1, [⟨0x4000, 0, [0x01], none⟩]⟩

/-- An envelope with a lone structure. -/
def env3 : Envelope := { env1 with datasets := [⟨0x0601, 3, [0x02, 0x40, 0x00], none⟩] }

/-! ### Ill-formed terms, for each check of WellFormed -/

theorem test_wf_rejects_index : (Instr.dsK0 0 0 ⟨1, 10, 1⟩ []).wf = false := by decide
theorem test_wf_rejects_count : (Instr.dsK1 0 0 ⟨0, 10, 256⟩ []).wf = false := by decide
theorem test_wf_rejects_offset : (Instr.dsK2 0 0 ⟨0, 9, 1⟩ []).wf = false := by decide
theorem test_wf_rejects_walk_k3 : (Instr.dsK3 0 0 ⟨1, 10, 1⟩ []).wf = false := by decide
theorem test_wf_rejects_width : (Instr.decInt (Config.intBody 3 false none) []).wf = false := by decide
theorem test_wf_rejects_missing_width : (Instr.decBool Config.plainBody []).wf = false := by decide
theorem test_wf_rejects_arithmetic : (Instr.decTemp (Config.scaledBody 2 true 0) []).wf = false := by decide +kernel
theorem test_wf_rejects_unsigned_flag : (Instr.encBool 0x4000 (Config.intBody 1 false none) (.bool true)).wf = false := by
  decide
theorem test_wf_rejects_empty_set : (Instr.encEnum 0x4001 (Config.enumBody 1 [] none) (.enum 0)).wf = false := by decide
theorem test_wf_rejects_wide_code :
    (Instr.decEnum (Config.enumBody 1 [(256, "M")] none) []).wf = false := by decide
theorem test_wf_rejects_default : (Instr.decInt (Config.intBody 2 false (some (.enum 0))) []).wf = false := by decide
theorem test_wf_accepts_scaled : (Instr.decTemp (Config.scaledBody 2 true (1/10)) []).wf = true := by decide +kernel

/-! ### Decoding: the bytes written out from R90, R71, R77, R78, R82 and R85 -/

theorem test_decode_system (a : ResetArgs) (tab : Option DescTable) :
    decode ⟨.op, [0x00], .reset a tab⟩ = .ok (.sysReset a tab) ∧ decode ⟨.op, [0x02], .none⟩ = .ok .faFlush :=
  ⟨rfl, rfl⟩

theorem test_decode_crc :
    decode ⟨.op, [0x10], .none⟩ = .ok .crcInit ∧ decode ⟨.op, [0x11, 0xA5], .none⟩ = .ok (.crcByte 0xA5) ∧
    decode ⟨.op, [0x12, 1, 2, 3], .none⟩ = .ok (.crcBlock [1, 2, 3]) ∧
    decode ⟨.op, [0x13, 0xF9, 0xEE], .none⟩ = .ok (.crcCheck 0xF9EE) :=
  ⟨rfl, rfl, rfl, rfl⟩

theorem test_decode_wire :
    decode ⟨.op, [0x20, 0x32, 0x00], .none⟩ = .ok (.faPush [0x32, 0x00]) ∧
    decode ⟨.op, [0x30, 0x20], .none⟩ = .ok (.epParse [0x20]) ∧
    decode ⟨.op, [0x31], .envelope env1⟩ = .ok (.epFilter env1) ∧
    decode ⟨.op, [0x32, 0x20], .none⟩ = .ok (.epDecode [0x20]) ∧
    decode ⟨.op, [0x50], .envelope env1⟩ = .ok (.epBuild env1) ∧
    decode ⟨.op, [0x51, 0x20], .none⟩ = .ok (.faBuild [0x20]) :=
  ⟨rfl, rfl, rfl, rfl, rfl, rfl⟩

theorem test_decode_codec (m : Message) :
    decode ⟨.op, [0x40, 0x42, 0x01, 0x00, 0xEB], .none⟩ = .ok (.wcDecode 0x4201 [0x00, 0xEB]) ∧
    decode ⟨.op, [0x41, 0x42, 0x01], .message m⟩ = .ok (.wcEncode 0x4201 m) :=
  ⟨rfl, rfl⟩

theorem test_decode_frame :
    decode ⟨.frame, [0x32], .none⟩ = .ok .stx ∧ decode ⟨.frame, [0x34], .none⟩ = .ok .etx ∧
    decode ⟨.frame, [0x33], .none⟩ = .error (.unassigned .frame 0x33) :=
  ⟨rfl, rfl, rfl⟩

theorem test_decode_packet_type (a b : Address) :
    decode ⟨.packetType, [0x05], .addresses a b⟩ = .ok (.ptStandby 5 a b) ∧
    decode ⟨.packetType, [0x15], .addresses a b⟩ = .ok (.ptNormal 5 a b) ∧
    decode ⟨.packetType, [0x25], .addresses a b⟩ = .ok (.ptGathering 5 a b) ∧
    decode ⟨.packetType, [0x35], .addresses a b⟩ = .ok (.ptInstall 5 a b) ∧
    decode ⟨.packetType, [0x4F], .addresses a b⟩ = .ok (.ptDownload 15 a b) ∧
    decode ⟨.packetType, [0x5F], .addresses a b⟩ = .error (.unassigned .packetType 0x5F) :=
  ⟨rfl, rfl, rfl, rfl, rfl, rfl⟩

theorem test_decode_payload_type (a b : Address) :
    decode ⟨.payloadType, [0x10], .addresses a b⟩ = .ok (.dtUndefined 1 a b) ∧
    decode ⟨.payloadType, [0x11], .addresses a b⟩ = .ok (.dtRead 1 a b) ∧
    decode ⟨.payloadType, [0x12], .addresses a b⟩ = .ok (.dtWrite 1 a b) ∧
    decode ⟨.payloadType, [0x13], .addresses a b⟩ = .ok (.dtRequest 1 a b) ∧
    decode ⟨.payloadType, [0x14], .addresses a b⟩ = .ok (.dtNotification 1 a b) ∧
    decode ⟨.payloadType, [0x15], .addresses a b⟩ = .ok (.dtResponse 1 a b) ∧
    decode ⟨.payloadType, [0x16], .addresses a b⟩ = .ok (.dtAck 1 a b) ∧
    decode ⟨.payloadType, [0x57], .addresses a b⟩ = .ok (.dtNack 5 a b) ∧
    decode ⟨.payloadType, [0x18], .addresses a b⟩ = .error (.unassigned .payloadType 0x18) :=
  ⟨rfl, rfl, rfl, rfl, rfl, rfl, rfl, rfl, rfl⟩

theorem test_decode_dataset (p : WalkPos) :
    decode ⟨.dataset, [0x40, 0x03, 0xFF], .walk p⟩ = .ok (.dsK0 8 3 p [0xFF]) ∧
    decode ⟨.dataset, [0x42, 0x01, 0x00, 0xEB], .walk p⟩ = .ok (.dsK1 8 1 p [0x00, 0xEB]) ∧
    decode ⟨.dataset, [0x85, 0x01], .walk p⟩ = .ok (.dsK2 16 257 p []) ∧
    decode ⟨.dataset, [0x06, 0x01], .walk p⟩ = .ok (.dsK3 0 1 p []) :=
  ⟨rfl, rfl, rfl, rfl⟩

theorem test_decode_dec_arms (d : DescBody) :
    decode ⟨.decArm, [0x00, 7], .descriptor d⟩ = .ok (.decRaw d [7]) ∧
    decode ⟨.decArm, [0x01, 7], .descriptor d⟩ = .ok (.decBool d [7]) ∧
    decode ⟨.decArm, [0x02, 7], .descriptor d⟩ = .ok (.decEnum d [7]) ∧
    decode ⟨.decArm, [0x03, 7], .descriptor d⟩ = .ok (.decInt d [7]) ∧
    decode ⟨.decArm, [0x04, 7], .descriptor d⟩ = .ok (.decFloat d [7]) ∧
    decode ⟨.decArm, [0x05, 7], .descriptor d⟩ = .ok (.decTemp d [7]) ∧
    decode ⟨.decArm, [0x06, 7], .descriptor d⟩ = .ok (.decPower d [7]) ∧
    decode ⟨.decArm, [0x07, 7], .descriptor d⟩ = .ok (.decEnergy d [7]) ∧
    decode ⟨.decArm, [0x08, 7], .descriptor d⟩ = .ok (.decCurrent d [7]) ∧
    decode ⟨.decArm, [0x09, 7], .descriptor d⟩ = .ok (.decString d [7]) ∧
    decode ⟨.decArm, [0x0A, 7], .descriptor d⟩ = .ok (.decStruct d [7]) ∧
    decode ⟨.decArm, [0x0B, 7], .descriptor d⟩ = .error (.unassigned .decArm 0x0B) :=
  ⟨rfl, rfl, rfl, rfl, rfl, rfl, rfl, rfl, rfl, rfl, rfl, rfl⟩

theorem test_decode_enc_arms (d : DescBody) (m : Message) :
    decode ⟨.encArm, [0x00, 0x42, 0x01], .encoding d m⟩ = .ok (.encRaw 0x4201 d m) ∧
    decode ⟨.encArm, [0x01, 0x42, 0x01], .encoding d m⟩ = .ok (.encBool 0x4201 d m) ∧
    decode ⟨.encArm, [0x02, 0x42, 0x01], .encoding d m⟩ = .ok (.encEnum 0x4201 d m) ∧
    decode ⟨.encArm, [0x03, 0x42, 0x01], .encoding d m⟩ = .ok (.encInt 0x4201 d m) ∧
    decode ⟨.encArm, [0x04, 0x42, 0x01], .encoding d m⟩ = .ok (.encFloat 0x4201 d m) ∧
    decode ⟨.encArm, [0x05, 0x42, 0x01], .encoding d m⟩ = .ok (.encTemp 0x4201 d m) ∧
    decode ⟨.encArm, [0x06, 0x42, 0x01], .encoding d m⟩ = .ok (.encPower 0x4201 d m) ∧
    decode ⟨.encArm, [0x07, 0x42, 0x01], .encoding d m⟩ = .ok (.encEnergy 0x4201 d m) ∧
    decode ⟨.encArm, [0x08, 0x42, 0x01], .encoding d m⟩ = .ok (.encCurrent 0x4201 d m) ∧
    decode ⟨.encArm, [0x09, 0x42, 0x01], .encoding d m⟩ = .ok (.encString 0x4201 d m) ∧
    decode ⟨.encArm, [0x0A, 0x42, 0x01], .encoding d m⟩ = .ok (.encStruct 0x4201 d m) :=
  ⟨rfl, rfl, rfl, rfl, rfl, rfl, rfl, rfl, rfl, rfl, rfl⟩

theorem test_decode_rejects :
    decode ⟨.op, [0x01], .none⟩ = .error (.badOp 0x01) ∧ decode ⟨.op, [], .none⟩ = .error (.noSelector .op) ∧
    decode ⟨.op, [0x10, 0x00], .none⟩ = .error (.badOpOperands 0x10) ∧
    decode ⟨.dataset, [0x40], .walk ⟨0, 10, 1⟩⟩ = .error (.noSelector .dataset) :=
  ⟨rfl, rfl, rfl, rfl⟩

/-! ### Single steps, the expected values from spec/95_test_vectors.md section 4 -/

/-- V-SY-1: a good reset; the state is `State.reset`. -/
theorem test_reset_from_power_on :
    exec (.sysReset Config.resetArgs (some Config.testTable)) State.powerOn = .next State.reset :=
  eq_next (by decide +kernel)

/-- V-SY-2: a bound below 6. -/
theorem test_reset_bad_buffer :
    fresh (.sysReset { Config.resetArgs with maxBufferSize := some 5 } (some [])) =
      some (.raised (.badConfig .maxBufferSize)) := by decide +kernel

/-- A `ROUND` that is further than 1/2 from its argument (R144): the floor, or a nearest rule with one value too far. -/
theorem test_reset_bad_round :
    fresh (.sysReset { Config.resetArgs with round := some ⟨[], .directed .floor⟩ } (some [])) =
      some (.raised (.badConfig .round)) ∧
    fresh (.sysReset { Config.resetArgs with round := some ⟨[(1/4, 1)], .nearest .halfUp⟩ } (some [])) =
      some (.raised (.badConfig .round)) := by decide +kernel

/-- A SYS.RESET without the address that must be given, and one without a table. -/
theorem test_reset_missing :
    fresh (.sysReset { Config.resetArgs with localAddr := none } (some [])) = some (.raised (.badConfig .localAddr)) ∧
    fresh (.sysReset Config.resetArgs none) = some (.raised (.badConfig .descTable)) := by decide +kernel

/-- The tie `FLOAT 1/4` at resolution 1/2 (R144): 0 by default, 1 under half-up, 1 where the host gives that value; and
under the written rule that a tie goes up when 3 divides its lower neighbour, the tie between 0 and 1 goes up, the one
between 1 and 2 down. -/
theorem test_round :
    let encode (q : Rat) (r : RoundRule) := reportOf (exec (.wcEncode 0x4204 (.float q))
      { State.reset with cfg := { Config.resetCfg with round := r } })
    let encodeUnder := encode (1/4)
    let whenThreeDivides : TieTest := .le (.mod .floor (.num 3)) (.num 0)
    encodeUnder ⟨[], .nearest (.upWhen whenThreeDivides)⟩ = some (.ok (.bytes [0x00, 0x01])) ∧
    encode (3/4) ⟨[], .nearest (.upWhen whenThreeDivides)⟩ = some (.ok (.bytes [0x00, 0x01])) ∧
    encodeUnder .halfToEven = some (.ok (.bytes [0x00, 0x00])) ∧
    encodeUnder ⟨[], .nearest .halfUp⟩ = some (.ok (.bytes [0x00, 0x01])) ∧
    encodeUnder ⟨[(1/2, 1)], .nearest .halfToEven⟩ = some (.ok (.bytes [0x00, 0x01])) := by decide +kernel

/-- A table that holds an id twice is no map. -/
theorem test_reset_repeated_id :
    fresh (.sysReset Config.resetArgs (some [(0x4000, ⟨1, Config.boolBody 1⟩), (0x4000, ⟨1, Config.boolBody 1⟩)])) =
      some (.raised (.badConfig .descTable)) := by decide +kernel

/-- V-SY-4: flush. -/
theorem test_flush : bufferOf (exec .faFlush (holding [0x32, 0x00, 0x11, 0x20])) = some [] := by decide +kernel

/-- V-SY-7: before any reset. -/
theorem test_not_ready : reportOf (exec .faFlush State.powerOn) = some (.raised .notReady) := by decide +kernel

/-- V-SY-6: an unassigned select code. -/
theorem test_bad_op :
    reportOf (step { State.reset with inbox := [⟨.op, [0x01], .none⟩] }) = some (.raised (.badOp 0x01)) := by
  decide +kernel

/-- A descriptor without a width is in no legal table: the command is refused. -/
theorem test_ill_formed : (match step { State.reset with inbox := [⟨.decArm, [0x03], .descriptor Config.plainBody⟩] } with
    | .refused r => r == .badOperands .decArm
    | _ => false) = true := by decide +kernel

/-- V-CRC-3, as a step of CRC.BYTE from zero. -/
theorem test_crc_byte : (match exec (.crcByte 0x01) State.reset with
    | .next t => some t.crcAcc
    | _ => none) = some 0x1021 := by decide +kernel

/-- V-CRC-6, the catalogue check value. -/
theorem test_crc_block :
    fresh (.crcBlock [0x31, 0x32, 0x33, 0x34, 0x35, 0x36, 0x37, 0x38, 0x39]) = some (.ok (.crc 0x31C3)) := by
  decide +kernel

/-- V-CRC-7. -/
theorem test_crc_check : reportOf (exec (.crcCheck 0xF9EF) { State.reset with crcAcc := 0xF9EE }) =
    some (.ok (.truth false)) := by decide +kernel

/-- V-FA-1. -/
theorem test_push_frame : fresh (.faPush f1) = some (.ok (.events [.emit p1, .stopEmpty])) := by decide +kernel

/-- V-FA-13: the jump. -/
theorem test_push_jump :
    fresh (.faPush ([0x32, 0x0C, 0x00, 0x11, 0x22] ++ f1)) =
      some (.ok (.events [.jumpStx 5, .emit p1, .stopEmpty])) := by decide +kernel

/-- V-FA-19: one byte 0x32. -/
theorem test_stx : fresh .stx = some (.ok (.events [.waitHeader 1])) := by decide +kernel

/-- V-FA-3: the last byte of a frame. -/
theorem test_etx : reportOf (exec .etx (holding (f1.take 18))) = some (.ok (.events [.emit p1, .stopEmpty])) := by
  decide +kernel

/-- V-EP-1. -/
theorem test_parse : fresh (.epParse p1) = some (.ok (.envelope env1)) := by decide +kernel

/-- V-EP-16: kind 3 second of two is found before the end of the payload. -/
theorem test_parse_mixed :
    fresh (.epParse [0x20, 0x00, 0x01, 0x80, 0xFF, 0x01, 0x80, 0x14, 0x05, 0x02, 0x40, 0x00, 0x01, 0x06, 0x01]) =
      some (.raised (.errStructMixed 1 13)) := by decide +kernel

/-- Program 5.1, line 4. -/
theorem test_decode_payload :
    fresh (.epDecode p1) = some (.ok (.envelope
      { env1 with datasets := [⟨0x4000, 0, [0x01], some (.bool true, .ok)⟩] })) := by decide +kernel

/-- V-FL-1. -/
theorem test_filter : fresh (.epFilter env1) = some (.ok (.verdict (.forward peer))) := by decide +kernel

/-- V-FL-2 and V-FL-3, by the packet type. -/
theorem test_packet_types :
    fresh (.ptStandby 5 peer home) = some (.ok (.verdict .drop)) ∧
    fresh (.ptNormal 5 peer home) = some (.ok (.verdict (.forward peer))) ∧
    fresh (.ptGathering 5 peer home) = some (.ok (.verdict .drop)) := by decide +kernel

/-- R77: INSTALL and DOWNLOAD packets are not dispatched. -/
theorem test_packet_types_rest :
    fresh (.ptInstall 2 peer home) = some (.ok (.verdict .drop)) ∧
    fresh (.ptDownload 2 peer home) = some (.ok (.verdict .drop)) := by decide +kernel

/-- V-FL-4 to V-FL-7: from the local address. -/
theorem test_payload_types_local :
    fresh (.dtWrite 1 home peer) = some (.ok (.verdict (.forward peer))) ∧
    fresh (.dtRequest 1 home peer) = some (.ok (.verdict (.forward peer))) ∧
    fresh (.dtResponse 1 home peer) = some (.ok (.verdict .drop)) ∧
    fresh (.dtRead 1 home peer) = some (.ok (.verdict .drop)) ∧
    fresh (.dtNotification 1 home peer) = some (.ok (.verdict .drop)) := by decide +kernel

/-- V-FL-8 to V-FL-13: from a peer. -/
theorem test_payload_types_peer :
    fresh (.dtRequest 1 peer home) = some (.ok (.verdict .drop)) ∧
    fresh (.dtWrite 1 peer home) = some (.ok (.verdict (.forward peer))) ∧
    fresh (.dtAck 1 peer home) = some (.ok (.verdict .drop)) ∧
    fresh (.dtNack 1 peer home) = some (.ok (.verdict .drop)) ∧
    fresh (.dtNotification 1 peer home) = some (.ok (.verdict (.forward peer))) ∧
    fresh (.dtUndefined 1 peer home) = some (.ok (.verdict .drop)) := by decide +kernel

/-- The datasets of V-EP-1, V-EP-2 and V-EP-3, one walk step each. -/
theorem test_width_kinds :
    fresh (.dsK0 8 0 ⟨0, 10, 1⟩ [0x01]) = some (.ok (.dataset ⟨0x4000, 0, [0x01], none⟩ 13)) ∧
    fresh (.dsK1 8 2 ⟨1, 14, 2⟩ [0xFF, 0xFE]) = some (.ok (.dataset ⟨0x4202, 1, [0xFF, 0xFE], none⟩ 18)) ∧
    fresh (.dsK2 16 1 ⟨0, 10, 1⟩ [0x00, 0x01, 0xE2, 0x40]) =
      some (.ok (.dataset ⟨0x8401, 2, [0x00, 0x01, 0xE2, 0x40], none⟩ 16)) ∧
    fresh (.dsK3 0 1 ⟨0, 10, 1⟩ []) = some (.ok (.dataset ⟨0x0601, 3, [], none⟩ 12)) := by decide +kernel

/-- V-EP-9 and V-EP-14. -/
theorem test_width_kinds_causes :
    fresh (.dsK1 8 1 ⟨1, 13, 2⟩ [0x00]) = some (.raised (.errDsUnderrun 1 13)) ∧
    fresh (.dsK3 0 1 ⟨0, 10, 2⟩ [0x03]) = some (.raised (.errStructMixed 0 10)) := by decide +kernel

/-- V-WD-9: the default of an enum. -/
theorem test_wc_decode : fresh (.wcDecode 0x4002 [0x05]) = gives (.enum 0) .defaulted := by decide +kernel

/-- V-WD-48: nesting. -/
theorem test_wc_decode_nested :
    fresh (.wcDecode 0x0601 [0x06, 0x06, 0x01, 0x03, 0x40, 0x00, 0x01, 0x03, 0x40, 0x01, 0x00]) =
      gives (.struct (.cons 0x0601 (.struct (.cons 0x4000 (.bool true) .ok .nil)) .ok
        (.cons 0x4001 (.enum 0) .ok .nil))) .ok := by decide +kernel

/-- V-WD-24, V-WD-3, V-WD-7, V-WD-16, V-WD-17. -/
theorem test_dec_arms_plain :
    fresh (.decRaw Config.plainBody [0xDE, 0xAD]) = gives (.raw [0xDE, 0xAD]) .ok ∧
    fresh (.decBool (Config.boolBody 1) [0x02]) = gives (.bool true) .ok ∧
    fresh (.decEnum (Config.enumBody 1 [(0, "M0"), (1, "M1")] none) [0x03]) = gives (.raw [0x03]) .error ∧
    fresh (.decInt (Config.intBody 2 true none) [0xFF, 0xFE]) = gives (.int (-2)) .ok ∧
    fresh (.decFloat (Config.scaledBody 2 false (1/2)) [0x00, 0x03]) = gives (.float (3/2)) .ok := by decide +kernel

/-- V-WD-13, V-WD-19, V-WD-21, V-WD-11, V-WD-23, V-WD-44. -/
theorem test_dec_arms_scaled :
    fresh (.decTemp (Config.scaledBody 2 true (1/10)) [0x80, 0x00]) = gives (.temp (-16384/5)) .ok ∧
    fresh (.decPower (Config.scaledBody 4 false 1) [0x00, 0x01, 0xE2, 0x40]) = gives (.power 123456) .ok ∧
    fresh (.decEnergy (Config.scaledBody 4 false (1/10)) [0xFF, 0xFF, 0xFF, 0xFF]) =
      gives (.energy (858993459/2)) .ok ∧
    fresh (.decCurrent (Config.scaledBody 1 false (1/10)) [0xFF]) = gives (.current (51/2)) .ok ∧
    fresh (.decString Config.plainBody [0xFF, 0x00]) = gives (.string [0xFF, 0x00]) .ok ∧
    fresh (.decStruct Config.plainBody [0x02, 0x40, 0x00]) =
      gives (.struct (.cons 0x4000 (.raw []) .error .nil)) .ok := by decide +kernel

/-- V-WE-18 and V-WE-2. -/
theorem test_wc_encode :
    fresh (.wcEncode 0x0601 (.struct (.cons 0x4000 (.bool true) .ok (.cons 0x4201 (.temp (47/2)) .ok .nil)))) =
      some (.ok (.bytes [0x03, 0x40, 0x00, 0x01, 0x04, 0x42, 0x01, 0x00, 0xEB])) ∧
    fresh (.wcEncode 0x4000 (.int 1)) = some (.raised (.encType 0x4000)) := by decide +kernel

/-- V-WE-17, V-WE-1, V-WE-3, V-WE-11, V-WE-12 (a tie). -/
theorem test_enc_arms_plain :
    fresh (.encRaw 0x0603 Config.plainBody (.raw [0xDE, 0xAD])) = some (.ok (.bytes [0xDE, 0xAD])) ∧
    fresh (.encBool 0x4000 (Config.boolBody 1) (.bool true)) = some (.ok (.bytes [0x01])) ∧
    fresh (.encEnum 0x4001 (Config.enumBody 1 [(4, "M4")] none) (.enum 3)) = some (.raised (.encRange 0x4001)) ∧
    fresh (.encInt 0x4203 (Config.intBody 2 true none) (.int (-32769))) = some (.raised (.encRange 0x4203)) ∧
    fresh (.encFloat 0x4204 (Config.scaledBody 2 false (1/2)) (.float (5/4))) = some (.ok (.bytes [0x00, 0x02])) := by
  decide +kernel

/-- V-WE-8 (a negative tie), V-WE-13, V-WE-15, V-WE-4, V-WE-17, V-WE-21. -/
theorem test_enc_arms_scaled :
    fresh (.encTemp 0x4201 (Config.scaledBody 2 true (1/10)) (.temp (-3/20))) = some (.ok (.bytes [0xFF, 0xFE])) ∧
    fresh (.encPower 0x8401 (Config.scaledBody 4 false 1) (.power 4294967296)) = some (.raised (.encRange 0x8401)) ∧
    fresh (.encEnergy 0x8403 (Config.scaledBody 4 false (1/10)) (.energy (858993459/2))) =
      some (.ok (.bytes [0xFF, 0xFF, 0xFF, 0xFF])) ∧
    fresh (.encCurrent 0x4003 (Config.scaledBody 1 false (1/10)) (.current (-1/10))) =
      some (.raised (.encRange 0x4003)) ∧
    fresh (.encString 0x0602 Config.plainBody (.string [0x48])) = some (.ok (.bytes [0x48])) ∧
    fresh (.encStruct 0x0601 Config.plainBody (.struct (.cons 0x9999 (.raw [0x01, 0x02]) .ok .nil))) =
      some (.ok (.bytes [0x04, 0x99, 0x99, 0x01, 0x02])) := by decide +kernel

/-- V-BD-1 and V-BD-2. -/
theorem test_build :
    fresh (.epBuild env1) = some (.ok (.bytes p1)) ∧ fresh (.faBuild p1) = some (.ok (.bytes f1)) := by decide +kernel

/-- The table word 0x10 is CRC.INIT and the next step runs it. -/
theorem test_table_word :
    decodeTableWord 8 0x10 = some .crcInit ∧
    step (State.reset.withFetchWord 8 0x10) = .next State.reset :=
  ⟨rfl, eq_next (by decide +kernel)⟩

/-! ### Witnesses: a state and operands that meet the hypotheses of each statement

The statements not named below either have no hypotheses (ResetStateIsAsStated, EveryInstructionAnswersNext,
DecodeInvertsTheEncoder, WrittenOutCommandsDecode) or only the one that the block is ready
(CrcInitLoadsSeed, CrcByteFollowsPseudocode, CrcBlockFoldsFromSeed, CrcStreamingEqualsBlock, CrcBlindSpotAndResidue,
PushEndsInOneStopEvent, EmptyPushRepeatsTheStop, EmptyDatasetListParses, FilterFollowsTheTable,
PacketTypeRowsFollowTheTable, PayloadTypeRowsFollowTheTable, DecodeRawAndStringKeepOctets,
EncodeRawAndStringKeepOctets, FlushEmptiesTheReceiveBuffer), which `witness_ready` meets. -/

theorem witness_ready : State.reset.ready = true := rfl

theorem witness_CrcDetectsEverySingleBitFlip : State.reset.ready = true ∧ 12 < p1.length ∧ 7 < 8 := by decide

/-- One byte more than `MAX_BUFFER_SIZE`, for each of the three instructions. -/
theorem witness_OverflowDropsTheWholeBuffer :
    (limited 6 6 [0x32, 0x00, 0x05, 0x00, 0x00, 0x00]).ready = true ∧
    6 < ((limited 6 6 [0x32, 0x00, 0x05, 0x00, 0x00, 0x00]).rxbuf ++ [0x32]).length ∧
    6 < ((limited 6 6 [0x32, 0x00, 0x05, 0x00, 0x00, 0x00]).rxbuf ++ [0x34]).length := by decide

/-- Exactly `MAX_BUFFER_SIZE` bytes. -/
theorem witness_PushFollowsTheStepRules :
    (limited 6 6 [0x32, 0x00, 0x04, 0x00, 0x00]).ready = true ∧
    ((limited 6 6 [0x32, 0x00, 0x04, 0x00, 0x00]).rxbuf ++ [0x34]).length ≤ 6 := by decide

/-- A frame in two chunks. -/
theorem witness_EmissionsDoNotDependOnChunking :
    State.reset.ready = true ∧
    (pushAll [[0x32, 0x00], [0x04, 0x00, 0x00, 0x34]] State.reset).1 = [.waitHeader 2, .emit [], .stopEmpty] ∧
    (pushAll [[0x32, 0x00, 0x04, 0x00, 0x00, 0x34]] State.reset).1 = [.emit [], .stopEmpty] := by decide +kernel

/-- Its event lists hold neither an overflow nor a jump. -/
theorem witness_quiet :
    NoOverflowNoJump [.waitHeader 2, .emit [], .stopEmpty] ∧ NoOverflowNoJump [.emit [], .stopEmpty] := by
  simp [NoOverflowNoJump]

/-- Garbage, frame, garbage, frame in two chunks; both frames well within the slack. -/
theorem witness_ResyncYieldsBothFrames :
    State.reset.ready = true ∧ State.reset.rxbuf = [] ∧ State.reset.cfg.lenCap ≤ 65537 ∧ 6 ≤ State.reset.cfg.lenCap ∧
    NoStx [0xFF] ∧ NoStx [0x00, 0x34] ∧
    exec (.faBuild []) State.reset = .next { State.reset with report := .ok (.bytes emptyFrame) } ∧
    [[0xFF, 0x32, 0x00], [0x04, 0x00, 0x00, 0x34, 0x00, 0x34, 0x32, 0x00, 0x04, 0x00, 0x00, 0x34]].flatten =
      [0xFF] ++ emptyFrame ++ [0x00, 0x34] ++ emptyFrame ∧
    ([0xFF] ++ emptyFrame ++ [0x00, 0x34] ++ emptyFrame).length ≤ State.reset.cfg.maxBufferSize ∧
    emptyFrame.length ≤ State.reset.cfg.jumpSlack + 3 := by
  refine ⟨rfl, rfl, by decide, by decide, by simp [NoStx], by simp [NoStx], eq_next (by decide +kernel), rfl, by decide,
    by decide⟩

/-- And its event list holds neither an overflow nor a jump. -/
theorem witness_ResyncYieldsBothFrames_quiet :
    (pushAll [[0xFF, 0x32, 0x00], [0x04, 0x00, 0x00, 0x34, 0x00, 0x34, 0x32, 0x00, 0x04, 0x00, 0x00, 0x34]]
      State.reset).1 =
      [.discardPrefix 1, .waitHeader 2, .emit [], .discardPrefix 2, .emit [], .stopEmpty] ∧
    NoOverflowNoJump [.discardPrefix 1, .waitHeader 2, .emit [], .discardPrefix 2, .emit [], .stopEmpty] :=
  ⟨by decide +kernel, by simp [NoOverflowNoJump]⟩

/-- The invariant holds after reset, and a push is a step from there. -/
theorem witness_StepKeepsReceiveBufferInvariant :
    BlockInv { State.reset with inbox := [⟨.op, [0x20, 0x32], .none⟩] } ∧
    ∃ t, step { State.reset with inbox := [⟨.op, [0x20, 0x32], .none⟩] } = .next t ∧ t.rxbuf = [0x32] := by
  refine ⟨fun _ => ⟨?_, by decide +kernel, ?_⟩, { holding [0x32] with report := .ok (.events [.waitHeader 1]) },
    eq_next (by decide +kernel), rfl⟩
  · exact ⟨by decide, by decide, by decide, (roundLegal_iff _).mp roundLegal_halfToEven⟩
  · exact ⟨by decide, .inl rfl⟩

/-- The two sides of the length limit. -/
theorem witness_FrameBuildFramesThePayload :
    State.reset.ready = true ∧ 65535 < (List.replicate 65532 (0 : Byte)).length + 4 ∧
    (List.replicate 65531 (0 : Byte)).length + 4 ≤ 65535 := by
  rw [List.length_replicate, List.length_replicate]
  decide

/-- A frame of exactly `LEN_CAP` and `MAX_BUFFER_SIZE` bytes. -/
theorem witness_BuiltFrameIsReceived :
    (limited 6 6 []).ready = true ∧ (limited 6 6 []).rxbuf = [] ∧ (limited 6 6 []).cfg.lenCap ≤ 65537 ∧
    ([] : Bytes).length + 6 ≤ (limited 6 6 []).cfg.lenCap ∧
    ([] : Bytes).length + 6 ≤ (limited 6 6 []).cfg.maxBufferSize := by decide

theorem witness_DamagedFrameFailsTheCrcStep :
    (limited 7 7 []).ready = true ∧ (limited 7 7 []).rxbuf = [] ∧ (limited 7 7 []).cfg.lenCap ≤ 65537 ∧
    ([0x01] : Bytes).length + 6 ≤ (limited 7 7 []).cfg.lenCap ∧
    ([0x01] : Bytes).length + 6 ≤ (limited 7 7 []).cfg.maxBufferSize ∧ 0 < ([0x01] : Bytes).length ∧ 7 < 8 := by decide

theorem witness_OverlongBuiltFrameIsDropped :
    (limited 7 6 []).ready = true ∧ (limited 7 6 []).rxbuf = [] ∧ ([0x01] : Bytes).length + 6 ≤ 65537 ∧
    (limited 7 6 []).cfg.lenCap < ([0x01] : Bytes).length + 6 ∧
    ([0x01] : Bytes).length + 6 ≤ (limited 7 6 []).cfg.maxBufferSize := by decide

/-- A buildable envelope, for PayloadBuildLaysOutTheEnvelope, ParseInvertsBuild and DecodeIsParseThenCodec. -/
theorem witness_PayloadBuildLaysOutTheEnvelope : State.reset.ready = true ∧ Buildable env1 ∧ Buildable env3 := by
  refine ⟨rfl, ⟨by decide, ?_, ?_⟩, ⟨by decide, ?_, ?_⟩⟩ <;>
    simp [env1, env3, DatasetOk, kindLength]

theorem witness_ParseInvertsBuild : State.reset.ready = true ∧ Buildable env3 :=
  ⟨rfl, witness_PayloadBuildLaysOutTheEnvelope.2.2⟩

/-- And a payload that EP.PARSE rejects. -/
theorem witness_DecodeIsParseThenCodec :
    Buildable env1 ∧
    exec (.epParse []) State.reset = .next { State.reset with report := .raised (.errShortPayload 0) } :=
  ⟨witness_PayloadBuildLaysOutTheEnvelope.2.1, eq_next (by decide +kernel)⟩

/-- Too many datasets; a value of the wrong length; a structure beside another dataset. -/
theorem witness_PayloadBuildChecksInOrder :
    255 < (List.replicate 256 (⟨0x4000, 0, [0x01], none⟩ : Dataset)).length ∧
    DatasetOk ⟨0x4000, 0, [0x01], none⟩ ∧ ¬ DatasetOk ⟨0x4000, 0, [0x00, 0x01], none⟩ ∧
    DatasetOk ⟨0x0601, 3, [], none⟩ ∧
    ([⟨0x4000, 0, [0x01], none⟩, ⟨0x0601, 3, [], none⟩] : List Dataset).length ≠ 1 := by
  rw [List.length_replicate]
  simp [DatasetOk, kindLength]

theorem witness_ShortPayloadIsRejected :
    State.reset.ready = true ∧ (p1.take 9).length < 10 ∧ 10 ≤ (p1.take 10).length := by decide

theorem witness_BuildInvertsParse :
    State.reset.ready = true ∧
    exec (.epParse p1) State.reset = .next { State.reset with report := .ok (.envelope env1) } :=
  ⟨rfl, eq_next (by decide +kernel)⟩

/-- A header of nine bytes and one good dataset; then, by clause, DS_COUNT 2 and one byte left; DS_COUNT 2 and a kind 3
next; DS_COUNT 2 and a kind 1 with one value byte; DS_COUNT 1 and a byte left. -/
theorem witness_WalkRaisesTheFirstCause :
    State.reset.ready = true ∧ (p1.take 9).length = 9 ∧
    (DatasetOk ⟨0x4000, 0, [0x01], none⟩ ∧ (⟨0x4000, 0, [0x01], none⟩ : Dataset).kind ≠ 3) ∧
    (1 < (2 : Byte).toNat ∧ ([0x42] : Bytes).length < 2) ∧
    (1 < (2 : Byte).toNat ∧ (2 : Byte).toNat ≠ 1 ∧ ((0x06 : Byte) ++ (0x01 : Byte) : MsgId).extractLsb' 9 2 = 3) ∧
    (1 < (2 : Byte).toNat ∧ kindLength (((0x42 : Byte) ++ (0x01 : Byte) : MsgId).extractLsb' 9 2) = some 2 ∧
      ([0x00] : Bytes).length < 2) ∧
    (1 = (1 : Byte).toNat ∧ ([0x00] : Bytes) ≠ []) := by
  refine ⟨rfl, rfl, ⟨?_, by decide⟩, by decide, by decide, by decide, by decide⟩
  simp [DatasetOk, kindLength]

/-- Value bytes of exactly each width and of one less; DS_COUNT 1 and 2. -/
theorem witness_WidthKindRowsTakeTheirValue :
    State.reset.ready = true ∧ ([0x01] : Bytes).length = 1 ∧ ([0x00, 0xEB] : Bytes).length = 2 ∧
    ([0x00, 0x01, 0xE2, 0x40] : Bytes).length = 4 ∧ ([] : Bytes).length < 1 ∧ ([0x00] : Bytes).length < 2 ∧
    ([0x00, 0x01, 0xE2] : Bytes).length < 4 ∧ (⟨0, 10, 1⟩ : WalkPos).count = 1 ∧ (⟨0, 10, 2⟩ : WalkPos).count ≠ 1 := by
  decide

theorem witness_WidthMismatchTakesDefaultOrRaw :
    State.reset.ready = true ∧ (Config.intBody 2 false (some (.int 0))).width = some 2 ∧ ([0x01] : Bytes).length ≠ 2 := by
  decide

/-- Values 0, 1 and 2, in both modes. -/
theorem witness_DecodeBoolByValue :
    (Config.boolBody 1).width = some ([0x00] : Bytes).length ∧ bigEndian [0x00] = 0 ∧ bigEndian [0x01] = 1 ∧
    2 ≤ bigEndian [0x02] ∧ State.reset.cfg.boolNonzeroTrue = true ∧
    ({ State.reset with cfg := { Config.resetCfg with boolNonzeroTrue := false } } : State).cfg.boolNonzeroTrue =
      false := by decide

/-- A member and a code outside the set. -/
theorem witness_DecodeEnumIsClosed :
    (Config.enumBody 1 [(0, "M0"), (255, "M255")] none).width = some ([0xFF] : Bytes).length ∧
    (Config.enumBody 1 [(0, "M0"), (255, "M255")] none).enumSet = some [(0, "M0"), (255, "M255")] ∧
    bigEndian [0xFF] ∈ [(0, "M0"), (255, "M255")].map Prod.fst ∧
    bigEndian [0xFE] ∉ [(0, "M0"), (255, "M255")].map Prod.fst := by decide

theorem witness_DecodeIntReadsTheWireInteger :
    ([0x80, 0x00] : Bytes) ≠ [] ∧ (Config.intBody 2 true none).width = some ([0x80, 0x00] : Bytes).length ∧
    (Config.intBody 2 true none).signed = some true := by decide

theorem witness_DecodeScaledIsExact :
    ([0x80, 0x00] : Bytes) ≠ [] ∧ (Config.scaledBody 2 true (1/10)).width = some ([0x80, 0x00] : Bytes).length ∧
    (Config.scaledBody 2 true (1/10)).signed = some true ∧
    (Config.scaledBody 2 true (1/10)).arithmetic = some (1/10) := ⟨by decide, rfl, rfl, rfl⟩

/-- A value of the greatest length; a byte that is no TLV layout. -/
theorem witness_DecodeStructWalksTheLayout :
    (∀ e ∈ [((0x0603 : MsgId), List.replicate 253 (0 : Byte))], e.2.length ≤ 253) ∧
    ¬ ∃ es : List (MsgId × Bytes), (∀ e ∈ es, e.2.length ≤ 253) ∧ ([0x01] : Bytes) = tlvLayout es := by
  refine ⟨fun e he => ?_, ?_⟩
  · rw [List.mem_singleton.mp he, List.length_replicate]
  rintro ⟨es, -, h⟩
  have := congrArg List.length h
  cases es with
  | nil => simp [tlvLayout] at this
  | cons e es => simp [tlvLayout] at this

/-- An id without descriptor, and one of each type that the table holds. -/
theorem witness_WcDecodeSelectsTheArm :
    lookupDesc State.reset.descTable 0x9999 = none ∧
    lookupDesc State.reset.descTable 0x4000 = some ⟨1, Config.boolBody 1⟩ ∧
    lookupDesc State.reset.descTable 0x0601 = some ⟨10, Config.plainBody⟩ := by decide +kernel

/-- The same hypotheses, and a message that is RAW and one that is not. -/
theorem witness_WcEncodeSelectsTheArm :
    lookupDesc State.reset.descTable 0x9999 = none ∧ (∀ B : Bytes, Message.int 1 ≠ .raw B) ∧
    lookupDesc State.reset.descTable 0x4203 = some ⟨3, Config.intBody 2 true none⟩ := by
  exact ⟨by decide +kernel, by simp, by decide +kernel⟩

/-- A member at the top of the width and a code outside the set. -/
theorem witness_EncodeBoolAndEnum :
    (Config.enumBody 1 [(255, "M255")] none).width = some 1 ∧ 0 < 1 ∧
    (Config.enumBody 1 [(255, "M255")] none).enumSet = some [(255, "M255")] ∧
    255 ∈ [(255, "M255")].map Prod.fst ∧ 255 < 2 ^ (8 * 1) ∧ 254 ∉ [(255, "M255")].map Prod.fst := by decide

/-- The ends of a signed range and the integers next to them. -/
theorem witness_EncodeIntChecksTheRange :
    (Config.intBody 2 true none).width = some 2 ∧ (Config.intBody 2 true none).signed = some true ∧
    FitsWidth 2 true (-32768) ∧ FitsWidth 2 true 32767 ∧ ¬ FitsWidth 2 true (-32769) ∧ ¬ FitsWidth 2 true 32768 ∧
    FitsWidth 2 false 65535 ∧ ¬ FitsWidth 2 false (-1) := by
  refine ⟨rfl, rfl, ?_, ?_, ?_, ?_, ?_, ?_⟩ <;> simp [FitsWidth]

/-- The default `ROUND` is legal. -/
theorem legal_default : LegalRound .halfToEven := (roundLegal_iff _).mp roundLegal_halfToEven

/-- A tie that fits (23.55 at resolution 1/10) and a value that does not. -/
theorem witness_EncodeScaledRoundsToNearest :
    LegalRound State.reset.cfg.round ∧
    (Config.scaledBody 2 true (1/10)).width = some 2 ∧ (Config.scaledBody 2 true (1/10)).signed = some true ∧
    (Config.scaledBody 2 true (1/10)).arithmetic = some (1/10) ∧ 0 < 2 ∧ (0 : Rat) < 1/10 ∧
    IsRounded .halfToEven ((471/20) / (1/10)) 236 ∧ FitsWidth 2 true 236 ∧
    IsRounded .halfToEven ((16384/5) / (1/10)) 32768 ∧ ¬ FitsWidth 2 true 32768 := by
  refine ⟨legal_default, rfl, rfl, rfl, by decide, by norm_num, ⟨?_, (fun n h => by cases h), ?_⟩, by simp [FitsWidth],
    ⟨?_, (fun n h => by cases h), ?_⟩, by simp [FitsWidth]⟩ <;>
    norm_num [TieTaken, RoundRule.halfToEven, abs_of_nonneg]

/-- RAW entries under an id without descriptor; entries done, then one that is rejected and one that is too long. -/
theorem witness_EncodeStructLaysOutTheEntries :
    (∀ e ∈ [((0x9999 : MsgId), List.replicate 253 (0 : Byte))],
      lookupDesc State.reset.descTable e.1 = none ∧ e.2.length ≤ 253) ∧
    exec (.wcEncode 0x4000 (.bool true)) State.reset = .next { State.reset with report := .ok (.bytes [0x01]) } ∧
    exec (.wcEncode 0x4000 (.int 1)) State.reset = .next { State.reset with report := .raised (.encType 0x4000) } ∧
    exec (.wcEncode 0x0603 (.raw (List.replicate 254 0))) State.reset =
      .next { State.reset with report := .ok (.bytes (List.replicate 254 0)) } ∧
    253 < (List.replicate 254 (0 : Byte)).length := by
  refine ⟨?_, eq_next (by decide +kernel), eq_next (by decide +kernel), eq_next (by decide +kernel), ?_⟩
  · intro e he
    rw [List.mem_singleton.mp he, List.length_replicate]
    exact ⟨by decide +kernel, by decide⟩
  · rw [List.length_replicate]
    decide

theorem witness_EncodeRejectsTheWrongVariant :
    State.reset.ready = true ∧ messageType (.int 1) ≠ .bool ∧ messageType (.float 1) ≠ .temp ∧
    messageType (.string []) ≠ .raw := by decide

theorem witness_DecodeInvertsEncode :
    State.reset.ready = true ∧ tableLegal State.reset.cfg State.reset.descTable = true ∧
    (lookupDesc State.reset.descTable 0x4201).isSome = true ∧
    exec (.wcEncode 0x4201 (.temp (471/20))) State.reset =
      .next { State.reset with report := .ok (.bytes [0x00, 0xEC]) } :=
  ⟨rfl, by decide +kernel, by decide, eq_next (by decide +kernel)⟩

/-- A BOOL of value 1 and an INT. -/
theorem witness_EncodeInvertsDecode :
    State.reset.ready = true ∧ LegalRound State.reset.cfg.round ∧ tableLegal State.reset.cfg State.reset.descTable = true ∧
    lookupDesc State.reset.descTable 0x4000 = some ⟨1, Config.boolBody 1⟩ ∧ (Config.boolBody 1).width.isSome = true ∧
    exec (.wcDecode 0x4000 [0x01]) State.reset = .next (withMessage State.reset (.bool true, .ok)) ∧
    bigEndian [0x01] < 2 :=
  ⟨rfl, legal_default, by decide +kernel, by decide +kernel, rfl, eq_next (by decide +kernel), by decide⟩

/-- The least and the greatest legal limits. -/
theorem witness_ResetInstallsTheConfiguration :
    LegalCfg ⟨6, 6, 512, 32, home, true, .halfToEven⟩ ∧
    LegalCfg ⟨6, 65537, 512, 32, home, true, ⟨[(1/2, 1)], .nearest .halfDown⟩⟩ ∧
    tableLegal ⟨6, 6, 512, 32, home, true, .halfToEven⟩ Config.testTable = true :=
  ⟨⟨by decide, by decide, by decide, legal_default⟩,
    ⟨by decide, by decide, by decide, (roundLegal_iff _).mp (by decide +kernel)⟩, by decide +kernel⟩

/-- Each illegal operand on its own. -/
theorem witness_IllegalResetLeavesTheBlockNotReady :
    ¬ LegalCfg (cfgOf ⟨some 5, some home, none, none, none, none, none⟩) ∧
    ¬ LegalCfg (cfgOf ⟨some 6, some home, some 5, none, none, none, none⟩) ∧
    ¬ LegalCfg (cfgOf ⟨some 6, some home, some 65538, none, none, none, none⟩) ∧
    ¬ LegalCfg (cfgOf ⟨some 6, some home, none, none, none, none, some ⟨[], .directed .ceiling⟩⟩) ∧
    ¬ ((⟨some 6, none, none, none, none, none, none⟩ : ResetArgs).localAddr.isSome = true) ∧
    ¬ tableLegal (cfgOf Config.resetArgs) [(0x4000, ⟨11, Config.plainBody⟩)] = true := by
  refine ⟨?_, ?_, ?_, fun h => ?_, by decide, by decide +kernel⟩
  · simp [LegalCfg, cfgOf]
  · simp [LegalCfg, cfgOf]
  · simp [LegalCfg, cfgOf]
  · exact absurd ((roundLegal_iff _).mpr h.2.2.2) (by decide)

theorem witness_NotReadyRejectsEveryOtherOperation :
    State.powerOn.ready = false ∧ isReset (.faPush []) = false := by decide

/-- A select code that is not listed, in both conditions. -/
theorem witness_UnlistedSelectCodeIsBadOp :
    (0x01 : Byte) ∉
      ([0x00, 0x02, 0x10, 0x11, 0x12, 0x13, 0x20, 0x30, 0x31, 0x32, 0x40, 0x41, 0x50, 0x51] : List Byte) ∧
    State.reset.ready = true ∧ (0x01 : Byte) ≠ 0x00 ∧ State.powerOn.ready = false ∧
    (issue State.reset ⟨.op, [0x01], .none⟩).inbox = [⟨.op, [0x01], .none⟩] := by decide +kernel

theorem witness_EachFieldHasItsWriters :
    exec .crcInit { State.reset with crcAcc := 1 } = .next State.reset ∧ isReset .crcInit = false ∧
    writesRxbuf .crcInit = false ∧ writesCrc .faFlush = false :=
  ⟨eq_next (by decide +kernel), rfl, rfl, rfl⟩

/-- A cause of an operation, and one of a reset. -/
theorem witness_CauseLeavesTheState :
    exec (.epParse []) State.reset = .next { State.reset with report := .raised (.errShortPayload 0) } ∧
    exec (.sysReset { Config.resetArgs with maxBufferSize := some 5 } (some [])) State.reset =
      .next { State.reset with ready := false, report := .raised (.badConfig .maxBufferSize) } :=
  ⟨eq_next (by decide +kernel), eq_next (by decide +kernel)⟩

/-- Two states that differ in `RXBUF` and `CRC_ACC` only. -/
theorem witness_PureOperationsReadOnlyConfiguration :
    ({ holding [0x32] with crcAcc := 7 } : State).ready = true ∧ State.reset.cfg = (holding [0x32]).cfg ∧
    State.reset.descTable = (holding [0x32]).descTable ∧ writesRxbuf (.epParse []) = false ∧
    writesCrc (.epParse []) = false ∧ ∀ e : Word16, Instr.epParse [] ≠ .crcCheck e :=
  ⟨rfl, rfl, rfl, rfl, rfl, by simp⟩

/-- A command that decodes, and an empty inbox. -/
theorem witness_StepRunsTheDecodedInstruction :
    (issue State.reset ⟨.op, [0x10], .none⟩).inbox = [⟨.op, [0x10], .none⟩] ∧
    decode ⟨.op, [0x10], .none⟩ = .ok .crcInit ∧ Instr.crcInit.wf = true ∧ State.reset.inbox = [] :=
  ⟨rfl, rfl, rfl, rfl⟩

/-- A SYS.RESET command with its operand, and one without. -/
theorem witness_ResetCommandAlwaysEndsInAnOutcome :
    (issue State.reset ⟨.op, [0x00], .reset Config.resetArgs none⟩).inbox = [⟨.op, [0x00], .reset Config.resetArgs none⟩] ∧
    (issue State.reset ⟨.op, [0x00, 0x07], .none⟩).inbox = [⟨.op, [0x00, 0x07], .none⟩] ∧
    ∀ a tab, Arg.none ≠ .reset a tab :=
  ⟨rfl, rfl, by simp⟩

end Sys2Proof.Tests
end

section
/-! ## Proofs: what one instruction and one step answer (spec/00_scope.md R6, R11) -/

namespace Sys2Proof.Machine

open Sys2Proof.Safety

/-! ### One instruction -/

/-- The arm of SYS.RESET, the only one that does not wait for the block to be ready (R240). -/
theorem exec_sysReset (a : ResetArgs) (tab : Option DescTable) (s : State) :
    exec (.sysReset a tab) s = execSysReset a tab s := rfl

/-- Every arm but SYS.RESET's is one total state change behind the NOT_READY test (R240, R260). -/
theorem exec_eq_whenReady {i : Instr} (hi : isReset i = false) (s : State) :
    ∃ k : State, exec i s = whenReady s k := by
  cases i
  case sysReset => exact absurd hi.symm Bool.false_ne_true
  all_goals exact ⟨_, rfl⟩

/-- Only SYS.RESET passes the test `isReset`. -/
theorem eq_sysReset_of_isReset {i : Instr} (hi : isReset i = true) : ∃ a tab, i = .sysReset a tab := by
  cases i
  case sysReset a tab => exact ⟨a, tab, rfl⟩
  all_goals exact absurd hi Bool.false_ne_true

/-- SYS.RESET always answers a next state: it installs its operands or raises BAD_CONFIG. -/
theorem execSysReset_next (a : ResetArgs) (tab : Option DescTable) (s : State) :
    ∃ t, execSysReset a tab s = .next t := by
  obtain ⟨_, _, _, hinstalled⟩ | ⟨_, _, hraised⟩ := execSysReset_cases a tab s
  · exact ⟨_, hinstalled⟩
  · exact ⟨_, hraised⟩

/-- No instruction stops the block (R11). -/
theorem exec_next (i : Instr) (s : State) : ∃ t, exec i s = .next t := by
  cases hi : isReset i with
  | true =>
    obtain ⟨a, tab, rfl⟩ := eq_sysReset_of_isReset hi
    rw [exec_sysReset]
    exact execSysReset_next a tab s
  | false =>
    obtain ⟨k, hk⟩ := exec_eq_whenReady hi s
    rw [hk]
    exact whenReady_next s k

/-! ### One step -/

/-- With no command issued the block idles (R267). -/
theorem step_of_inbox_nil {s : State} (hs : s.inbox = []) : step s = .next s := by
  simp only [step, hs]

/-- A step takes the oldest command; a well-formed instruction that it decodes to runs without it in the inbox. -/
theorem step_of_decode_ok {s : State} {c : Command} {rest : List Command} {i : Instr}
    (hs : s.inbox = c :: rest) (hc : decode c = .ok i) (hi : i.wf = true) :
    step s = exec i { s with inbox := rest } := by
  simp only [step, hs, hc, hi, if_true]

end Sys2Proof.Machine

namespace Sys2Proof.Proofs

open Sys2Proof.Machine

/-- Settles O56: SYS.RESET installs or raises, and every other instruction is a state change behind the NOT_READY test. -/
theorem everyInstructionAnswersNext : Obligations.EveryInstructionAnswersNext :=
  fun s i => exec_next i s

/-- Settles O57, by the two branches of `step` that the statement names: a command that runs, and an empty inbox. -/
theorem stepRunsTheDecodedInstruction : Obligations.StepRunsTheDecodedInstruction :=
  ⟨fun _ _ _ _ hs hc hi => step_of_decode_ok hs hc hi, fun _ hs => step_of_inbox_nil hs⟩

end Sys2Proof.Proofs

end

section
/-! ## Proofs: what each instruction writes (spec/10_state.md R20) -/

namespace Sys2Proof.Machine

open Sys2Proof.Safety

/-- An arm that ends in `conclude` writes the report only. -/
theorem whenReady_conclude (s : State) (x : Except Cause Result) :
    ∃ r : Report, whenReady s (conclude s x) = whenReady s { s with report := r } := by
  obtain ⟨r, hr⟩ := conclude_eq s x
  exact ⟨r, by rw [hr]⟩

/-- An instruction that is no writer of R20 writes the report only. -/
theorem exec_of_not_writer {i : Instr} (hbuf : writesRxbuf i = false) (hcrc : writesCrc i = false) (s : State) :
    ∃ r : Report, exec i s = whenReady s { s with report := r } := by
  cases i
  case sysReset | faPush | stx | etx | faFlush => exact absurd hbuf.symm Bool.false_ne_true
  case crcInit | crcByte => exact absurd hcrc.symm Bool.false_ne_true
  case epParse | epDecode | wcEncode | epBuild | faBuild | dsK0 | dsK1 | dsK2 | dsK3 | encRaw | encBool | encEnum |
      encInt | encFloat | encTemp | encPower | encEnergy | encCurrent | encString | encStruct =>
    exact whenReady_conclude s _
  all_goals exact ⟨_, rfl⟩

/-- CRC.INIT and CRC.BYTE write `CRC_ACC` and the report. -/
theorem exec_of_writesCrc {i : Instr} (hreset : isReset i = false) (hcrc : writesCrc i = true) (s : State) :
    ∃ c : Word16, exec i s = whenReady s (finish (setCrc s c) .none) := by
  cases i
  case sysReset => exact absurd hreset.symm Bool.false_ne_true
  case crcInit | crcByte => exact ⟨_, rfl⟩
  all_goals exact absurd hcrc Bool.false_ne_true

/-- FA.FLUSH empties `RXBUF`; FA.PUSH, STX and ETX push bytes. -/
theorem exec_of_writesRxbuf {i : Instr} (hreset : isReset i = false) (hbuf : writesRxbuf i = true) (s : State) :
    exec i s = whenReady s (finish (setRxbuf s []) .none) ∨
      ∃ data : Bytes, exec i s = whenReady s (pushBytes s data) := by
  cases i
  case sysReset => exact absurd hreset.symm Bool.false_ne_true
  case faFlush => exact .inl rfl
  case faPush | stx | etx => exact .inr ⟨_, rfl⟩
  all_goals exact absurd hbuf Bool.false_ne_true

/-! ### One step, inverted -/

/-- A rejected command that does not stop the model raises BAD_OP in a ready block, NOT_READY in any other (R260). -/
theorem rejectCommand_next {s t : State} {e : DecodeError} (h : rejectCommand s e = .next t) :
    (s.ready = true ∧ ∃ op, e = .badOp op ∧ t = raise s (.badOp op)) ∨ (s.ready = false ∧ t = raise s .notReady) := by
  cases e with
  | badOp op =>
    cases hr : s.ready
    all_goals simp only [rejectCommand, hr] at h; cases h
    · exact .inr ⟨rfl, rfl⟩
    · exact .inl ⟨rfl, op, rfl, rfl⟩
  | badOpOperands op =>
    cases hr : s.ready
    all_goals simp only [rejectCommand, hr] at h; cases h
    exact .inr ⟨rfl, rfl⟩
  | noSelector space => cases h
  | badOperands space => cases h
  | unassigned space b => cases h

/-- A command that decodes to no instruction is rejected with the decoder's error. -/
theorem step_of_decode_error {s : State} {c : Command} {rest : List Command} {e : DecodeError}
    (hs : s.inbox = c :: rest) (hc : decode c = .error e) : step s = rejectCommand { s with inbox := rest } e := by
  simp only [step, hs, hc]

/-- A command that decodes to an instruction which is not well-formed is rejected for its operands. -/
theorem step_of_not_wf {s : State} {c : Command} {rest : List Command} {i : Instr}
    (hs : s.inbox = c :: rest) (hc : decode c = .ok i) (hi : i.wf = false) :
    step s = rejectCommand { s with inbox := rest } (.badOperands c.space) := by
  simp only [step, hs, hc, hi, Bool.false_eq_true, if_false]

/-- All that a step can do: idle, run the well-formed instruction that the oldest command decodes to, or reject that
command. -/
theorem step_cases {s t : State} (h : step s = .next t) :
    (s.inbox = [] ∧ t = s) ∨
    ∃ c rest, s.inbox = c :: rest ∧
      ((∃ i, decode c = .ok i ∧ i.wf = true ∧ exec i { s with inbox := rest } = .next t) ∨
        ∃ e, rejectCommand { s with inbox := rest } e = .next t) := by
  cases hs : s.inbox with
  | nil =>
    rw [step_of_inbox_nil hs] at h
    cases h
    exact .inl ⟨rfl, rfl⟩
  | cons c rest =>
    refine .inr ⟨c, rest, rfl, ?_⟩
    cases hc : decode c with
    | error e => exact .inr ⟨e, step_of_decode_error hs hc ▸ h⟩
    | ok i =>
      cases hi : i.wf with
      | false => exact .inr ⟨_, step_of_not_wf hs hc hi ▸ h⟩
      | true => exact .inl ⟨i, rfl, hi, step_of_decode_ok hs hc hi ▸ h⟩

end Sys2Proof.Machine

end

section
/-! ## Proofs: the invariant of the receive buffer (spec/10_state.md R29) -/

namespace Sys2Proof.Machine

open Sys2Proof.Safety

/-! ### The drain loop stops in a buffer as R29 says -/

theorem bufferInv_nil (cfg : Cfg) : BufferInv cfg [] := ⟨Nat.zero_le _, .inl rfl⟩

/-- Steps 3 to 8 stop only to wait: for a header, or for the body of a candidate whose length is legal (R177, R180). -/
theorem bufferInv_of_candidate_stop {cfg : Cfg} {es es' : List Event} {R B' : Bytes}
    (hR : (stxByte :: R).length ≤ cfg.maxBufferSize) (h : candidate cfg es (stxByte :: R) = .stop es' B') :
    BufferInv cfg B' := by
  obtain ⟨hn, e⟩ | ⟨_, _, e⟩ | ⟨_, _, _, e⟩ | ⟨_, _, _, _, _, _, e⟩ | ⟨_, hcap, hmin, hn, _, e⟩ | ⟨_, _, _, _, e⟩ :=
    candidate_cases cfg es (stxByte :: R)
  · rw [e] at h; cases h; exact ⟨hR, .inr ⟨rfl, .inl hn⟩⟩
  · simp [e] at h
  · simp [e] at h
  · simp [e] at h
  · rw [e] at h; cases h; exact ⟨hR, .inr ⟨rfl, .inr ⟨hmin, hcap, hn⟩⟩⟩
  · obtain ⟨_, c⟩ | ⟨_, _, c⟩ | ⟨_, _, c⟩ := checkFrame_cases es (stxByte :: R) (totalLen (stxByte :: R))
    all_goals simp [e, c] at h

/-- A pass that stops leaves the empty buffer, or the candidate it waits for. -/
theorem bufferInv_of_drainPass_stop {cfg : Cfg} {es : List Event} {B B' : Bytes}
    (hB : B.length ≤ cfg.maxBufferSize) (h : drainPass cfg B = .stop es B') : BufferInv cfg B' := by
  obtain ⟨_, e⟩ | ⟨_, _, e⟩ | ⟨R, rfl, e⟩ | ⟨G, R, _, _, rfl, e⟩ := drainPass_cases cfg B
  · rw [e] at h; cases h; exact bufferInv_nil cfg
  · rw [e] at h; cases h; exact bufferInv_nil cfg
  · exact bufferInv_of_candidate_stop hB (e ▸ h)
  · have hR : (stxByte :: R).length ≤ cfg.maxBufferSize := by
      rw [List.length_append] at hB
      omega
    exact bufferInv_of_candidate_stop hR (e ▸ h)

/-- The loop runs until a pass stops, and every pass before that shortens the buffer (R186). -/
theorem bufferInv_drain {cfg : Cfg} (B : Bytes) (hB : B.length ≤ cfg.maxBufferSize) :
    BufferInv cfg (drain cfg B).2 := by
  cases hp : drainPass cfg B with
  | stop es B' =>
    rw [drain_stop hp]
    exact bufferInv_of_drainPass_stop hB hp
  | again es B' =>
    have hshort : B'.length < B.length := drainPass_again hp
    rw [drain_again hp]
    exact bufferInv_drain B' (by omega)
termination_by B.length

/-- A push, whatever its outcome, leaves a buffer as R29 says. -/
theorem bufferInv_pushResult (cfg : Cfg) (B : Bytes) : BufferInv cfg (pushResult cfg B).2 := by
  by_cases hB : B.length ≤ cfg.maxBufferSize
  · rw [pushResult_drain hB]
    exact bufferInv_drain B hB
  · rw [pushResult_overflow (Nat.lt_of_not_le hB)]
    exact bufferInv_nil cfg

/-! ### What keeps the invariant of the block -/

/-- With the configuration, the table and the readiness as before, only the buffer is to be looked at. -/
theorem blockInv_of_same_cfg {s t : State} (hs : BlockInv s) (hready : t.ready = s.ready) (hcfg : t.cfg = s.cfg)
    (htab : t.descTable = s.descTable) (hbuf : BufferInv s.cfg s.rxbuf → BufferInv s.cfg t.rxbuf) : BlockInv t := by
  intro ht
  obtain ⟨hlegal, hwf, hinv⟩ := hs (hready ▸ ht)
  rw [hcfg, htab]
  exact ⟨hlegal, hwf, hbuf hinv⟩

theorem blockInv_raise {s : State} (hs : BlockInv s) (c : Cause) : BlockInv (raise s c) :=
  blockInv_of_same_cfg hs rfl rfl rfl id

theorem blockInv_pushBytes {s : State} (hs : BlockInv s) (data : Bytes) : BlockInv (pushBytes s data) :=
  blockInv_of_same_cfg hs rfl rfl rfl fun _ => bufferInv_pushResult s.cfg (s.rxbuf ++ data)

/-- An operation behind the NOT_READY test keeps the invariant if its state change does. -/
theorem blockInv_of_whenReady {s k t : State} (hs : BlockInv s) (h : whenReady s k = .next t) (hk : BlockInv k) :
    BlockInv t := by
  obtain ⟨_, rfl⟩ | ⟨_, rfl⟩ := whenReady_cases h
  · exact hk
  · exact blockInv_raise hs .notReady

/-- `MAX_BUFFER_SIZE` passes its test only if it is given, and at least 6 (R24). -/
theorem le_maxBufferSize_of_legal {a : ResetArgs} (h : bufferSizeLegal a = true) : 6 ≤ (cfgOf a).maxBufferSize := by
  unfold bufferSizeLegal at h
  split at h
  case h_1 n hn =>
    have hcfg : (cfgOf a).maxBufferSize = n := by simp only [cfgOf, hn, Option.getD_some]
    exact hcfg ▸ of_decide_eq_true h
  case h_2 => cases h

/-- `LEN_CAP` passes its test only from 6 to 65537 (R24). -/
theorem lenCap_bounds_of_legal {cfg : Cfg} (h : lenCapLegal cfg = true) : 6 ≤ cfg.lenCap ∧ cfg.lenCap ≤ 65537 := by
  obtain ⟨hmin, hmax⟩ := (Bool.and_eq_true _ _).mp h
  exact ⟨of_decide_eq_true hmin, of_decide_eq_true hmax⟩

/-- Operands of which SYS.RESET names none as illegal make a legal configuration (R24). -/
theorem legalCfg_of_illegalFields_nil {a : ResetArgs} {tab : Option DescTable} (h : illegalFields a tab = []) :
    LegalCfg (cfgOf a) := by
  obtain ⟨hsize, hcap, _, hround, _⟩ := (illegalFields_nil a tab).mp h
  obtain ⟨hmin, hmax⟩ := lenCap_bounds_of_legal hcap
  exact ⟨le_maxBufferSize_of_legal hsize, hmin, hmax, (roundLegal_iff _).mp hround⟩

/-- SYS.RESET makes the invariant true in any state: it installs legal operands, or the block is not ready (R240). -/
theorem blockInv_of_execSysReset {a : ResetArgs} {tab : Option DescTable} {s t : State}
    (h : execSysReset a tab s = .next t) : BlockInv t := by
  obtain ⟨hnil, T, rfl, e⟩ | ⟨f, _, e⟩ := execSysReset_cases a tab s
  · obtain ⟨_, _, _, _, hT⟩ := (illegalFields_nil a (some T)).mp hnil
    rw [e] at h
    cases h
    exact fun _ => ⟨legalCfg_of_illegalFields_nil hnil, hT, bufferInv_nil _⟩
  · rw [e] at h
    cases h
    exact fun hready => absurd hready Bool.false_ne_true

/-- Every instruction keeps the invariant, by what it writes: all anew, `RXBUF`, `CRC_ACC`, or the report only. -/
theorem blockInv_of_exec {s t : State} {i : Instr} (hs : BlockInv s) (h : exec i s = .next t) : BlockInv t := by
  cases hreset : isReset i with
  | true =>
    obtain ⟨a, tab, rfl⟩ := eq_sysReset_of_isReset hreset
    exact blockInv_of_execSysReset h
  | false =>
    cases hbuf : writesRxbuf i with
    | true =>
      obtain e | ⟨data, e⟩ := exec_of_writesRxbuf hreset hbuf s
      all_goals rw [e] at h
      · exact blockInv_of_whenReady hs h (blockInv_of_same_cfg hs rfl rfl rfl fun _ => bufferInv_nil s.cfg)
      · exact blockInv_of_whenReady hs h (blockInv_pushBytes hs data)
    | false =>
      cases hcrc : writesCrc i with
      | true =>
        obtain ⟨c, e⟩ := exec_of_writesCrc hreset hcrc s
        rw [e] at h
        exact blockInv_of_whenReady hs h (blockInv_of_same_cfg hs rfl rfl rfl id)
      | false =>
        obtain ⟨r, e⟩ := exec_of_not_writer hbuf hcrc s
        rw [e] at h
        exact blockInv_of_whenReady hs h (blockInv_of_same_cfg hs rfl rfl rfl id)

/-- Every step keeps the invariant: taking a command from the inbox touches nothing that it speaks of. -/
theorem blockInv_of_step {s t : State} (hs : BlockInv s) (h : step s = .next t) : BlockInv t := by
  obtain ⟨_, rfl⟩ | ⟨c, rest, _, hstep⟩ := step_cases h
  · exact hs
  · have htaken : BlockInv { s with inbox := rest } := blockInv_of_same_cfg hs rfl rfl rfl id
    obtain ⟨i, _, _, hexec⟩ | ⟨e, hreject⟩ := hstep
    · exact blockInv_of_exec htaken hexec
    · obtain ⟨_, op, _, rfl⟩ | ⟨_, rfl⟩ := rejectCommand_next hreject
      all_goals exact blockInv_raise htaken _

/-- The reset state is one that SYS.RESET leaves. -/
theorem blockInv_reset : BlockInv State.reset :=
  fun _ => ⟨⟨by decide, by decide, by decide, (roundLegal_iff _).mp roundLegal_halfToEven⟩, by decide +kernel,
    bufferInv_nil _⟩

end Sys2Proof.Machine

namespace Sys2Proof.Proofs

open Sys2Proof.Machine

/-- Settles O13: an instruction writes the buffer only by emptying it or by a push, whose drain loop stops as R29 says,
and SYS.RESET alone writes the configuration, the table and the readiness. -/
theorem stepKeepsReceiveBufferInvariant : Obligations.StepKeepsReceiveBufferInvariant :=
  fun _ _ hs h => blockInv_of_step hs h

/-- Settles O14: the values are those `State.reset` is written with; its configuration is legal, and the test table
passes the test of R122 by evaluation. -/
theorem resetStateIsAsStated : Obligations.ResetStateIsAsStated :=
  ⟨blockInv_reset, rfl, rfl, rfl, rfl, rfl, rfl, rfl, rfl⟩

end Sys2Proof.Proofs

end

section
/-! ## Proofs: decoder and encoder agree (spec/30_encoding.md R71, R77, R78, R82, R85, R90) -/

namespace Sys2Proof.Decode

open Sys2Proof.Machine

/-- The encoder's command of every instruction decodes to that instruction. By the place a command selects in: where the
selecting value is packed with other bits, or an operand has 16 bits, the fields read back as they were written; every
other command carries its operands as they are. -/
theorem decode_encode (i : Instr) : decode (encode i) = .ok i := by
  cases i
  case crcCheck | wcDecode | wcEncode =>
    simp [encode, bytesOf16, decode, decodeOp, wordOperand, idBytesOperands, idMessageOperands, extract_append]
  case ptStandby | ptNormal | ptGathering | ptInstall | ptDownload =>
    simp [encode, encodeType, decode, decodePacketType, highNibble_typeByte, lowNibble_typeByte]
  case dtUndefined | dtRead | dtWrite | dtRequest | dtNotification | dtResponse | dtAck | dtNack =>
    simp [encode, encodeType, decode, decodePayloadType, highNibble_typeByte, lowNibble_typeByte]
  case dsK0 | dsK1 | dsK2 | dsK3 =>
    simp [encode, encodeDataset, bytesOf16, decode, decodeDataset, extract_append, kindOf_mkId, idHigh_mkId,
      idLow_mkId]
  case encRaw | encBool | encEnum | encInt | encFloat | encTemp | encPower | encEnergy | encCurrent | encString |
      encStruct =>
    simp [encode, encodeEncArm, bytesOf16, decode, decodeEncArm, extract_append]
  all_goals rfl

end Sys2Proof.Decode

namespace Sys2Proof.Proofs

open Sys2Proof.Decode

/-- Settles O58: place by place, the packed selecting fields and the 16-bit operands read back as they were written. -/
theorem decodeInvertsTheEncoder : Obligations.DecodeInvertsTheEncoder :=
  decode_encode

/-- Settles O59: each written-out command is the encoder's command of its row, so it decodes to that row. -/
theorem writtenOutCommandsDecode : Obligations.WrittenOutCommandsDecode :=
  ⟨decode_encode (.crcCheck 0xF9EE), decode_encode (.wcDecode 0x4201 [0x00, 0xEB]), decode_encode .etx,
    fun src dst => decode_encode (.ptNormal 5 src dst), fun src dst => decode_encode (.dtResponse 1 src dst),
    fun pos => decode_encode (.dsK1 8 1 pos [0x00, 0xEB]), fun d => decode_encode (.decTemp d [0x00, 0xEB]),
    fun d m => decode_encode (.encStruct 0x0601 d m)⟩

end Sys2Proof.Proofs

end

section
/-! ## Proofs: an unlisted select code, and any operation before readiness (spec/60_exceptions.md R260) -/

namespace Sys2Proof.Decode

open Sys2Proof.Safety

variable {op : Byte} (B : Bytes) (a : Arg)

/-- What the `OP` place answers on a select code other than SYS.RESET's: an instruction that a step runs behind the
NOT_READY test, or one of the two rejections that NOT_READY comes before (R260). -/
theorem decodeOp_cases (hop : op ≠ 0x00) :
    (∃ i, decodeOp op B a = .ok i ∧ i.wf = true ∧ isReset i = false) ∨
      decodeOp op B a = .error (.badOpOperands op) ∨ decodeOp op B a = .error (.badOp op) := by
  unfold decodeOp noOperand byteOperand wordOperand bytesOperand envelopeOperand idBytesOperands idMessageOperands
  split
  case h_1 hcode => exact absurd (BitVec.eq_of_toNat_eq hcode) hop
  case h_15 => exact .inr (.inr rfl)
  -- a listed code: its operands fit, or they have another shape
  all_goals
    split
    · exact .inl ⟨_, rfl, rfl, rfl⟩
    · exact .inr (.inl rfl)

/-- A select code outside the fourteen of R90 is BAD_OP, whatever its operands. -/
theorem decodeOp_of_unlisted (hop : op ∉
      ([0x00, 0x02, 0x10, 0x11, 0x12, 0x13, 0x20, 0x30, 0x31, 0x32, 0x40, 0x41, 0x50, 0x51] : List Byte)) :
    decodeOp op B a = .error (.badOp op) := by
  unfold decodeOp
  split
  case h_15 => rfl
  -- a listed code is one of the fourteen bytes
  all_goals
    rename_i hcode
    have hlisted : op = BitVec.ofNat 8 op.toNat := by simp
    rw [hcode] at hlisted
    exact absurd (by rw [hlisted]; decide) hop

end Sys2Proof.Decode

namespace Sys2Proof.Machine

open Sys2Proof.Safety

/-- Before a successful SYS.RESET every other instruction raises NOT_READY (R240). -/
theorem exec_of_not_ready {s : State} {i : Instr} (hs : s.ready = false) (hi : isReset i = false) :
    exec i s = .next (raise s .notReady) := by
  obtain ⟨k, hk⟩ := exec_eq_whenReady hi s
  rw [hk, whenReady_of_not_ready hs]

theorem rejectCommand_badOp_of_ready {s : State} (hs : s.ready = true) (op : Byte) :
    rejectCommand s (.badOp op) = .next (raise s (.badOp op)) := by
  simp only [rejectCommand, hs, if_true]

theorem rejectCommand_badOp_of_not_ready {s : State} (hs : s.ready = false) (op : Byte) :
    rejectCommand s (.badOp op) = .next (raise s .notReady) := by
  simp only [rejectCommand, hs, Bool.false_eq_true, if_false]

theorem rejectCommand_badOpOperands_of_not_ready {s : State} (hs : s.ready = false) (op : Byte) :
    rejectCommand s (.badOpOperands op) = .next (raise s .notReady) := by
  simp only [rejectCommand, hs, Bool.false_eq_true, if_false]

/-- While the block is not ready, a command in the `OP` place that is no SYS.RESET raises NOT_READY, whether it decodes
or not (R260). -/
theorem step_op_of_not_ready {s : State} {op : Byte} {B : Bytes} {a : Arg} {rest : List Command}
    (hs : s.inbox = ⟨.op, op :: B, a⟩ :: rest) (hop : op ≠ 0x00) (hready : s.ready = false) :
    step s = .next (raise { s with inbox := rest } .notReady) := by
  have htaken : ({ s with inbox := rest } : State).ready = false := hready
  obtain ⟨i, hdec, hwf, hreset⟩ | hdec | hdec := Decode.decodeOp_cases B a hop
  · exact (step_of_decode_ok hs hdec hwf).trans (exec_of_not_ready htaken hreset)
  · exact (step_of_decode_error hs hdec).trans (rejectCommand_badOpOperands_of_not_ready htaken op)
  · exact (step_of_decode_error hs hdec).trans (rejectCommand_badOp_of_not_ready htaken op)

end Sys2Proof.Machine

namespace Sys2Proof.Proofs

open Sys2Proof.Machine

/-- Settles O51: the decoder answers BAD_OP on an unlisted code; and of what it can answer on a code other than
SYS.RESET's, a block that is not ready makes NOT_READY. -/
theorem unlistedSelectCodeIsBadOp : Obligations.UnlistedSelectCodeIsBadOp := by
  intro s op B a rest hs
  constructor
  · intro hop hready
    have htaken : ({ s with inbox := rest } : State).ready = true := hready
    have hdec : decode ⟨.op, op :: B, a⟩ = .error (.badOp op) := Decode.decodeOp_of_unlisted B a hop
    exact (step_of_decode_error hs hdec).trans (rejectCommand_badOp_of_ready htaken op)
  · exact step_op_of_not_ready hs

end Sys2Proof.Proofs

end

section
/-! ## Proofs: the packet type and payload type rows (spec/30_encoding.md R77, R78) -/

namespace Sys2Proof.Machine

open Sys2Proof.Safety

/-! ### The dispatch filter against the table (R213 to R215) -/

/-- The direction filter is the table of R214. -/
theorem directionForwards_eq_forwardTable :
    ∀ (isLocal : Bool) (d : BitVec 4), directionForwards isLocal d = forwardTable isLocal d.toNat := by decide

/-- The dispatch and the direction filter together are the table of R213 to R215. -/
theorem filterVerdict_eq_verdictTable (cfg : Cfg) (p d : BitVec 4) (src dst : Address) :
    filterVerdict cfg p d src dst = verdictTable cfg p d src dst := by
  have hp : p = ptNormalCode ↔ p.toNat = 1 := BitVec.toNat_inj.symm
  simp only [filterVerdict, directionVerdict, verdictTable, directionForwards_eq_forwardTable, hp, beq_eq_decide,
    ite_and, apply_ite Verdict.forward]

/-- A packet type row or payload type row of a ready block gives the table's verdict on its two nibbles. -/
theorem whenReady_filterVerdict {s : State} (hs : s.ready = true) (p d : BitVec 4) (src dst : Address) :
    whenReady s (finish s (.verdict (filterVerdict s.cfg p d src dst))) =
      .next { s with report := .ok (.verdict (verdictTable s.cfg p d src dst)) } := by
  rw [whenReady_of_ready hs, filterVerdict_eq_verdictTable]
  rfl

/-- The table, with the owner under one constructor (R215). -/
theorem verdictTable_eq_ite (cfg : Cfg) (p d : BitVec 4) (src dst : Address) :
    verdictTable cfg p d src dst =
      if p = 1 ∧ forwardTable (decide (src = cfg.localAddr)) d.toNat = true then
        .forward (if decide (src = cfg.localAddr) then dst else src)
      else .drop := by
  have hp : p.toNat = 1 ↔ p = 1 := BitVec.toNat_inj (y := 1)
  simp only [verdictTable, hp, decide_eq_true_eq, apply_ite Verdict.forward]

/-- A packet type other than NORMAL is dropped (R213). -/
theorem verdictTable_of_ne {p : BitVec 4} (hp : p ≠ 1) (cfg : Cfg) (d : BitVec 4) (src dst : Address) :
    verdictTable cfg p d src dst = .drop := by
  rw [verdictTable_eq_ite, if_neg fun ⟨hp', _⟩ => hp hp']

end Sys2Proof.Machine

namespace Sys2Proof.Proofs

open Sys2Proof.Machine Sys2Proof.Safety

/-- Settles O28: every row gives the table's verdict on its own packet type, and the table drops all but NORMAL. -/
theorem packetTypeRowsFollowTheTable : Obligations.PacketTypeRowsFollowTheTable := by
  intro s d src dst hs
  have hdrop (p : BitVec 4) (hp : p ≠ 1) : whenReady s (finish s (.verdict (filterVerdict s.cfg p d src dst))) =
      .next { s with report := .ok (.verdict .drop) } := by
    rw [whenReady_filterVerdict hs, verdictTable_of_ne hp]
  simp only [List.forall_mem_cons]
  exact ⟨⟨hdrop 0 (by decide), hdrop 2 (by decide), hdrop 3 (by decide), hdrop 4 (by decide),
      List.forall_mem_nil _⟩,
    whenReady_filterVerdict hs 1 d src dst⟩

/-- Settles O29: every row gives the table's verdict on its own payload type, which the table passes by direction. -/
theorem payloadTypeRowsFollowTheTable : Obligations.PayloadTypeRowsFollowTheTable := by
  intro s p src dst hs atHome out
  have hrow (d : BitVec 4) : whenReady s (finish s (.verdict (filterVerdict s.cfg p d src dst))) =
      .next (out (forwardTable atHome d.toNat)) := by
    rw [whenReady_filterVerdict hs, verdictTable_eq_ite]
  simp only [List.forall_mem_cons]
  exact ⟨⟨hrow 0, hrow 1, hrow 6, hrow 7, List.forall_mem_nil _⟩, hrow 2, hrow 3, hrow 4, hrow 5⟩

end Sys2Proof.Proofs

end

section
/-! ## Proofs: the width-kind rows (spec/30_encoding.md R80, R81) -/

namespace Sys2Proof.Machine

open Sys2Proof.Decode

variable {s : State} (hs : s.ready = true) (hi : BitVec 5) (k : BitVec 2) (lo : BitVec 9) (pos : WalkPos)
include hs

/-- A row with `w` value bytes takes those that stand before the rest of the payload (R204). -/
theorem whenReady_fixedDataset_take {w : Nat} {rest V R : Bytes} (hrest : rest = V ++ R) (hV : V.length = w) :
    whenReady s (concludeDataset s (fixedDataset (mkId hi k lo) w pos rest)) =
      .next { s with report := .ok (.dataset ⟨hi ++ k ++ lo, k, V, none⟩ (pos.offset + 2 + w)) } := by
  obtain ⟨hshort, _⟩ | ⟨_, htaken⟩ := fixedDataset_cases (mkId hi k lo) w pos rest
  · rw [hrest, List.length_append] at hshort
    omega
  · rw [whenReady_of_ready hs, htaken, kindOf_mkId, hrest, List.take_left' hV]
    rfl

/-- A row with `w` value bytes underruns where fewer are left (R204). -/
theorem whenReady_fixedDataset_underrun {w : Nat} {rest : Bytes} (hshort : rest.length < w) :
    whenReady s (concludeDataset s (fixedDataset (mkId hi k lo) w pos rest)) =
      .next { s with report := .raised (.errDsUnderrun pos.index pos.offset) } := by
  obtain ⟨_, hraised⟩ | ⟨hlong, _⟩ := fixedDataset_cases (mkId hi k lo) w pos rest
  · rw [whenReady_of_ready hs, hraised]
    rfl
  · omega

/-- DS.K3 takes the rest of the payload where its dataset is the only one (R205). -/
theorem exec_dsK3_alone (rest : Bytes) (hcount : pos.count = 1) :
    exec (.dsK3 hi lo pos rest) s = .next { s with report := .ok (.dataset
      ⟨hi ++ (3 : BitVec 2) ++ lo, 3, rest, none⟩ (pos.offset + 2 + rest.length)) } := by
  obtain ⟨hmixed, _⟩ | ⟨_, htaken⟩ := structDataset_cases (mkId hi 3 lo) pos rest
  · exact absurd hcount hmixed
  · rw [exec, execDsK3, whenReady_of_ready hs, htaken, kindOf_mkId]
    rfl

/-- DS.K3 is mixed where its dataset is not the only one (R206). -/
theorem exec_dsK3_mixed (rest : Bytes) (hcount : pos.count ≠ 1) :
    exec (.dsK3 hi lo pos rest) s = .next { s with report := .raised (.errStructMixed pos.index pos.offset) } := by
  obtain ⟨_, hraised⟩ | ⟨halone, _⟩ := structDataset_cases (mkId hi 3 lo) pos rest
  · rw [exec, execDsK3, whenReady_of_ready hs, hraised]
    rfl
  · exact absurd halone hcount

end Sys2Proof.Machine

namespace Sys2Proof.Proofs

open Sys2Proof.Machine

/-- Settles O30: a width-kind with a length takes its bytes or underruns, and kind 3 stands alone or is mixed. -/
theorem widthKindRowsTakeTheirValue : Obligations.WidthKindRowsTakeTheirValue := by
  intro s hi lo pos rest hs
  simp only [List.forall_mem_cons]
  exact ⟨⟨⟨fun _ _ => whenReady_fixedDataset_take hs hi 0 lo pos, whenReady_fixedDataset_underrun hs hi 0 lo pos⟩,
      ⟨fun _ _ => whenReady_fixedDataset_take hs hi 1 lo pos, whenReady_fixedDataset_underrun hs hi 1 lo pos⟩,
      ⟨fun _ _ => whenReady_fixedDataset_take hs hi 2 lo pos, whenReady_fixedDataset_underrun hs hi 2 lo pos⟩,
      List.forall_mem_nil _⟩,
    exec_dsK3_alone hs hi lo pos rest, exec_dsK3_mixed hs hi lo pos rest⟩

end Sys2Proof.Proofs

end

section
/-! ## Proofs: the CRC unit (spec/40_crc16.md R111 to R115) -/

namespace Sys2Proof.Machine

open Sys2Proof.Safety

/-! ### The four operations of a ready block -/

section Ready

variable {s : State} (hs : s.ready = true)
include hs

theorem exec_crcInit_of_ready : exec .crcInit s = .next { s with crcAcc := crcSeed, report := .ok .none } :=
  whenReady_of_ready hs _

theorem exec_crcByte_of_ready (b : Byte) :
    exec (.crcByte b) s = .next { s with crcAcc := crcStep s.crcAcc b, report := .ok .none } :=
  whenReady_of_ready hs _

theorem exec_crcBlock_of_ready (B : Bytes) : exec (.crcBlock B) s = .next { s with report := .ok (.crc (crc16 B)) } :=
  whenReady_of_ready hs _

theorem exec_crcCheck_of_ready (e : Word16) :
    exec (.crcCheck e) s = .next { s with report := .ok (.truth (decide (s.crcAcc = e))) } := by
  rw [← beq_eq_decide]
  exact whenReady_of_ready hs _

end Ready

/-! ### Runs of CRC operations -/

/-- A run goes on from the state that its first operation leaves. -/
theorem execAll_cons {i : Instr} {s t : State} (h : exec i s = .next t) (is : List Instr) :
    execAll (i :: is) s = execAll is t := by
  simp only [execAll, h]

/-- CRC.BYTE of the bytes of `P`, one after another, folds `P` into `CRC_ACC`. -/
theorem execAll_crcByte_append {s : State} (hs : s.ready = true) (P : Bytes) (is : List Instr) (c : Word16) :
    execAll (P.map .crcByte ++ is) { s with crcAcc := c, report := .ok .none } =
      execAll is { s with crcAcc := P.foldl crcStep c, report := .ok .none } := by
  induction P generalizing c with
  | nil => rfl
  | cons b P ih =>
    have hb := exec_crcByte_of_ready (s := { s with crcAcc := c, report := .ok .none }) hs b
    exact (execAll_cons hb _).trans (ih (crcStep c b))

/-- CRC.INIT and CRC.BYTE of the bytes of `P` leave in `CRC_ACC` what CRC.BLOCK returns for `P` (R114). -/
theorem execAll_crcInit_crcByte {s : State} (hs : s.ready = true) (P : Bytes) (is : List Instr) :
    execAll (.crcInit :: P.map .crcByte ++ is) s =
      execAll is { s with crcAcc := crc16 P, report := .ok .none } :=
  (execAll_cons (exec_crcInit_of_ready hs) _).trans (execAll_crcByte_append hs P is crcSeed)

/-! ### The register against the pseudocode over naturals (R111) -/

/-- The bit that a shift tests is bit 15. -/
theorem msb_iff_div_mod (c : Word16) : c.msb = true ↔ c.toNat / 32768 % 2 = 1 := by
  have := c.isLt
  rw [BitVec.msb_eq_decide, decide_eq_true_eq]
  omega

/-- One shift of the register is one shift of the pseudocode. -/
theorem toNat_crcShift (c : Word16) : (crcShift c).toNat = crcShiftRef c.toNat := by
  have hshift : (c <<< 1).toNat = c.toNat * 2 % 65536 := by
    rw [BitVec.toNat_shiftLeft, Nat.shiftLeft_eq]
  simp only [crcShift, crcShiftRef, msb_iff_div_mod]
  split
  · rw [BitVec.toNat_xor, hshift]
    rfl
  · exact hshift

theorem toNat_crcShift_iterate (k : Nat) (c : Word16) : (crcShift^[k] c).toNat = crcShiftRef^[k] c.toNat :=
  Function.Semiconj.iterate_right (f := BitVec.toNat) toNat_crcShift k c

theorem toNat_high_byte (b : Byte) : (b ++ (0 : Byte) : Word16).toNat = b.toNat * 256 := by
  rw [BitVec.toNat_append, Nat.shiftLeft_eq]
  simp

theorem toNat_low_byte (b : Byte) : ((0 : Byte) ++ b : Word16).toNat = b.toNat := by
  rw [BitVec.toNat_append]
  simp

/-- The byte enters at bits 15 to 8. -/
theorem toNat_xor_high_byte (c : Word16) (b : Byte) :
    (c ^^^ (b ++ (0 : Byte)) : Word16).toNat = c.toNat ^^^ (b.toNat * 256) := by
  rw [BitVec.toNat_xor, toNat_high_byte]

/-- `crc_step` is eight shifts after the byte has entered. -/
theorem crcStep_eq_iterate (c : Word16) (b : Byte) : crcStep c b = crcShift^[8] (c ^^^ (b ++ (0 : Byte))) := rfl

/-- The register's step is `crc_step` of the pseudocode. -/
theorem toNat_crcStep (c : Word16) (b : Byte) : (crcStep c b).toNat = crcStepRef c.toNat b.toNat := by
  rw [crcStep_eq_iterate, toNat_crcShift_iterate, toNat_xor_high_byte, crcStepRef]

theorem crcStep_eq_ofNat (c : Word16) (b : Byte) : crcStep c b = BitVec.ofNat 16 (crcStepRef c.toNat b.toNat) := by
  rw [← toNat_crcStep, BitVec.ofNat_toNat, BitVec.setWidth_eq]

/-- Every value on the way through `crc_step` is one of the register's, so it has 16 bits. -/
theorem crcShiftRef_iterate_lt (c : Word16) (b : Byte) (k : Nat) :
    crcShiftRef^[k] (c.toNat ^^^ (b.toNat * 256)) < 65536 := by
  rw [← toNat_xor_high_byte, ← toNat_crcShift_iterate]
  exact BitVec.isLt _

/-! ### No single change is lost (R115 b) -/

/-- With the bytes before and after it given, a byte can be told from the CRC. -/
theorem crc16_middle_byte_injective (A C : Bytes) : Function.Injective fun b => crc16 (A ++ b :: C) := by
  intro b b' h
  simp only [crc16_append, List.foldl_cons] at h
  exact crcStep_byte_injective (crc16 A) (foldl_crcStep_injective C h)

/-- Flipping a bit of a byte changes it. -/
theorem ne_xor_bit (b : Byte) {j : Nat} (hj : j < 8) : b ≠ b ^^^ (1#8 <<< j) := by
  intro h
  have hbit := congrArg (fun x : Byte => x.getLsbD j) h
  simp [hj] at hbit

theorem crc16_ne_crc16_flipBit {B : Bytes} {i j : Nat} (hi : i < B.length) (hj : j < 8) :
    crc16 B ≠ crc16 (flipBit B i j) := by
  have hB : B = B.take i ++ B[i] :: B.drop (i + 1) := by simp
  have hflip : flipBit B i j = B.take i ++ (B[i] ^^^ (1#8 <<< j)) :: B.drop (i + 1) :=
    List.modify_eq_take_cons_drop hi
  intro h
  rw [hflip] at h
  exact ne_xor_bit B[i] hj (crc16_middle_byte_injective _ _ ((congrArg crc16 hB).symm.trans h))

/-! ### Leading zero bytes (R115 c) -/

theorem crc16_replicate_zero (k : Nat) : crc16 (List.replicate k 0x00) = crcSeed := by
  induction k with
  | zero => rfl
  | succ k ih => rw [List.replicate_succ', crc16_concat, ih]; exact crcStep_zero

theorem crc16_zeros_append (k : Nat) (B : Bytes) : crc16 (List.replicate k 0x00 ++ B) = crc16 B := by
  rw [crc16_append, crc16_replicate_zero, crc16]

/-! ### The residue (R115 d) -/

/-- While no set bit is shifted out, the shifts are plain. -/
theorem crcShift_iterate_of_lt (c : Word16) (k : Nat) (h : c.toNat * 2 ^ k < 2 ^ 16) : crcShift^[k] c = c <<< k := by
  induction k with
  | zero => simp
  | succ k ih =>
    rw [pow_succ, ← mul_assoc] at h
    have hk : (c <<< k).toNat = c.toNat * 2 ^ k := by
      rw [BitVec.toNat_shiftLeft, Nat.shiftLeft_eq, Nat.mod_eq_of_lt (by omega)]
    have hmsb : (c <<< k).msb = false := by
      rw [BitVec.msb_eq_decide, decide_eq_false_iff_not, hk]
      omega
    rw [Function.iterate_succ_apply', ih (by omega), crcShift, hmsb, if_neg Bool.false_ne_true, BitVec.shiftLeft_add]

/-- A register that holds a low byte only has it as its high byte after eight shifts. -/
theorem crcShift_iterate_low_byte (l : Byte) : crcShift^[8] ((0 : Byte) ++ l : Word16) = l ++ (0 : Byte) := by
  have hl : l.toNat * 2 ^ 8 < 2 ^ 16 := Nat.mul_lt_mul_of_pos_right l.isLt (by decide)
  rw [crcShift_iterate_of_lt _ 8 (by rwa [toNat_low_byte])]
  apply BitVec.eq_of_toNat_eq
  rw [BitVec.toNat_shiftLeft, toNat_low_byte, Nat.shiftLeft_eq, Nat.mod_eq_of_lt hl]
  exact (toNat_high_byte l).symm

/-- The register's own high byte clears it, and the low byte moves up. -/
theorem crcStep_own_high_byte (h l : Byte) : crcStep (h ++ l) h = l ++ (0 : Byte) := by
  have hclear : (h ++ l ^^^ (h ++ (0 : Byte)) : Word16) = (0 : Byte) ++ l := by
    rw [BitVec.xor_append]
    simp
  rw [crcStep_eq_iterate, hclear, crcShift_iterate_low_byte]

/-- The register's own two bytes, high byte first, leave it zero. -/
theorem crcStep_own_bytes (h l : Byte) : crcStep (crcStep (h ++ l) h) l = 0 := by
  rw [crcStep_own_high_byte, crcStep_own_high_byte]
  rfl

theorem crc16_append_own (B : Bytes) :
    crc16 (B ++ [(crc16 B).extractLsb' 8 8, (crc16 B).extractLsb' 0 8]) = 0 := by
  rw [crc16_append]
  have hown := crcStep_own_bytes ((crc16 B).extractLsb' 8 8) ((crc16 B).extractLsb' 0 8)
  rwa [extract_append] at hown

end Sys2Proof.Machine

namespace Sys2Proof.Proofs

open Sys2Proof.Decode Sys2Proof.Machine Sys2Proof.Safety

/-- Settles O1: CRC.INIT loads the seed, and CRC.BYTE steps from it. -/
theorem crcInitLoadsSeed : Obligations.CrcInitLoadsSeed := by
  refine ⟨decode_encode .crcInit, fun s hs => ⟨exec_crcInit_of_ready hs, ?_⟩⟩
  have hcrc : crc16 [0x01] = 0x1021 := by decide
  rw [← hcrc]
  exact execAll_crcInit_crcByte hs [0x01] []

/-- Settles O2: the register's step is the pseudocode's, shift by shift, so the values on the way are 16-bit words. -/
theorem crcByteFollowsPseudocode : Obligations.CrcByteFollowsPseudocode := by
  refine ⟨fun b => decode_encode (.crcByte b), fun s b hs => ⟨?_, ?_⟩, by decide, by decide, by decide⟩
  · exact fun k _ => crcShiftRef_iterate_lt s.crcAcc b k
  · rw [← crcStep_eq_ofNat]
    exact exec_crcByte_of_ready hs b

/-- Settles O3: the fold is `crc16`, whose step is the pseudocode's; `CRC_ACC` does not enter it. -/
theorem crcBlockFoldsFromSeed : Obligations.CrcBlockFoldsFromSeed := by
  refine ⟨fun B => decode_encode (.crcBlock B), crc16, crc16_nil, fun B b => ?_,
    fun s B hs => exec_crcBlock_of_ready hs B, by decide +kernel⟩
  rw [crc16_concat, toNat_crcStep]

/-- Settles O4: the bytes folded one at a time from the seed are the fold of CRC.BLOCK. -/
theorem crcStreamingEqualsBlock : Obligations.CrcStreamingEqualsBlock := by
  refine ⟨fun h l => rfl, fun s e hs => exec_crcCheck_of_ready hs e,
    fun s P hs => ⟨crc16 P, exec_crcBlock_of_ready hs P, fun e => ?_⟩⟩
  rw [execAll_crcInit_crcByte hs]
  exact execAll_cons (exec_crcCheck_of_ready (s := { s with crcAcc := crc16 P, report := .ok .none }) hs e) []

/-- Settles O5: the flipped byte differs, its step gives another register, and no later byte undoes that. -/
theorem crcDetectsEverySingleBitFlip : Obligations.CrcDetectsEverySingleBitFlip :=
  fun _ B i j hs hi hj => ⟨crc16 B, crc16 (flipBit B i j), exec_crcBlock_of_ready hs B, exec_crcBlock_of_ready hs _,
    crc16_ne_crc16_flipBit hi hj⟩

/-- Settles O6: zero bytes keep the seed, and the CRC's own two bytes shift out without meeting the generator. -/
theorem crcBlindSpotAndResidue : Obligations.CrcBlindSpotAndResidue := by
  intro s B k hs
  refine ⟨crc16 B, exec_crcBlock_of_ready hs B, ?_, ?_⟩
  · rw [exec_crcBlock_of_ready hs, crc16_zeros_append]
  · rw [exec_crcBlock_of_ready hs, crc16_append_own]

end Sys2Proof.Proofs

end

section
/-! ## Proofs: value bytes as numbers and as TLV layouts (spec/30_encoding.md R83, R84) -/

namespace Sys2Proof.Machine

open Sys2Proof.Safety

/-! ### Wire integers -/

/-- The digits to base 256 and the left fold over the bytes are one reading (R8). -/
theorem bigEndian_eq_beu (B : Bytes) : bigEndian B = beu B := by
  induction B using List.reverseRecOn with
  | nil => rfl
  | append_singleton B b ih =>
    rw [beu_concat, ← ih, bigEndian, List.reverse_concat, List.map_cons, Nat.ofDigits_cons, add_comm,
      mul_comm]
    rfl

theorem fitsWidth_iff_inRange (w : Nat) (sg : Bool) (p : Int) : FitsWidth w sg p ↔ inRange w sg p = true :=
  (inRange_iff w sg p).symm

/-- What the decoder reads from a non-empty value is its wire integer (R84). -/
theorem isWireInt_wireInt (sg : Bool) {B : Bytes} (hB : B ≠ []) : IsWireInt sg B (wireInt sg B) := by
  refine ⟨?_, (inRange_iff _ _ _).mp (inRange_wireInt sg B hB)⟩
  rw [bigEndian_eq_beu]
  exact wireInt_congr sg B

/-- What the encoder writes for an integer in range has that wire integer (R152). -/
theorem isWireInt_bytesOfInt {w : Nat} {sg : Bool} {p : Int} (hw : 0 < w) (hp : inRange w sg p = true) :
    IsWireInt sg (bytesOfInt w p) p := by
  have hne : bytesOfInt w p ≠ [] := List.ne_nil_of_length_pos (by rwa [bytesOfInt_length])
  simpa only [wireInt_bytesOfInt hw hp] using isWireInt_wireInt sg hne

/-! ### TLV layouts -/

theorem tlvLayout_cons (e : MsgId × Bytes) (es : List (MsgId × Bytes)) :
    tlvLayout (e :: es) = tlvEntry e.1 e.2 ++ tlvLayout es := rfl

/-- The walk reads a layout back entry by entry. -/
theorem tlvSplit_tlvLayout {es : List (MsgId × Bytes)} (hes : ∀ e ∈ es, e.2.length ≤ 253) :
    tlvSplit (tlvLayout es) = some es := by
  induction es with
  | nil => rfl
  | cons e es ih =>
    obtain ⟨he, hes⟩ := List.forall_mem_cons.mp hes
    rw [tlvLayout_cons, tlvSplit_entry e.1 e.2 _ he, ih hes]
    rfl

/-- A length byte of at least 2 and the bytes it counts are the TLV entry of what the walk takes from them. -/
theorem tlvEntry_of_walk {n : Byte} {rest : Bytes} (hn : 2 ≤ n.toNat) (hrest : n.toNat ≤ rest.length) :
    n :: rest = tlvEntry (word16At rest 0) (slice rest 2 n.toNat) ++ rest.drop n.toNat := by
  obtain ⟨h, l, V, rfl⟩ : ∃ h l V, rest = h :: l :: V := by
    match rest, hrest with
    | [], hrest => simp at hrest; omega
    | [_], hrest => simp at hrest; omega
    | h :: l :: V, _ => exact ⟨h, l, V, rfl⟩
  obtain ⟨k, hk⟩ : ∃ k, n.toNat = k + 2 := ⟨n.toNat - 2, by omega⟩
  have hlen : (slice (h :: l :: V) 2 n.toNat).length + 2 = n.toNat := by
    simp only [slice, List.length_drop, List.length_take]
    omega
  have hid : bytesOf16 (word16At (h :: l :: V) 0) = [h, l] := bytesOf16_append h l
  rw [tlvEntry, hlen, BitVec.ofNat_toNat, BitVec.setWidth_eq, hid, hk]
  simp [slice]

/-- A value that the walk splits is the layout of what it takes. -/
theorem tlvLayout_of_tlvSplit {B : Bytes} {es : List (MsgId × Bytes)} (h : tlvSplit B = some es) :
    (∀ e ∈ es, e.2.length ≤ 253) ∧ B = tlvLayout es := by
  induction hlen : B.length using Nat.strong_induction_on generalizing B es with
  | _ len ih =>
    cases B with
    | nil =>
      cases h
      exact ⟨List.forall_mem_nil _, rfl⟩
    | cons n rest =>
      rw [tlvSplit_cons] at h
      split at h
      · cases h
      · next hn =>
        obtain ⟨more, hmore, rfl⟩ := Option.map_eq_some_iff.mp h
        simp only [List.length_cons] at hlen
        obtain ⟨hshort, hB⟩ := ih (rest.drop n.toNat).length (by rw [List.length_drop]; omega) hmore rfl
        have hbyte := n.isLt
        refine ⟨List.forall_mem_cons.mpr ⟨?_, hshort⟩, ?_⟩
        · simp only [slice, List.length_drop, List.length_take]
          omega
        · rw [tlvLayout_cons, ← hB]
          exact tlvEntry_of_walk (by omega) (by omega)

end Sys2Proof.Machine

end

section
/-! ## Proofs: WC.DECODE and the decode rows (spec/41_wire_codec.md R123 to R136) -/

namespace Sys2Proof.Machine

open Sys2Proof.Safety

/-! ### The arms, by the descriptor's fields -/

section Arms

variable {d : DescBody} {B : Bytes}

/-- A failure of an arm resolves as R124 says. -/
theorem resolve_none (d : DescBody) (B : Bytes) : resolve d B none = failedDecode d B := by
  cases h : d.declaredDefault <;> simp only [resolve, failedDecode, h]

theorem widthOk_eq_false {w : Nat} (hw : d.width = some w) (hB : B.length ≠ w) : widthOk d B = false := by
  rw [← Bool.not_eq_true, widthOk_iff, hw, Option.some_inj]
  exact hB.symm

/-- The sized arms fail on a value of another length (R125). -/
theorem sizedArms_of_width_ne {w : Nat} (hw : d.width = some w) (hB : B.length ≠ w) :
    (∀ cfg, armBool cfg d B = none) ∧ armEnum d B = none ∧ sizedInt d B = none ∧ scaledValue d B = none := by
  have hwidth := widthOk_eq_false hw hB
  have hint : sizedInt d B = none := by simp [sizedInt, hwidth]
  exact ⟨fun cfg => by simp [armBool, hwidth], by simp [armEnum, hwidth], hint, by simp [scaledValue, hint]⟩

/-- BOOL by value (R126). -/
theorem armBool_eq (cfg : Cfg) (hw : d.width = some B.length) :
    armBool cfg d B =
      if beu B = 0 then some (.bool false)
      else if beu B = 1 ∨ cfg.boolNonzeroTrue = true then some (.bool true) else none := by
  rw [armBool, if_pos ((widthOk_iff d B).mpr hw)]
  match beu B with
  | 0 => rfl
  | 1 => rfl
  | n + 2 => simp

/-- ENUM by membership (R127). -/
theorem armEnum_eq (hw : d.width = some B.length) :
    armEnum d B = if isMember d (beu B) = true then some (.enum (beu B)) else none := by
  rw [armEnum, (widthOk_iff d B).mpr hw, Bool.true_and]

/-- The wire integer, whatever the bit pattern (R128). -/
theorem sizedInt_eq {sg : Bool} (hw : d.width = some B.length) (hs : d.signed = some sg) :
    sizedInt d B = some (wireInt sg B) := by
  rw [sizedInt, if_pos ((widthOk_iff d B).mpr hw), hs, Option.map_some]

/-- The wire integer times the arithmetic (R129). -/
theorem scaledValue_eq {sg : Bool} {a : Rat} (hw : d.width = some B.length) (hs : d.signed = some sg)
    (ha : d.arithmetic = some a) : scaledValue d B = some ((wireInt sg B : Rat) * a) := by
  simp only [scaledValue, sizedInt_eq hw hs, ha]

end Arms

/-- STRUCT fails exactly on the values that are no TLV layout (R136). -/
theorem armStruct_eq_none (sub : MsgId → Bytes → Message × DecStatus) {B : Bytes}
    (hB : ¬ ∃ es : List (MsgId × Bytes), (∀ e ∈ es, e.2.length ≤ 253) ∧ B = tlvLayout es) : armStruct sub B = none := by
  cases hes : tlvSplit B with
  | none => simp only [armStruct, hes]
  | some es => exact absurd ⟨es, tlvLayout_of_tlvSplit hes⟩ hB

/-! ### The rows of a ready block -/

section Ready

variable {s : State} (hs : s.ready = true)
include hs

/-- A row whose arm answers a message. -/
theorem whenReady_resolve_some {d : DescBody} {B : Bytes} {x : Option Message} {m : Message} (hx : x = some m) :
    whenReady s (finishDecoded s (resolve d B x)) = .next (withMessage s (m, .ok)) := by
  rw [whenReady_of_ready hs, hx]
  rfl

/-- A row whose arm fails. -/
theorem whenReady_resolve_none {d : DescBody} {B : Bytes} {x : Option Message} (hx : x = none) :
    whenReady s (finishDecoded s (resolve d B x)) = .next (withMessage s (failedDecode d B)) := by
  rw [whenReady_of_ready hs, hx, resolve_none]
  rfl

theorem exec_wcDecode_of_ready (id : MsgId) (B : Bytes) :
    exec (.wcDecode id B) s = .next (withMessage s (decodeMessage s.cfg s.descTable id B)) :=
  whenReady_of_ready hs _

end Ready

/-- The report holds the message and the status. -/
theorem eq_of_withMessage {s : State} {x y : Message × DecStatus} (h : withMessage s x = withMessage s y) : x = y := by
  have hreport := congrArg State.report h
  simp only [withMessage, Report.ok.injEq, Result.message.injEq] at hreport
  exact Prod.ext hreport.1 hreport.2

/-- WC.DECODE under a descriptor is the row that runs the arm of its tag (R123). -/
theorem exec_wcDecode_of_tag {s : State} {id : MsgId} {d : Descriptor} (hd : lookupDesc s.descTable id = some d)
    {B : Bytes} {tag : Byte} {row : Instr}
    (hrow : exec row s = whenReady s (finishDecoded s
      (resolve d.body B (runArm (decodeMessage s.cfg s.descTable) s.cfg tag d.body B))))
    (htag : d.tag = tag) : exec (.wcDecode id B) s = exec row s := by
  rw [hrow, ← htag, ← decodeMessage_known hd]
  rfl

end Sys2Proof.Machine

namespace Sys2Proof.Proofs

open Sys2Proof.Machine Sys2Proof.Safety

/-- Settles O31: a value of another length makes each of the eight arms fail. -/
theorem widthMismatchTakesDefaultOrRaw : Obligations.WidthMismatchTakesDefaultOrRaw := by
  intro s d B w hs hw hB
  obtain ⟨hbool, henum, hint, hscaled⟩ := sizedArms_of_width_ne hw hB
  have hfail {x : Option Message} (hx : x = none) := whenReady_resolve_none (d := d) (B := B) hs hx
  have hscaledFail (f : Rat → Message) : (scaledValue d B).map f = none := by rw [hscaled, Option.map_none]
  simp only [List.forall_mem_cons]
  exact ⟨hfail (hbool s.cfg), hfail henum, hfail (x := armInt d B) (by rw [armInt, hint, Option.map_none]),
    hfail (hscaledFail .float), hfail (hscaledFail .temp), hfail (hscaledFail .power), hfail (hscaledFail .energy),
    hfail (hscaledFail .current), List.forall_mem_nil _⟩

/-- Settles O32, by the value of the bytes and, from 2 on, by the mode. -/
theorem decodeBoolByValue : Obligations.DecodeBoolByValue := by
  intro s d B hs hw
  have harm := armBool_eq s.cfg hw
  rw [bigEndian_eq_beu]
  refine ⟨fun h => ?_, fun h => ?_, fun h hmode => ?_, fun h hmode => ?_⟩
  · exact whenReady_resolve_some hs (by rw [harm, if_pos h])
  · exact whenReady_resolve_some hs (by rw [harm, if_neg (by omega), if_pos (.inl h)])
  · exact whenReady_resolve_some hs (by rw [harm, if_neg (by omega), if_pos (.inr hmode)])
  · exact whenReady_resolve_none hs (by rw [harm, if_neg (by omega), if_neg (by simp [hmode]; omega)])

/-- Settles O33, by membership of the code read unsigned. -/
theorem decodeEnumIsClosed : Obligations.DecodeEnumIsClosed := by
  intro s d members B hs hw hset
  rw [bigEndian_eq_beu, ← isMember_iff hset]
  exact ⟨fun h => whenReady_resolve_some hs (by rw [armEnum_eq hw, if_pos h]),
    fun h => whenReady_resolve_none hs (by rw [armEnum_eq hw, if_neg h])⟩

/-- Settles O34: the arm answers the wire integer. -/
theorem decodeIntReadsTheWireInteger : Obligations.DecodeIntReadsTheWireInteger := by
  intro s d sg B hs hB hw hsg
  refine ⟨wireInt sg B, isWireInt_wireInt sg hB, whenReady_resolve_some hs ?_⟩
  rw [armInt, sizedInt_eq hw hsg, Option.map_some]

/-- Settles O35: the five arms share one exact value and differ in the variant. -/
theorem decodeScaledIsExact : Obligations.DecodeScaledIsExact := by
  intro s d sg a B hs hB hw hsg ha
  have hrow (f : Rat → Message) : whenReady s (finishDecoded s (resolve d B ((scaledValue d B).map f))) =
      .next (withMessage s (f (wireInt sg B * a), .ok)) :=
    whenReady_resolve_some hs (by rw [scaledValue_eq hw hsg ha, Option.map_some])
  exact ⟨wireInt sg B, isWireInt_wireInt sg hB, hrow .float, hrow .temp, hrow .power, hrow .energy, hrow .current⟩

/-- Settles O36: the two arms without a width answer the octets. -/
theorem decodeRawAndStringKeepOctets : Obligations.DecodeRawAndStringKeepOctets :=
  fun _ _ _ hs => ⟨whenReady_resolve_some hs rfl, whenReady_resolve_some hs rfl⟩

/-- Settles O37: the walk reads a layout back, WC.DECODE gives the entries, and no other value can be split. -/
theorem decodeStructWalksTheLayout : Obligations.DecodeStructWalksTheLayout := by
  intro s d hs
  refine ⟨fun es hes => ?_, fun B hB => whenReady_resolve_none hs (armStruct_eq_none _ hB)⟩
  refine ⟨entriesOfList (es.map fun e => (e.1, decodeMessage s.cfg s.descTable e.1 e.2)), ?_, ?_⟩
  · rw [entriesToList_ofList, List.forall₂_map_right_iff, List.forall₂_same]
    exact fun e _ => ⟨rfl, exec_wcDecode_of_ready hs e.1 e.2⟩
  · exact whenReady_resolve_some hs (by simp only [armStruct, tlvSplit_tlvLayout hes])

/-- Settles O38: each row runs the arm of its tag. -/
theorem wcDecodeSelectsTheArm : Obligations.WcDecodeSelectsTheArm := by
  intro s id B hs
  have hdecode := exec_wcDecode_of_ready hs id B
  refine ⟨⟨_, hdecode⟩, fun hnone => by rw [hdecode, decodeMessage_unknown hnone], fun d hd => ?_⟩
  have hrow {tag : Byte} {row : Instr} := exec_wcDecode_of_tag (B := B) (tag := tag) (row := row) hd
  simp only [List.forall_mem_cons]
  exact ⟨hrow rfl, hrow rfl, hrow rfl, hrow rfl, hrow rfl, hrow rfl, hrow rfl, hrow rfl, hrow rfl, hrow rfl, hrow rfl,
    List.forall_mem_nil _⟩

end Sys2Proof.Proofs

end

section
/-! ## Proofs: WC.ENCODE and the encode rows (spec/41_wire_codec.md R140 to R152) -/

namespace Sys2Proof.Machine

open Sys2Proof.Safety

/-! ### The arm of a message -/

/-- The encode arm that a message's variant selects, under a descriptor of that variant (R141 to R151). -/
def putMessage (cfg : Cfg) (tab : DescTable) (id : MsgId) (d : DescBody) : Message → Except Cause Bytes
  | .bool b => putBool id d b
  | .enum c => putEnum id d c
  | .int z => putInt id d z
  | .float q | .temp q | .power q | .energy q | .current q => putScaled cfg id d q
  | .raw B | .string B => .ok B
  | .struct E => encodeEntries cfg tab E id

/-- WC.ENCODE is the lookup and the variant match around the message's arm (R140). -/
theorem encodeMessage_eq_withDescriptor (cfg : Cfg) (tab : DescTable) (id : MsgId) (m : Message) :
    encodeMessage cfg tab m id = withDescriptor tab id m fun d => putMessage cfg tab id d m := by
  cases m <;> simp only [encodeMessage, putMessage]

/-- Under a descriptor a message of its variant meets its arm and any other is ENC_TYPE (R140). -/
theorem encodeMessage_known {cfg : Cfg} {tab : DescTable} {id : MsgId} {d : Descriptor}
    (hd : lookupDesc tab id = some d) (m : Message) :
    encodeMessage cfg tab m id =
      if descTypeOf d.tag = some (messageType m) then putMessage cfg tab id d.body m else .error (.encType id) := by
  rw [encodeMessage_eq_withDescriptor]
  simp only [withDescriptor, hd]

/-- Without a descriptor RAW passes through (R140). -/
theorem encodeMessage_raw_unknown {tab : DescTable} {id : MsgId} (hnone : lookupDesc tab id = none) (cfg : Cfg)
    (B : Bytes) : encodeMessage cfg tab (.raw B) id = .ok B := by
  simp only [encodeMessage, withDescriptor, hnone]

/-- Without a descriptor every message but RAW is ENC_UNKNOWN_ID (R140). -/
theorem encodeMessage_unknown {tab : DescTable} {id : MsgId} (hnone : lookupDesc tab id = none) (cfg : Cfg)
    {m : Message} (hm : ∀ B, m ≠ .raw B) : encodeMessage cfg tab m id = .error (.encUnknownId id) := by
  rw [encodeMessage_eq_withDescriptor]
  obtain ⟨_, B, hraw, _⟩ | ⟨_, _, h⟩ | ⟨_, hd, _⟩ | ⟨_, hd, _⟩ :=
    withDescriptor_cases tab id m fun d => putMessage cfg tab id d m
  · exact absurd hraw (hm B)
  · exact h
  · cases hnone.symm.trans hd
  · cases hnone.symm.trans hd

/-! ### The rows -/

/-- The encode row of a descriptor type (R85). -/
def encRow (id : MsgId) (d : DescBody) (m : Message) : DescType → Instr
  | .raw => .encRaw id d m
  | .bool => .encBool id d m
  | .enum => .encEnum id d m
  | .int => .encInt id d m
  | .float => .encFloat id d m
  | .temp => .encTemp id d m
  | .power => .encPower id d m
  | .energy => .encEnergy id d m
  | .current => .encCurrent id d m
  | .string => .encString id d m
  | .struct => .encStruct id d m

/-- A row runs the arm of a message of its own variant, and any other is ENC_TYPE (R140). -/
theorem exec_encRow (s : State) (id : MsgId) (d : DescBody) (m : Message) (t : DescType) :
    exec (encRow id d m t) s = whenReady s (concludeBytes s
      (if t = messageType m then putMessage s.cfg s.descTable id d m else .error (.encType id))) := by
  cases t <;> cases m <;> rfl

/-- WC.ENCODE under a descriptor is the row of its tag (R140). -/
theorem exec_wcEncode_of_tag {s : State} {id : MsgId} {d : Descriptor} (hd : lookupDesc s.descTable id = some d)
    {m : Message} {tag : Byte} {t : DescType} (ht : descTypeOf tag = some t) (htag : d.tag = tag) :
    exec (.wcEncode id m) s = exec (encRow id d.body m t) s := by
  have harm := encodeMessage_known (cfg := s.cfg) hd m
  rw [htag, ht] at harm
  simp only [Option.some_inj] at harm
  rw [exec_encRow, ← harm]
  rfl

section Ready

variable {s : State} (hs : s.ready = true)
include hs

/-- An operation that computes bytes or a cause leaves its report only. -/
theorem whenReady_concludeBytes_ok {x : Except Cause Bytes} {B : Bytes} (hx : x = .ok B) :
    whenReady s (concludeBytes s x) = .next { s with report := .ok (.bytes B) } := by
  rw [whenReady_of_ready hs, hx]
  rfl

theorem whenReady_concludeBytes_error {x : Except Cause Bytes} {c : Cause} (hx : x = .error c) :
    whenReady s (concludeBytes s x) = .next { s with report := .raised c } := by
  rw [whenReady_of_ready hs, hx]
  rfl

/-- The report of such an operation is what it computed. -/
theorem whenReady_concludeBytes_inj {x y : Except Cause Bytes} :
    whenReady s (concludeBytes s x) = whenReady s (concludeBytes s y) ↔ x = y := by
  refine ⟨fun h => ?_, fun h => by rw [h]⟩
  rw [whenReady_of_ready hs, whenReady_of_ready hs] at h
  have hreport := congrArg State.report (Host.Outcome.next.inj h)
  cases x <;> cases y
  case ok.ok | error.error => simpa using hreport
  case ok.error | error.ok => simp at hreport

/-- Bytes that WC.ENCODE answers are those of `encodeMessage`. -/
theorem exec_wcEncode_ok_iff (id : MsgId) (m : Message) (B : Bytes) :
    exec (.wcEncode id m) s = .next { s with report := .ok (.bytes B) } ↔
      encodeMessage s.cfg s.descTable m id = .ok B := by
  rw [← whenReady_concludeBytes_ok hs rfl]
  exact whenReady_concludeBytes_inj hs

/-- A cause that WC.ENCODE raises is that of `encodeMessage`. -/
theorem exec_wcEncode_raised_iff (id : MsgId) (m : Message) (c : Cause) :
    exec (.wcEncode id m) s = .next { s with report := .raised c } ↔
      encodeMessage s.cfg s.descTable m id = .error c := by
  rw [← whenReady_concludeBytes_error hs rfl]
  exact whenReady_concludeBytes_inj hs

end Ready

/-! ### The arms, by the descriptor's fields -/

section Arms

variable {d : DescBody} {w : Nat} (hw : d.width = some w) (id : MsgId)
include hw

theorem putBool_eq (b : Bool) : putBool id d b = .ok (bytesOf w (if b then 1 else 0)) := by
  simp only [putBool, hw]

theorem putEnum_eq (c : Nat) :
    putEnum id d c = if isMember d c = true then .ok (bytesOf w c) else .error (.encRange id) := by
  simp only [putEnum, hw]

/-- The range check and byte generation under the terms of the statements (R152). -/
theorem putInt_ok {sg : Bool} (hsg : d.signed = some sg) {p : Int} (hp : FitsWidth w sg p) :
    putInt id d p = .ok (bytesOfInt w p) := by
  have hrange := (fitsWidth_iff_inRange w sg p).mp hp
  obtain ⟨_, hput⟩ | ⟨hout, _⟩ := putInt_cases hw hsg id p
  · exact hput
  · rw [hrange] at hout
    cases hout

theorem putInt_error {sg : Bool} (hsg : d.signed = some sg) {p : Int} (hp : ¬ FitsWidth w sg p) :
    putInt id d p = .error (.encRange id) := by
  obtain ⟨hrange, _⟩ | ⟨_, hput⟩ := putInt_cases hw hsg id p
  · exact absurd ((fitsWidth_iff_inRange w sg p).mpr hrange) hp
  · exact hput

end Arms

/-- A scaled value is the integer `ROUND(q / arithmetic)` (R144). -/
theorem putScaled_eq {d : DescBody} {a : Rat} (ha : d.arithmetic = some a) (cfg : Cfg) (id : MsgId) (q : Rat) :
    putScaled cfg id d q = putInt id d (roundBy cfg.round (q / a)) := by
  simp only [putScaled, ha]

/-- The five scaled rows end alike: they differ in the message's variant only (R144 to R148). -/
theorem exec_scaled_rows {s : State} {id : MsgId} {d : DescBody} {q : Rat} {out : Outcome}
    (h : whenReady s (concludeBytes s (putScaled s.cfg id d q)) = out) :
    ∀ i ∈ [Instr.encFloat id d (.float q), .encTemp id d (.temp q), .encPower id d (.power q),
      .encEnergy id d (.energy q), .encCurrent id d (.current q)], exec i s = out := by
  simp only [List.forall_mem_cons]
  exact ⟨h, h, h, h, h, List.forall_mem_nil _⟩

/-! ### Rounding (R144) -/

/-- A tie that a rule takes up goes where the rule asks. -/
theorem tieTaken_of_tieUp {t : TieRule} {q : Rat} (hq : q - q.floor = 1 / 2) (ht : tieUp t q.floor = true) :
    TieTaken t q ((q.floor + 1 : Int)) := by
  have hlt : q < ((q.floor + 1 : Int) : Rat) := by push_cast; linarith
  cases t with
  | halfToEven | halfToOdd =>
    simp only [tieUp, beq_iff_eq] at ht
    simp only [TieTaken]
    omega
  | halfUp => exact hlt
  | halfDown => cases ht
  | halfAwayFromZero =>
    have hfloor : (0 : Rat) ≤ q.floor := by exact_mod_cast of_decide_eq_true ht
    have hpos : 0 ≤ q := by linarith
    rw [TieTaken, abs_of_nonneg hpos, abs_of_nonneg (hpos.trans hlt.le)]
    exact hlt
  | halfTowardZero =>
    have hfloor : ((q.floor + 1 : Int) : Rat) ≤ 0 := by exact_mod_cast of_decide_eq_true ht
    rw [TieTaken, abs_of_nonpos hfloor, abs_of_nonpos (hlt.le.trans hfloor)]
    linarith
  | upWhen | host => exact ⟨fun _ => ht, fun _ => hlt⟩

/-- A tie that a rule takes down goes where the rule asks. -/
theorem tieTaken_of_not_tieUp {t : TieRule} {q : Rat} (hq : q - q.floor = 1 / 2) (ht : tieUp t q.floor = false) :
    TieTaken t q q.floor := by
  have hlt : (q.floor : Rat) < q := by linarith
  cases t with
  | halfToEven | halfToOdd =>
    simp only [tieUp, beq_eq_false_iff_ne] at ht
    simp only [TieTaken]
    omega
  | halfUp => cases ht
  | halfDown => exact hlt
  | halfAwayFromZero =>
    have hint : q.floor + 1 ≤ 0 := by have := of_decide_eq_false ht; omega
    have hfloor : (q.floor : Rat) + 1 ≤ 0 := by exact_mod_cast hint
    rw [TieTaken, abs_of_nonpos (by linarith), abs_of_nonpos (by linarith)]
    linarith
  | halfTowardZero =>
    have hfloor : (0 : Rat) ≤ q.floor := by exact_mod_cast not_lt.mp (of_decide_eq_false ht)
    rw [TieTaken, abs_of_nonneg hfloor, abs_of_nonneg (hfloor.trans hlt.le)]
    exact hlt
  | upWhen | host => exact ⟨fun h => absurd h hlt.not_gt, fun h => absurd (h.symm.trans ht) (by simp)⟩

/-- On a tie a nearest-integer rule takes the neighbour it asks for. -/
theorem tieTaken_roundNearest {t : TieRule} {q : Rat} (hq : |(roundNearest t q : Rat) - q| = 1 / 2) :
    TieTaken t q (roundNearest t q) := by
  obtain ⟨hfloor, hnext⟩ := rat_floor_bounds q
  obtain ⟨h, hr⟩ | ⟨h, hr⟩ | ⟨h, ht, hr⟩ | ⟨h, ht, hr⟩ := roundNearest_cases t q
  · rw [hr, abs_of_nonpos (by linarith)] at hq
    linarith
  · rw [hr, Int.cast_add, Int.cast_one, abs_of_nonneg (by linarith)] at hq
    linarith
  · rw [hr]
    exact tieTaken_of_tieUp h ht
  · rw [hr]
    exact tieTaken_of_not_tieUp h ht

/-- Under a legal `ROUND` the model's function is `ROUND` (R144). -/
theorem isRounded_roundBy {r : RoundRule} (hr : LegalRound r) (q : Rat) : IsRounded r q (roundBy r q) := by
  refine ⟨hr q, fun n hn => roundBy_point hn, fun hnone htie t ht => ?_⟩
  have hbase : roundBy r q = roundNearest t q := by rw [roundBy_base hnone, ht, roundBase]
  rw [hbase] at htie ⊢
  exact tieTaken_roundNearest htie

/-- A legal `ROUND` gives back the integer of a value at the resolution. -/
theorem roundBy_mul_div {r : RoundRule} (hr : LegalRound r) {a : Rat} (ha : 0 < a) (p : Int) :
    roundBy r ((p : Rat) * a / a) = p := by
  rw [mul_div_cancel_right₀ _ ha.ne', roundBy_int ((roundLegal_iff r).mpr hr)]

/-! ### Structures (R151) -/

/-- Entries that encode to short values encode to their layout, before whatever follows. -/
theorem encodeEntries_append {cfg : Cfg} {tab : DescTable} {done : List (MsgId × Message × DecStatus)}
    {es : List (MsgId × Bytes)}
    (h : List.Forall₂ (fun x e => x.1 = e.1 ∧ e.2.length ≤ 253 ∧ encodeMessage cfg tab x.2.1 x.1 = .ok e.2) done es)
    (more : List (MsgId × Message × DecStatus)) (id : MsgId) :
    encodeEntries cfg tab (entriesOfList (done ++ more)) id =
      (encodeEntries cfg tab (entriesOfList more) id).map (tlvLayout es ++ ·) := by
  induction h with
  | nil =>
    cases hmore : encodeEntries cfg tab (entriesOfList more) id <;> simp [hmore, Except.map, tlvLayout]
  | @cons x e done es hx _ ih =>
    obtain ⟨hid, hlen, hok⟩ := hx
    rw [List.cons_append, entriesOfList]
    obtain ⟨c, herr, _⟩ | ⟨V, hV, hlong, _⟩ | ⟨V, hV, _, heq⟩ :=
      encodeEntries_cons cfg tab x.1 x.2.1 x.2.2 (entriesOfList (done ++ more)) id
    · cases hok.symm.trans herr
    · cases hok.symm.trans hV
      omega
    · cases hok.symm.trans hV
      rw [heq, ih, tlvLayout_cons, hid]
      cases encodeEntries cfg tab (entriesOfList more) id <;> simp [Except.map]

/-- A first entry that WC.ENCODE rejects gives its cause. -/
theorem encodeEntries_cons_error {cfg : Cfg} {tab : DescTable} {x : MsgId × Message × DecStatus} {c : Cause}
    (hx : encodeMessage cfg tab x.2.1 x.1 = .error c) (more : List (MsgId × Message × DecStatus)) (id : MsgId) :
    encodeEntries cfg tab (entriesOfList (x :: more)) id = .error c := by
  simp only [entriesOfList, encodeEntries, hx]

/-- A first entry of more than 253 bytes gives ENC_RANGE with the structure's id (log entry 8). -/
theorem encodeEntries_cons_overlong {cfg : Cfg} {tab : DescTable} {x : MsgId × Message × DecStatus} {V : Bytes}
    (hx : encodeMessage cfg tab x.2.1 x.1 = .ok V) (hV : 253 < V.length) (more : List (MsgId × Message × DecStatus))
    (id : MsgId) : encodeEntries cfg tab (entriesOfList (x :: more)) id = .error (.encRange id) := by
  simp only [entriesOfList, encodeEntries, hx, maxSubValue, hV, if_true]

end Sys2Proof.Machine

namespace Sys2Proof.Proofs

open Sys2Proof.Machine Sys2Proof.Safety

/-- Settles O39: the bytes are those of the number, which fits the width. -/
theorem encodeBoolAndEnum : Obligations.EncodeBoolAndEnum := by
  intro s id d w hs hw
  refine ⟨fun b hpos => ?_, fun members c hset => ?_⟩
  · refine ⟨_, bytesOf_length w (if b then 1 else 0), ?_, whenReady_concludeBytes_ok hs (putBool_eq hw id b)⟩
    have hfits : 1 < 2 ^ (8 * w) := Nat.one_lt_two_pow (by omega)
    rw [bigEndian_eq_beu, beu_bytesOf _ _ (by split <;> omega)]
  · have hput := putEnum_eq hw id c
    rw [← isMember_iff hset]
    refine ⟨fun hmem hfits => ⟨_, bytesOf_length w c, ?_, ?_⟩, fun hmem => ?_⟩
    · rw [bigEndian_eq_beu, beu_bytesOf _ _ hfits]
    · exact whenReady_concludeBytes_ok hs (hput.trans (if_pos hmem))
    · exact whenReady_concludeBytes_error hs (hput.trans (if_neg hmem))

/-- Settles O40, by the range check. -/
theorem encodeIntChecksTheRange : Obligations.EncodeIntChecksTheRange := by
  intro s id d w sg z hs hpos hw hsg
  refine ⟨fun hz => ⟨bytesOfInt w z, bytesOfInt_length w z, ?_, ?_⟩, fun hz => ?_⟩
  · exact isWireInt_bytesOfInt hpos ((fitsWidth_iff_inRange w sg z).mp hz)
  · exact whenReady_concludeBytes_ok hs (putInt_ok hw id hsg hz)
  · exact whenReady_concludeBytes_error hs (putInt_error hw id hsg hz)

/-- Settles O41: the integer is what `ROUND` gives, which gives a value at the resolution its own integer back. -/
theorem encodeScaledRoundsToNearest : Obligations.EncodeScaledRoundsToNearest := by
  intro s id d w sg a hs hround hpos ha hw hsg harith
  have hput (q : Rat) := putScaled_eq harith s.cfg id q
  have hwire {p : Int} (hp : FitsWidth w sg p) := isWireInt_bytesOfInt hpos ((fitsWidth_iff_inRange w sg p).mp hp)
  refine ⟨fun q => ⟨_, isRounded_roundBy hround (q / a), fun i hi => ⟨fun hp => ?_, fun hp => ?_⟩⟩, fun p hp => ?_⟩
  · refine ⟨_, bytesOfInt_length w _, hwire hp, exec_scaled_rows ?_ i hi⟩
    exact whenReady_concludeBytes_ok hs (by rw [hput, putInt_ok hw id hsg hp])
  · refine exec_scaled_rows (whenReady_concludeBytes_error hs ?_) i hi
    rw [hput, putInt_error hw id hsg hp]
  · refine ⟨_, bytesOfInt_length w p, hwire hp, exec_scaled_rows (whenReady_concludeBytes_ok hs ?_)⟩
    rw [hput, roundBy_mul_div hround ha, putInt_ok hw id hsg hp]

/-- Settles O42: the two arms answer the octets. -/
theorem encodeRawAndStringKeepOctets : Obligations.EncodeRawAndStringKeepOctets :=
  fun _ _ _ _ hs => ⟨whenReady_concludeBytes_ok hs rfl, whenReady_concludeBytes_ok hs rfl⟩

/-- Settles O43: done entries give their layout before what the entry after them gives; RAW entries are such. -/
theorem encodeStructLaysOutTheEntries : Obligations.EncodeStructLaysOutTheEntries := by
  have hdone {cfg : Cfg} {tab : DescTable} {done es}
      (h : List.Forall₂ (fun x e => x.1 = e.1 ∧ e.2.length ≤ 253 ∧ encodeMessage cfg tab x.2.1 x.1 = .ok e.2) done es)
      (id : MsgId) : encodeEntries cfg tab (entriesOfList done) id = .ok (tlvLayout es) := by
    have h := encodeEntries_append h [] id
    rw [List.append_nil] at h
    simpa [entriesOfList, encodeEntries, Except.map] using h
  refine ⟨fun s id d es hs hes => ?_, fun s id d done es hs h => ?_⟩
  · refine whenReady_concludeBytes_ok hs (hdone ?_ id)
    rw [List.forall₂_map_left_iff, List.forall₂_same]
    exact fun e he => ⟨rfl, (hes e he).2, encodeMessage_raw_unknown (hes e he).1 s.cfg e.2⟩
  simp only [exec_wcEncode_ok_iff hs] at h
  refine ⟨whenReady_concludeBytes_ok hs (hdone h id), fun x more => ⟨fun c hx => ?_, fun V hx hV => ?_⟩⟩
  all_goals refine whenReady_concludeBytes_error hs ((encodeEntries_append h (x :: more) id).trans ?_)
  · rw [encodeEntries_cons_error ((exec_wcEncode_raised_iff hs _ _ _).mp hx)]
    rfl
  · rw [encodeEntries_cons_overlong ((exec_wcEncode_ok_iff hs _ _ _).mp hx) hV]
    rfl

/-- Settles O44, by the variant match of the rows. -/
theorem encodeRejectsTheWrongVariant : Obligations.EncodeRejectsTheWrongVariant := by
  intro s id d m hs
  have hrow (t : DescType) (ht : messageType m ≠ t) :
      exec (encRow id d m t) s = .next { s with report := .raised (.encType id) } := by
    rw [exec_encRow, if_neg ht.symm]
    exact whenReady_concludeBytes_error hs rfl
  simp only [List.forall_mem_cons]
  exact ⟨hrow .raw, hrow .bool, hrow .enum, hrow .int, hrow .float, hrow .temp, hrow .power, hrow .energy, hrow .current,
    hrow .string, hrow .struct, List.forall_mem_nil _⟩

/-- Settles O45: without a descriptor by the lookup, with one by the row of its tag. -/
theorem wcEncodeSelectsTheArm : Obligations.WcEncodeSelectsTheArm := by
  intro s id m hs
  refine ⟨fun hnone => ⟨fun B hB => ?_, fun hm => ?_⟩, fun d hd => ?_⟩
  · rw [exec_wcEncode_ok_iff hs, hB, encodeMessage_raw_unknown hnone]
  · rw [exec_wcEncode_raised_iff hs, encodeMessage_unknown hnone _ hm]
  · have hrow {tag : Byte} (t : DescType) (ht : descTypeOf tag = some t) := exec_wcEncode_of_tag (m := m) hd ht
    simp only [List.forall_mem_cons]
    exact ⟨hrow .raw rfl, hrow .bool rfl, hrow .enum rfl, hrow .int rfl, hrow .float rfl, hrow .temp rfl,
      hrow .power rfl, hrow .energy rfl, hrow .current rfl, hrow .string rfl, hrow .struct rfl, List.forall_mem_nil _⟩

end Sys2Proof.Proofs

end

section
/-! ## Proofs: WC.DECODE and WC.ENCODE undo each other (spec/41_wire_codec.md R153) -/

namespace Sys2Proof.Machine

open Sys2Proof.Safety

/-! ### What a well-formed table says of a descriptor (R122) -/

/-- Every descriptor of a well-formed table has a type and the fields of that type. -/
theorem bodyFits_of_tableLegal {cfg : Cfg} {tab : DescTable} (htab : tableLegal cfg tab = true) {id : MsgId}
    {d : Descriptor} (hd : lookupDesc tab id = some d) : ∃ t, descTypeOf d.tag = some t ∧ bodyFits t d.body = true := by
  obtain ⟨before, after, hsplit, _⟩ := List.lookup_eq_some_iff.mp hd
  rw [tableLegal, Bool.and_eq_true, List.all_eq_true] at htab
  have hentry := htab.2 (id, d) (by simp [hsplit])
  rw [entryLegal] at hentry
  split at hentry
  · next t ht =>
    rw [Bool.and_eq_true] at hentry
    exact ⟨t, ht, hentry.1⟩
  · cases hentry

section Fits

variable {t : DescType} {d : DescBody} (hfit : bodyFits t d = true)
include hfit

/-- The checks on the fields that the sized arms read. -/
theorem fits_of_bodyFits :
    widthFits t d = true ∧ arithmeticFits t d = true ∧ signedFits t d = true ∧ enumSetFits t d = true := by
  simp only [bodyFits, Bool.and_eq_true] at hfit
  obtain ⟨⟨⟨⟨hwidth, harith⟩, hsigned⟩, henum⟩, _⟩ := hfit
  exact ⟨hwidth, harith, hsigned, henum⟩

/-- A width belongs to a sized type and is at least one byte. -/
theorem width_pos_of_fits {w : Nat} (hw : d.width = some w) : hasWidth t = true ∧ 0 < w := by
  obtain ⟨hwidth, _⟩ := fits_of_bodyFits hfit
  simp only [widthFits, hw, Bool.and_eq_true, Bool.or_eq_true, beq_iff_eq] at hwidth
  exact ⟨hwidth.1, by omega⟩

/-- An arithmetic is greater than 0. -/
theorem arithmetic_pos_of_fits {a : Rat} (ha : d.arithmetic = some a) : 0 < a := by
  obtain ⟨_, harith, _⟩ := fits_of_bodyFits hfit
  simp only [arithmeticFits, ha, Bool.and_eq_true, decide_eq_true_eq] at harith
  exact harith.2

/-- A member code fits the width. -/
theorem member_lt_of_fits {c w : Nat} (hc : isMember d c = true) (hw : d.width = some w) : c < 2 ^ (8 * w) := by
  obtain ⟨_, _, _, henum⟩ := fits_of_bodyFits hfit
  cases hset : d.enumSet with
  | none => simp [isMember, hset] at hc
  | some members =>
    obtain ⟨e, he, rfl⟩ := List.mem_map.mp ((isMember_iff hset c).mp hc)
    simp only [enumSetFits, hset, hw, Bool.and_eq_true, List.all_eq_true, decide_eq_true_eq, Option.getD_some] at henum
    exact henum.2 e he

/-! ### The sized arms, there and back -/

/-- Bytes encode an integer exactly where they decode to it. -/
theorem putInt_eq_ok_iff {id : MsgId} {p : Int} {B : Bytes} : putInt id d p = .ok B ↔ sizedInt d B = some p := by
  constructor
  · intro hput
    cases hw : d.width with
    | none => simp [putInt, hw] at hput
    | some w =>
      cases hsg : d.signed with
      | none => simp [putInt, hw, hsg] at hput
      | some sg =>
        obtain ⟨hrange, hok⟩ | ⟨_, herr⟩ := putInt_cases hw hsg id p
        · cases hok.symm.trans hput
          rw [sizedInt_eq (by rw [hw, bytesOfInt_length]) hsg,
            wireInt_bytesOfInt (width_pos_of_fits hfit hw).2 hrange]
        · cases herr.symm.trans hput
  · intro hint
    simp only [sizedInt, Option.ite_none_right_eq_some, widthOk_iff, Option.map_eq_some_iff] at hint
    obtain ⟨hw, sg, hsg, rfl⟩ := hint
    have hB : B ≠ [] := List.ne_nil_of_length_pos (width_pos_of_fits hfit hw).2
    rw [putInt_ok hw id hsg ((fitsWidth_iff_inRange _ _ _).mpr (inRange_wireInt sg B hB)), bytesOfInt_wireInt]

/-- Bytes encode a code exactly where they decode to it. -/
theorem putEnum_eq_ok_iff {id : MsgId} {c : Nat} {B : Bytes} :
    putEnum id d c = .ok B ↔ armEnum d B = some (.enum c) := by
  constructor
  · intro hput
    cases hw : d.width with
    | none => simp [putEnum, hw] at hput
    | some w =>
      rw [putEnum_eq hw] at hput
      split at hput
      · next hc =>
        cases hput
        rw [armEnum_eq (by rw [hw, bytesOf_length]), beu_bytesOf _ _ (member_lt_of_fits hfit hc hw), if_pos hc]
      · cases hput
  · intro harm
    simp only [armEnum, Option.ite_none_right_eq_some, Bool.and_eq_true, widthOk_iff] at harm
    obtain ⟨⟨hw, hc⟩, hcode⟩ := harm
    cases hcode
    rw [putEnum_eq hw, if_pos hc, bytesOf_beu]

/-- The bytes of a truth value decode to it, in both modes. -/
theorem armBool_of_putBool {cfg : Cfg} {id : MsgId} {b : Bool} {B : Bytes} (hput : putBool id d b = .ok B) :
    armBool cfg d B = some (.bool b) := by
  cases hw : d.width with
  | none => simp [putBool, hw] at hput
  | some w =>
    rw [putBool_eq hw] at hput
    cases hput
    have hfits : 1 < 2 ^ (8 * w) := Nat.one_lt_two_pow (by have := (width_pos_of_fits hfit hw).2; omega)
    rw [armBool_eq cfg (by rw [hw, bytesOf_length]), beu_bytesOf _ _ (by split <;> omega)]
    cases b <;> simp

/-- The bytes of a scaled value decode to it at the resolution. -/
theorem scaledValue_of_putScaled {cfg : Cfg} {tab : DescTable} {id : MsgId} {tag : Byte}
    (hd : lookupDesc tab id = some ⟨tag, d⟩) {q : Rat} {B : Bytes} (hput : putScaled cfg id d q = .ok B) :
    scaledValue d B = some (atResolution cfg tab id q) := by
  cases ha : d.arithmetic with
  | none => simp [putScaled, ha] at hput
  | some a =>
    rw [putScaled_eq ha, putInt_eq_ok_iff hfit] at hput
    simp only [scaledValue, atResolution, hd, ha, hput]

/-- Bytes that decode to a scaled value encode it, under a legal `ROUND`. -/
theorem putScaled_of_scaledValue {cfg : Cfg} (hround : LegalRound cfg.round) {id : MsgId} {q : Rat} {B : Bytes}
    (hvalue : scaledValue d B = some q) : putScaled cfg id d q = .ok B := by
  rw [scaledValue] at hvalue
  split at hvalue
  · next p a hp ha =>
    cases hvalue
    rw [putScaled_eq ha, roundBy_mul_div hround (arithmetic_pos_of_fits hfit ha), (putInt_eq_ok_iff hfit).mpr hp]
  · cases hvalue

end Fits

/-! ### Decode of encode -/

/-- An entry before a value that decodes to entries decodes to one entry more. -/
theorem armStruct_tlvEntry {sub : MsgId → Bytes → Message × DecStatus} {B : Bytes} {E : Entries}
    (hB : armStruct sub B = some (.struct E)) (subId : MsgId) {V : Bytes} (hV : V.length ≤ 253) :
    armStruct sub (tlvEntry subId V ++ B) = some (.struct (.cons subId (sub subId V).1 (sub subId V).2 E)) := by
  rw [armStruct] at hB
  split at hB
  · next es hes =>
    cases hB
    rw [armStruct, tlvSplit_entry subId V B hV, hes]
    rfl
  · cases hB

/-- The arm that a message's bytes come from reads them back, for a structure if it does so for the entries. -/
theorem runArm_of_putMessage {cfg : Cfg} {tab : DescTable} {id : MsgId} {d : Descriptor}
    (hd : lookupDesc tab id = some d) {m : Message} (htype : descTypeOf d.tag = some (messageType m))
    (hfit : bodyFits (messageType m) d.body = true) {B : Bytes} (hput : putMessage cfg tab id d.body m = .ok B)
    (hstruct : ∀ E, m = .struct E → armStruct (decodeMessage cfg tab) B = some (returned cfg tab m id)) :
    runArm (decodeMessage cfg tab) cfg d.tag d.body B = some (returned cfg tab m id) := by
  have hscaled (q : Rat) (f : Rat → Message) (hq : putScaled cfg id d.body q = .ok B) :
      (scaledValue d.body B).map f = some (f (atResolution cfg tab id q)) := by
    rw [scaledValue_of_putScaled hfit hd hq, Option.map_some]
  rw [runArm, htype]
  cases m with
  | bool b => exact armBool_of_putBool hfit hput
  | enum c => exact (putEnum_eq_ok_iff hfit).mp hput
  | int z => exact congrArg (Option.map Message.int) ((putInt_eq_ok_iff hfit).mp hput)
  | float q => exact hscaled q .float hput
  | temp q => exact hscaled q .temp hput
  | power q => exact hscaled q .power hput
  | energy q => exact hscaled q .energy hput
  | current q => exact hscaled q .current hput
  | raw V => cases hput; rfl
  | string V => cases hput; rfl
  | struct E => exact hstruct E rfl

/-- The status of a value decoded back: OK under a descriptor, UNKNOWN_ID without one. -/
def returnedStatus (tab : DescTable) (id : MsgId) : DecStatus :=
  if (lookupDesc tab id).isSome then .ok else .unknownId

/-- What WC.ENCODE writes WC.DECODE reads back, for a structure if it does so for the entries. -/
theorem decodeMessage_of_arm {cfg : Cfg} {tab : DescTable} (htab : tableLegal cfg tab = true) {m : Message} {id : MsgId}
    {B : Bytes} (h : encodeMessage cfg tab m id = .ok B)
    (hstruct : ∀ E, m = .struct E → encodeEntries cfg tab E id = .ok B →
      armStruct (decodeMessage cfg tab) B = some (returned cfg tab m id)) :
    decodeMessage cfg tab id B = (returned cfg tab m id, returnedStatus tab id) := by
  rw [encodeMessage_eq_withDescriptor] at h
  obtain ⟨hnone, V, rfl, hok⟩ | ⟨_, _, herr⟩ | ⟨d, hd, htype, harm⟩ | ⟨_, _, _, herr⟩ :=
    withDescriptor_cases tab id m fun d => putMessage cfg tab id d m
  · cases hok.symm.trans h
    rw [decodeMessage_unknown hnone, returnedStatus, hnone]
    rfl
  · cases herr.symm.trans h
  · have hput := harm.symm.trans h
    obtain ⟨t, ht, hfit⟩ := bodyFits_of_tableLegal htab hd
    cases htype.symm.trans ht
    have hrun := runArm_of_putMessage hd htype hfit hput fun E hE => hstruct E hE (by rwa [hE] at hput)
    rw [decodeMessage_known hd, hrun, returnedStatus, hd]
    rfl
  · cases herr.symm.trans h

mutual
/-- WC.DECODE reads back what WC.ENCODE writes, by recursion on the message (R153). -/
theorem decodeMessage_of_encodeMessage {cfg : Cfg} {tab : DescTable} (htab : tableLegal cfg tab = true) (m : Message)
    {id : MsgId} {B : Bytes} (h : encodeMessage cfg tab m id = .ok B) :
    decodeMessage cfg tab id B = (returned cfg tab m id, returnedStatus tab id) := by
  refine decodeMessage_of_arm htab h ?_
  cases m with
  | struct E =>
    intro E' hE' hok
    cases hE'
    exact armStruct_of_encodeEntries htab E hok
  | _ =>
    intro E hE
    cases hE
/-- The same for the entries of a structure. -/
theorem armStruct_of_encodeEntries {cfg : Cfg} {tab : DescTable} (htab : tableLegal cfg tab = true) (E : Entries)
    {id : MsgId} {B : Bytes} (h : encodeEntries cfg tab E id = .ok B) :
    armStruct (decodeMessage cfg tab) B = some (.struct (returnedEntries cfg tab E)) := by
  cases E with
  | nil =>
    cases h
    rfl
  | cons subId m st rest =>
    obtain ⟨_, _, herr⟩ | ⟨_, _, _, herr⟩ | ⟨V, hV, hlen, heq⟩ := encodeEntries_cons cfg tab subId m st rest id
    · cases herr.symm.trans h
    · cases herr.symm.trans h
    · have hmore := heq.symm.trans h
      cases hrest : encodeEntries cfg tab rest id
      all_goals
        rw [hrest] at hmore
        cases hmore
      have hsub := decodeMessage_of_encodeMessage htab m hV
      rw [armStruct_tlvEntry (armStruct_of_encodeEntries htab rest hrest) subId hlen, hsub]
      rfl
end

/-! ### Encode of decode -/

/-- Bytes that decode to a truth value encode it, where they are 0 or 1. -/
theorem putBool_of_armBool {cfg : Cfg} {id : MsgId} {d : DescBody} {B : Bytes} {m : Message}
    (harm : armBool cfg d B = some m) (hbool : ∀ b, m = .bool b → beu B < 2) :
    ∃ b, m = .bool b ∧ putBool id d b = .ok B := by
  have hw : d.width = some B.length := by
    by_contra hw
    simp [armBool, mt (widthOk_iff d B).mp hw] at harm
  have hput (b : Bool) (hb : (if b then 1 else 0) = beu B) : putBool id d b = .ok B := by
    rw [putBool_eq hw, hb, bytesOf_beu]
  rw [armBool_eq cfg hw] at harm
  split at harm
  · next hzero =>
    cases harm
    exact ⟨false, rfl, hput false hzero.symm⟩
  · split at harm
    · next hzero _ =>
      cases harm
      have hlt := hbool true rfl
      exact ⟨true, rfl, hput true (by simp only [if_true]; omega)⟩
    · cases harm

/-- A sized value that its arm reads is what the message's own arm writes. -/
theorem putMessage_of_runArm {cfg : Cfg} (hround : LegalRound cfg.round) {tab : DescTable} {id : MsgId} {tag : Byte}
    {d : DescBody} {t : DescType} (htype : descTypeOf tag = some t) (hfit : bodyFits t d = true)
    (hsized : hasWidth t = true) {sub : MsgId → Bytes → Message × DecStatus} {B : Bytes} {m : Message}
    (hrun : runArm sub cfg tag d B = some m) (hbool : ∀ b, m = .bool b → beu B < 2) :
    messageType m = t ∧ putMessage cfg tab id d m = .ok B := by
  have hscaled {f : Rat → Message} (h : (scaledValue d B).map f = some m) :
      ∃ q, m = f q ∧ putScaled cfg id d q = .ok B := by
    obtain ⟨q, hq, rfl⟩ := Option.map_eq_some_iff.mp h
    exact ⟨q, rfl, putScaled_of_scaledValue hfit hround hq⟩
  rw [runArm, htype] at hrun
  cases t with
  | raw | string | struct => cases hsized
  | bool =>
    obtain ⟨b, rfl, hput⟩ := putBool_of_armBool (id := id) hrun hbool
    exact ⟨rfl, hput⟩
  | enum =>
    have hcode := hrun
    simp only [armEnum, Option.ite_none_right_eq_some] at hcode
    obtain ⟨_, hcode⟩ := hcode
    cases hcode
    exact ⟨rfl, (putEnum_eq_ok_iff hfit).mpr hrun⟩
  | int =>
    obtain ⟨p, hp, rfl⟩ := Option.map_eq_some_iff.mp hrun
    exact ⟨rfl, (putInt_eq_ok_iff hfit).mpr hp⟩
  | float | temp | power | energy | current =>
    obtain ⟨q, rfl, hput⟩ := hscaled hrun
    exact ⟨rfl, hput⟩

/-- WC.DECODE answers OK only with what the arm of the descriptor's type reads. -/
theorem runArm_of_decodeMessage_ok {cfg : Cfg} {tab : DescTable} {id : MsgId} {d : Descriptor}
    (hd : lookupDesc tab id = some d) {B : Bytes} {m : Message} (h : decodeMessage cfg tab id B = (m, .ok)) :
    runArm (decodeMessage cfg tab) cfg d.tag d.body B = some m := by
  rw [decodeMessage_known hd] at h
  obtain ⟨_, hrun, hres⟩ | ⟨_, _, _, hres⟩ | ⟨_, _, hres⟩ :=
    resolve_cases d.body B (runArm (decodeMessage cfg tab) cfg d.tag d.body B)
  · cases hres.symm.trans h
    exact hrun
  · cases hres.symm.trans h
  · cases hres.symm.trans h

end Sys2Proof.Machine

namespace Sys2Proof.Proofs

open Sys2Proof.Machine Sys2Proof.Safety

/-- Settles O46, by recursion on the message and the entries of a structure. -/
theorem decodeInvertsEncode : Obligations.DecodeInvertsEncode := by
  intro s id m B hs htab hd h
  have hdecode := decodeMessage_of_encodeMessage htab m ((exec_wcEncode_ok_iff hs id m B).mp h)
  rw [exec_wcDecode_of_ready hs, hdecode, returnedStatus, if_pos hd]

/-- Settles O47: the arm that reads a sized value answers a message of its own type, whose bytes are the value. -/
theorem encodeInvertsDecode : Obligations.EncodeInvertsDecode := by
  intro s id d B m hs hround htab hd hwidth h hbool
  obtain ⟨t, htype, hfit⟩ := bodyFits_of_tableLegal htab hd
  obtain ⟨w, hw⟩ := Option.isSome_iff_exists.mp hwidth
  rw [bigEndian_eq_beu] at hbool
  have hok : decodeMessage s.cfg s.descTable id B = (m, .ok) :=
    eq_of_withMessage (Host.Outcome.next.inj ((exec_wcDecode_of_ready hs id B).symm.trans h))
  obtain ⟨hm, hput⟩ := putMessage_of_runArm (tab := s.descTable) (id := id) hround htype hfit
    (width_pos_of_fits hfit hw).1 (runArm_of_decodeMessage_ok hd hok) hbool
  rw [exec_wcEncode_ok_iff hs, encodeMessage_known hd, htype, if_pos (congrArg some hm.symm), hput]

end Sys2Proof.Proofs

end

section
/-! ## Proofs: the operations that keep nothing (spec/10_state.md R27) -/

namespace Sys2Proof.Machine

open Sys2Proof.Safety

/-- In two states of one configuration and one table an operation that keeps nothing ends with the same results or cause:
its arm computes them from the operands and those two fields. -/
theorem exec_of_pure {s t : State} {i : Instr} (hcfg : s.cfg = t.cfg) (htab : s.descTable = t.descTable)
    (hbuf : writesRxbuf i = false) (hcrc : writesCrc i = false) (hcheck : ∀ e : Word16, i ≠ .crcCheck e) :
    ∃ x : Except Cause Result, exec i s = whenReady s (conclude s x) ∧ exec i t = whenReady t (conclude t x) := by
  obtain ⟨_, _, _, cfg, tab, _, _⟩ := s
  obtain ⟨_, _, _, _, _, _, _⟩ := t
  obtain rfl : cfg = _ := hcfg
  obtain rfl : tab = _ := htab
  cases i
  case sysReset | faPush | stx | etx | faFlush => exact absurd hbuf.symm Bool.false_ne_true
  case crcInit | crcByte => exact absurd hcrc.symm Bool.false_ne_true
  case crcCheck e => exact absurd rfl (hcheck e)
  case epParse | epDecode | wcEncode | epBuild | faBuild | dsK0 | dsK1 | dsK2 | dsK3 | encRaw | encBool | encEnum |
      encInt | encFloat | encTemp | encPower | encEnergy | encCurrent | encString | encStruct =>
    exact ⟨_, rfl, rfl⟩
  all_goals exact ⟨.ok _, rfl, rfl⟩

end Sys2Proof.Machine

namespace Sys2Proof.Proofs

open Sys2Proof.Machine

/-- Settles O55: both runs end with the same results or the same cause, which is all that they write. -/
theorem pureOperationsReadOnlyConfiguration : Obligations.PureOperationsReadOnlyConfiguration := by
  intro s t i hs ht hcfg htab hbuf hcrc hcheck
  obtain ⟨x, hxs, hxt⟩ := exec_of_pure hcfg htab hbuf hcrc hcheck
  rw [hxs, hxt, whenReady_of_ready hs, whenReady_of_ready ht]
  cases x with
  | ok r => exact ⟨.ok r, rfl, rfl⟩
  | error c => exact ⟨.raised c, rfl, rfl⟩

end Sys2Proof.Proofs

end

section
/-! ## Proofs: the drain loop does what the step rules say (spec/42_frame_assembler.md R173 to R184) -/

namespace Sys2Proof.Machine

open Sys2Proof.Safety

/-! ### One pass on a candidate, one equation per rule -/

section Candidate

variable {cfg : Cfg} {h l : Byte} {R : Bytes}

/-- Step 3 (R177). -/
theorem drainPass_waitHeader (hR : R.length < 2) :
    drainPass cfg (0x32 :: R) = .stop [.waitHeader (R.length + 1)] (0x32 :: R) :=
  (drainPass_stx cfg R).trans (by simp [candidate, stxByte, show R.length + 1 < 3 by omega])

theorem totalLen_candidate (b h l : Byte) (R : Bytes) : totalLen (b :: h :: l :: R) = lenTotal h l := rfl

/-- Step 4, over the cap (R178). -/
theorem drainPass_lenCap (hcap : cfg.lenCap < lenTotal h l) :
    drainPass cfg (0x32 :: h :: l :: R) = .again [.dropLencap (lenTotal h l)] (h :: l :: R) :=
  (drainPass_stx cfg (h :: l :: R)).trans (by simp [candidate, totalLen_candidate, hcap])

/-- Step 4, too small (R179). -/
theorem drainPass_lenMin (hcap : lenTotal h l ≤ cfg.lenCap) (hmin : lenTotal h l < 6) :
    drainPass cfg (0x32 :: h :: l :: R) = .again [.dropLenmin (lenTotal h l)] (h :: l :: R) :=
  (drainPass_stx cfg (h :: l :: R)).trans
    (by simp [candidate, totalLen_candidate, minTotal, hmin, Nat.not_lt.mpr hcap])

/-- Step 5, a jump (R181). -/
theorem candidate_jump {B : Bytes} {j : Nat} (hheader : 3 ≤ B.length) (hcap : totalLen B ≤ cfg.lenCap)
    (hmin : 6 ≤ totalLen B) (hlen : B.length < totalLen B) (hj : jumpTarget cfg B (totalLen B) = some j) :
    candidate cfg [] B = .again [.jumpStx j] (B.drop j) := by
  rw [candidate, minTotal, if_neg (by omega), if_neg (by omega), if_neg (by omega), if_pos hlen, hj]
  rfl

/-- Step 5, a wait (R180). -/
theorem candidate_waitBody {B : Bytes} (hheader : 3 ≤ B.length) (hcap : totalLen B ≤ cfg.lenCap)
    (hmin : 6 ≤ totalLen B) (hlen : B.length < totalLen B) (hj : jumpTarget cfg B (totalLen B) = none) :
    candidate cfg [] B = .stop [.waitBody B.length (totalLen B)] B := by
  rw [candidate, minTotal, if_neg (by omega), if_neg (by omega), if_neg (by omega), if_pos hlen, hj]
  rfl

/-- Steps 6 to 8, once the whole candidate is present. -/
theorem candidate_complete {B : Bytes} (hheader : 3 ≤ B.length) (hcap : totalLen B ≤ cfg.lenCap)
    (hmin : 6 ≤ totalLen B) (hlen : totalLen B ≤ B.length) :
    candidate cfg [] B = checkFrame [] B (totalLen B) := by
  rw [candidate, minTotal, if_neg (by omega), if_neg (by omega), if_neg (by omega), if_neg (by omega)]

/-- Steps 6 to 8 on a candidate with its length bytes named. -/
theorem drainPass_complete (hcap : lenTotal h l ≤ cfg.lenCap) (hmin : 6 ≤ lenTotal h l)
    (hlen : lenTotal h l ≤ R.length + 3) :
    drainPass cfg (0x32 :: h :: l :: R) = checkFrame [] (0x32 :: h :: l :: R) (lenTotal h l) :=
  (drainPass_stx cfg (h :: l :: R)).trans (candidate_complete (by simp) hcap hmin hlen)

/-- The jump goes to the first STX behind the candidate's own, if it lies in the window (R181). -/
theorem jumpTarget_eq_some {b : Byte} {A G Q : Bytes} {T : Nat} (hslack : A.length + 1 + cfg.jumpSlack < T)
    (hA : A = G ++ 0x32 :: Q) (hG : NoStx G) (hwindow : G.length + 1 ≤ cfg.jumpWindow) :
    jumpTarget cfg (b :: A) T = some (G.length + 1) := by
  obtain ⟨w, hw⟩ : ∃ w, cfg.jumpWindow = G.length + (w + 1) := ⟨cfg.jumpWindow - (G.length + 1), by omega⟩
  have hfind : findStx (A.take cfg.jumpWindow) = some G.length := by
    rw [hA, hw, List.take_length_add_append]
    exact findStx_append G (Q.take w) hG
  have hmissing : cfg.jumpSlack < T - (b :: A).length := by rw [List.length_cons]; omega
  simp only [jumpTarget, hmissing, List.drop_one, List.tail_cons, hfind, if_true]

/-- No jump where few bytes are missing, or the first STX lies behind the window (R180). -/
theorem jumpTarget_eq_none {b : Byte} {A : Bytes} {T : Nat}
    (hwait : T ≤ A.length + 1 + cfg.jumpSlack ∨
      ∀ G Q, A = G ++ 0x32 :: Q → NoStx G → cfg.jumpWindow < G.length + 1) :
    jumpTarget cfg (b :: A) T = none := by
  refine Option.eq_none_iff_forall_ne_some.mpr fun j hj => ?_
  obtain ⟨hmissing, G, Q, htake, _, hG⟩ := jumpTarget_some hj
  rw [List.drop_one, List.tail_cons] at htake
  rcases hwait with hfew | hfar
  · rw [List.length_cons] at hmissing
    omega
  · have hA : A = G ++ 0x32 :: (Q ++ A.drop cfg.jumpWindow) := by
      calc A = A.take cfg.jumpWindow ++ A.drop cfg.jumpWindow := (List.take_append_drop _ _).symm
        _ = G ++ 0x32 :: (Q ++ A.drop cfg.jumpWindow) := by rw [htake]; simp [stxByte]
    have hshort : (A.take cfg.jumpWindow).length ≤ cfg.jumpWindow := List.length_take_le _ _
    rw [htake, List.length_append, List.length_cons] at hshort
    have := hfar G _ hA hG
    omega

/-- The last byte of a complete candidate stands at offset `total_len - 1`. -/
theorem byteAt_candidate (b h l e : Byte) (C R : Bytes) :
    byteAt (b :: h :: l :: (C ++ e :: R)) (C.length + 3) = e :=
  byteAt_append_length C e R

/-- The payload and the CRC field of a complete candidate (R183). -/
theorem fields_candidate (b h l c1 c0 e : Byte) (P R : Bytes) :
    slice (b :: h :: l :: (P ++ c1 :: c0 :: e :: R)) 3 (P.length + 3) = P ∧
      word16At (b :: h :: l :: (P ++ c1 :: c0 :: e :: R)) (P.length + 3) = c1 ++ c0 ∧
      byteAt (b :: h :: l :: (P ++ c1 :: c0 :: e :: R)) (P.length + 5) = e := by
  have hlow : byteAt (P ++ c1 :: c0 :: e :: R) (P.length + 1) = c0 := by
    simpa using byteAt_append_length (P ++ [c1]) c0 (e :: R)
  have hlast : byteAt (P ++ c1 :: c0 :: e :: R) (P.length + 2) = e := by
    simpa using byteAt_append_length (P ++ [c1, c0]) e R
  refine ⟨?_, ?_, hlast⟩
  · rw [Nat.add_comm]
    exact slice_append [b, h, l] P (c1 :: c0 :: e :: R)
  · exact congrArg₂ BitVec.append (byteAt_append_length P c1 (c0 :: e :: R)) hlow

/-- Step 6 (R182). -/
theorem drainPass_notEtx {e : Byte} {C : Bytes} (hcap : lenTotal h l ≤ cfg.lenCap)
    (hlen : lenTotal h l = C.length + 4) (hmin : 6 ≤ lenTotal h l) (he : e ≠ 0x34) :
    drainPass cfg (0x32 :: h :: l :: (C ++ e :: R)) = .again [.dropEtx e] (h :: l :: (C ++ e :: R)) := by
  have hbyte := byteAt_candidate 0x32 h l e C R
  rw [drainPass_complete hcap hmin (by simp; omega), hlen]
  simp only [checkFrame, Nat.reduceSubDiff, hbyte]
  exact if_pos he

/-- Steps 7 and 8 (R183, R184). -/
theorem drainPass_etx {c1 c0 : Byte} {P : Bytes} (hcap : lenTotal h l ≤ cfg.lenCap)
    (hlen : lenTotal h l = P.length + 6) :
    drainPass cfg (0x32 :: h :: l :: (P ++ c1 :: c0 :: 0x34 :: R)) =
      if crc16 P ≠ (c1 ++ c0 : BitVec 16) then
        .again [.dropCrc (crc16 P) (c1 ++ c0)] (h :: l :: (P ++ c1 :: c0 :: 0x34 :: R))
      else .again [.emit P] R := by
  obtain ⟨hpayload, hfield, hlast⟩ := fields_candidate 0x32 h l c1 c0 0x34 P R
  have hrest : (0x32 :: h :: l :: (P ++ c1 :: c0 :: 0x34 :: R)).drop (P.length + 6) = R := by
    simp [List.drop_append]
  rw [drainPass_complete hcap (by omega) (by simp; omega), hlen]
  simp only [checkFrame, Nat.reduceSubDiff, hpayload, hfield, hlast, hrest]
  rfl

/-- Step 5 (R181), with the parts of the buffer named. -/
theorem drainPass_jump {G Q : Bytes} (hcap : lenTotal h l ≤ cfg.lenCap) (hmin : 6 ≤ lenTotal h l)
    (hslack : R.length + 3 + cfg.jumpSlack < lenTotal h l) (hR : h :: l :: R = G ++ 0x32 :: Q) (hG : NoStx G)
    (hwindow : G.length + 1 ≤ cfg.jumpWindow) :
    drainPass cfg (0x32 :: h :: l :: R) = .again [.jumpStx (G.length + 1)] (0x32 :: Q) := by
  have hj : jumpTarget cfg (0x32 :: h :: l :: R) (lenTotal h l) = some (G.length + 1) :=
    jumpTarget_eq_some (by simp; omega) hR hG hwindow
  have hpass : drainPass cfg (0x32 :: h :: l :: R) =
      .again [.jumpStx (G.length + 1)] ((0x32 :: h :: l :: R).drop (G.length + 1)) :=
    (drainPass_stx cfg (h :: l :: R)).trans
      (candidate_jump (by simp) hcap hmin (Nat.lt_of_le_of_lt (Nat.le_add_right _ _) hslack) hj)
  rw [hpass, List.drop_succ_cons, hR, List.drop_left]

/-- Step 5 (R180), with the parts of the buffer named. -/
theorem drainPass_waitBody (hcap : lenTotal h l ≤ cfg.lenCap) (hmin : 6 ≤ lenTotal h l)
    (hlen : R.length + 3 < lenTotal h l)
    (hwait : lenTotal h l ≤ R.length + 3 + cfg.jumpSlack ∨
      ∀ G Q, h :: l :: R = G ++ 0x32 :: Q → NoStx G → cfg.jumpWindow < G.length + 1) :
    drainPass cfg (0x32 :: h :: l :: R) =
      .stop [.waitBody (R.length + 3) (lenTotal h l)] (0x32 :: h :: l :: R) :=
  (drainPass_stx cfg (h :: l :: R)).trans
    (candidate_waitBody (by simp) hcap hmin hlen (jumpTarget_eq_none hwait))

end Candidate

/-! ### The loop and the relation -/

/-- A pass with one event that does not stop, put before the rest of the loop. -/
theorem drain_resync {cfg : Cfg} {B B' out : Bytes} {e : Event} {es : List Event}
    (hpass : drainPass cfg B = .again [e] B') (hrest : drain cfg B' = (es, out)) : drain cfg B = (e :: es, out) := by
  rw [drain_again hpass, hrest]
  rfl

/-- The loop gives what the step rules give: rule by rule, and so the step rules give one result only. -/
theorem drain_of_drains {cfg : Cfg} {B out : Bytes} {es : List Event} (hd : Drains cfg B es out) :
    drain cfg B = (es, out) := by
  induction hd with
  | empty => rfl
  | noStx G hne hG =>
    obtain ⟨hnil, _⟩ | ⟨_, _, e⟩ | ⟨R, hR, _⟩ | ⟨A, R, _, _, hR, _⟩ := drainPass_cases cfg G
    · exact absurd hnil hne
    · exact drain_stop e
    · exact absurd rfl (hG stxByte (by simp [hR]))
    · exact absurd rfl (hG stxByte (by simp [hR]))
  | garbage G R es out hne hG _ ih =>
    exact (drain_garbage cfg R hne hG).trans (congrArg (fun r => (Event.discardPrefix G.length :: r.1, r.2)) ih)
  | waitHeader R hR => exact drain_stop (drainPass_waitHeader hR)
  | lenCap h l R es out hcap _ ih => exact drain_resync (drainPass_lenCap hcap) ih
  | lenMin h l R es out hcap hmin _ ih => exact drain_resync (drainPass_lenMin hcap hmin) ih
  | jump h l R G Q es out hcap hmin hslack hR hG hwindow _ ih =>
    exact drain_resync (drainPass_jump hcap hmin hslack hR hG hwindow) ih
  | waitBody h l R hcap hmin hlen hwait => exact drain_stop (drainPass_waitBody hcap hmin hlen hwait)
  | notEtx h l e C R es out hcap hlen hmin he _ ih => exact drain_resync (drainPass_notEtx hcap hlen hmin he) ih
  | badCrc h l c1 c0 P R es out hcap hlen hcrc _ ih =>
    exact drain_resync ((drainPass_etx hcap hlen).trans (if_pos hcrc)) ih
  | emit h l c1 c0 P R es out hcap hlen hcrc _ ih =>
    exact drain_resync ((drainPass_etx hcap hlen).trans (if_neg (not_not.mpr hcrc))) ih

/-- A buffer holds no STX, or splits at its first one. -/
theorem noStx_or_split (B : Bytes) : NoStx B ∨ ∃ G R, B = G ++ 0x32 :: R ∧ NoStx G := by
  cases hf : findStx B with
  | none => exact .inl (findStx_none.mp hf)
  | some k =>
    obtain ⟨G, R, hB, _, hG⟩ := findStx_some hf
    exact .inr ⟨G, R, hB, hG⟩

/-- A complete candidate with its last three bytes named. -/
theorem split_complete {R : Bytes} {n : Nat} (hn : n + 3 ≤ R.length) :
    ∃ (P : Bytes) (c1 c0 e : Byte) (Q : Bytes), P.length = n ∧ R = P ++ c1 :: c0 :: e :: Q := by
  have htail : 3 ≤ (R.drop n).length := by rw [List.length_drop]; omega
  match hR : R.drop n, htail with
  | c1 :: c0 :: e :: Q, _ =>
    exact ⟨R.take n, c1, c0, e, Q, by rw [List.length_take]; omega, by rw [← hR, List.take_append_drop]⟩

/-- On a candidate with bytes missing step 5 applies. -/
theorem exists_drains_incomplete {cfg : Cfg} {h l : Byte} {R : Bytes} (hcap : lenTotal h l ≤ cfg.lenCap)
    (hmin : 6 ≤ lenTotal h l) (hlen : R.length + 3 < lenTotal h l)
    (ih : ∀ B : Bytes, B.length < R.length + 3 → ∃ es out, Drains cfg B es out) :
    ∃ es out, Drains cfg (0x32 :: h :: l :: R) es out := by
  by_cases hslack : R.length + 3 + cfg.jumpSlack < lenTotal h l
  · by_cases hjump : ∃ G Q, h :: l :: R = G ++ 0x32 :: Q ∧ NoStx G ∧ G.length + 1 ≤ cfg.jumpWindow
    · obtain ⟨G, Q, hR, hG, hwindow⟩ := hjump
      have hshort := congrArg List.length hR
      simp only [List.length_cons, List.length_append] at hshort
      obtain ⟨es, out, hjumped⟩ := ih (0x32 :: Q) (by rw [List.length_cons]; omega)
      exact ⟨_, _, .jump h l R G Q es out hcap hmin hslack hR hG hwindow hjumped⟩
    · exact ⟨_, _, .waitBody h l R hcap hmin hlen
        (.inr fun G Q hR hG => Nat.lt_of_not_le fun hwindow => hjump ⟨G, Q, hR, hG, hwindow⟩)⟩
  · exact ⟨_, _, .waitBody h l R hcap hmin hlen (.inl (Nat.not_lt.mp hslack))⟩

/-- On a complete candidate step 6, 7 or 8 applies. -/
theorem exists_drains_complete {cfg : Cfg} {h l : Byte} {R : Bytes} (hcap : lenTotal h l ≤ cfg.lenCap)
    (hmin : 6 ≤ lenTotal h l) (hlen : lenTotal h l ≤ R.length + 3)
    (ih : ∀ B : Bytes, B.length < R.length + 3 → ∃ es out, Drains cfg B es out) :
    ∃ es out, Drains cfg (0x32 :: h :: l :: R) es out := by
  obtain ⟨es, out, hdrop⟩ := ih (h :: l :: R) (by simp)
  obtain ⟨P, c1, c0, e, Q, hP, rfl⟩ := split_complete (R := R) (n := lenTotal h l - 6) (by omega)
  have htotal : lenTotal h l = P.length + 6 := by omega
  by_cases he : e = 0x34
  · subst he
    by_cases hcrc : crc16 P = (c1 ++ c0 : BitVec 16)
    · obtain ⟨es, out, hrest⟩ := ih Q (by simp; omega)
      exact ⟨_, _, .emit h l c1 c0 P Q es out hcap htotal hcrc hrest⟩
    · exact ⟨_, _, .badCrc h l c1 c0 P Q es out hcap htotal hcrc hdrop⟩
  · have hC : P ++ c1 :: c0 :: e :: Q = (P ++ [c1, c0]) ++ e :: Q := by simp
    rw [hC] at hdrop ⊢
    exact ⟨_, _, .notEtx h l e (P ++ [c1, c0]) Q es out hcap (by simpa using htotal) hmin he hdrop⟩

/-- On a candidate some step rule applies, if the loop has a result from every shorter buffer. -/
theorem exists_drains_candidate {cfg : Cfg} {h l : Byte} {R : Bytes}
    (ih : ∀ B : Bytes, B.length < R.length + 3 → ∃ es out, Drains cfg B es out) :
    ∃ es out, Drains cfg (0x32 :: h :: l :: R) es out := by
  obtain ⟨es, out, hdrop⟩ := ih (h :: l :: R) (by simp)
  by_cases hcap : cfg.lenCap < lenTotal h l
  · exact ⟨_, _, .lenCap h l R es out hcap hdrop⟩
  by_cases hmin : lenTotal h l < 6
  · exact ⟨_, _, .lenMin h l R es out (Nat.not_lt.mp hcap) hmin hdrop⟩
  by_cases hlen : R.length + 3 < lenTotal h l
  · exact exists_drains_incomplete (Nat.not_lt.mp hcap) (Nat.not_lt.mp hmin) hlen ih
  · exact exists_drains_complete (Nat.not_lt.mp hcap) (Nat.not_lt.mp hmin) (Nat.not_lt.mp hlen) ih

/-- The step rules give a result from every buffer: every rule but a stop goes on with a shorter one (R186). -/
theorem exists_drains (cfg : Cfg) (B : Bytes) : ∃ es out, Drains cfg B es out := by
  obtain hG | ⟨G, R, hB, hG⟩ := noStx_or_split B
  · by_cases hne : B = []
    · exact ⟨_, _, hne.symm ▸ Drains.empty⟩
    · exact ⟨_, _, .noStx B hne hG⟩
  rw [hB]
  by_cases hne : G = []
  · rw [hne, List.nil_append] at hB ⊢
    match R with
    | [] => exact ⟨_, _, .waitHeader [] (by decide)⟩
    | [h] => exact ⟨_, _, .waitHeader [h] (Nat.lt_succ_self 1)⟩
    | h :: l :: R =>
      refine exists_drains_candidate fun B' hB' => ?_
      have hshort : B'.length < B.length := hB ▸ hB'
      exact exists_drains cfg B'
  · have hshort : (0x32 :: R : Bytes).length < B.length := by
      have := List.length_pos_of_ne_nil hne
      rw [hB, List.length_append]
      omega
    obtain ⟨es, out, hrest⟩ := exists_drains cfg (0x32 :: R)
    exact ⟨_, _, .garbage G R es out hne hG hrest⟩
termination_by B.length

/-- The loop is a run of the step rules. -/
theorem drains_drain (cfg : Cfg) (B : Bytes) : Drains cfg B (drain cfg B).1 (drain cfg B).2 := by
  obtain ⟨es, out, hd⟩ := exists_drains cfg B
  rw [drain_of_drains hd]
  exact hd

/-! ### The instructions that push -/

@[simp] theorem pushBytes_cfg (s : State) (data : Bytes) : (pushBytes s data).cfg = s.cfg := rfl

/-- FA.PUSH, STX and ETX in a ready block push bytes. -/
theorem exec_push_of_ready {s : State} (hs : s.ready = true) {i : Instr} {data : Bytes}
    (hi : i = .faPush data ∨ (i = .stx ∧ data = [0x32]) ∨ (i = .etx ∧ data = [0x34])) :
    exec i s = .next (pushBytes s data) := by
  rw [← whenReady_of_ready hs]
  obtain rfl | ⟨rfl, rfl⟩ | ⟨rfl, rfl⟩ := hi
  · rfl
  · rfl
  · rfl

theorem exec_faPush_of_ready {s : State} (hs : s.ready = true) (data : Bytes) :
    exec (.faPush data) s = .next (pushBytes s data) :=
  exec_push_of_ready hs (.inl rfl)

end Sys2Proof.Machine

namespace Sys2Proof.Proofs

open Sys2Proof.Machine

/-- Settles O8: the loop is a run of the step rules, and every run of them is the loop's. -/
theorem pushFollowsTheStepRules : Obligations.PushFollowsTheStepRules := by
  intro s data i hs hi hbound
  have hexec := exec_push_of_ready hs hi
  rw [pushBytes_eq, pushResult_drain hbound] at hexec
  exact ⟨_, _, hexec, drains_drain s.cfg (s.rxbuf ++ data), fun _ _ hd => Prod.mk.inj (drain_of_drains hd).symm⟩

end Sys2Proof.Proofs

end

section
/-! ## Proofs: how the drain loop ends (spec/42_frame_assembler.md R171, R186, R187) -/

namespace Sys2Proof.Machine

open Sys2Proof.Safety

/-! ### The stop -/

/-- A run ends in its one stop event, and from the buffer it leaves the loop stops at once with that stop repeated
(R171, R187). -/
def EndsInStop (cfg : Cfg) (es : List Event) (out : Bytes) : Prop :=
  ∃ init last, es = init ++ [last] ∧ isStop last = true ∧ (∀ e ∈ init, isStop e = false) ∧
    drain cfg out = ([repeatedStop last], out)

/-- A run of one stop event. -/
theorem EndsInStop.single {cfg : Cfg} {e : Event} {out : Bytes} (he : isStop e = true)
    (hagain : Drains cfg out [repeatedStop e] out) : EndsInStop cfg [e] out :=
  ⟨[], e, rfl, he, by simp, drain_of_drains hagain⟩

/-- An event that is no stop comes before the rest of a run. -/
theorem EndsInStop.cons {cfg : Cfg} {e : Event} {es : List Event} {out : Bytes} (he : isStop e = false)
    (hes : EndsInStop cfg es out) : EndsInStop cfg (e :: es) out := by
  obtain ⟨init, last, rfl, hlast, hinit, hagain⟩ := hes
  exact ⟨e :: init, last, rfl, hlast, List.forall_mem_cons.mpr ⟨he, hinit⟩, hagain⟩

/-- A waiting stop leaves the buffer from which it waits again; the other stops leave the empty buffer. -/
theorem endsInStop_of_drains {cfg : Cfg} {B out : Bytes} {es : List Event} (hd : Drains cfg B es out) :
    EndsInStop cfg es out := by
  induction hd with
  | empty => exact .single rfl .empty
  | noStx => exact .single rfl .empty
  | waitHeader R hR => exact .single rfl (.waitHeader R hR)
  | waitBody h l R hcap hmin hlen hwait => exact .single rfl (.waitBody h l R hcap hmin hlen hwait)
  | garbage | lenCap | lenMin | jump | notEtx | badCrc | emit => exact .cons rfl ‹_›

/-- A push ends in one stop too, OVERFLOW included, and leaves room for an empty push. -/
theorem endsInStop_pushResult (cfg : Cfg) (B : Bytes) :
    EndsInStop cfg (pushResult cfg B).1 (pushResult cfg B).2 := by
  by_cases hB : B.length ≤ cfg.maxBufferSize
  · rw [pushResult_drain hB]
    exact endsInStop_of_drains (drains_drain cfg B)
  · rw [pushResult_overflow (Nat.lt_of_not_le hB)]
    exact .single rfl .empty

/-! ### The payloads -/

@[simp] theorem emits_emit_cons (P : Bytes) (es : List Event) : emits (.emit P :: es) = P :: emits es := rfl

/-- Every payload emitted takes at least the six bytes of its frame out of the buffer (R186). -/
theorem emits_length_of_drains {cfg : Cfg} {B out : Bytes} {es : List Event} (hd : Drains cfg B es out) :
    6 * (emits es).length + out.length ≤ B.length := by
  induction hd with
  | empty | noStx => exact Nat.zero_le _
  | waitHeader | waitBody => exact Nat.le_of_eq (Nat.zero_add _)
  | garbage | lenCap | lenMin | notEtx | badCrc => exact Nat.le_trans ‹6 * _ + _ ≤ _› (by simp)
  | jump h l R G Q es out _ _ _ hR _ _ _ ih =>
    exact Nat.le_trans ih (by simp only [hR, List.length_cons, List.length_append]; omega)
  | emit h l c1 c0 P R es out _ _ _ _ ih =>
    simp only [emits_emit_cons, List.length_cons, List.length_append]
    omega

/-- An overflow emits nothing. -/
theorem emits_length_pushResult (cfg : Cfg) (B : Bytes) : 6 * (emits (pushResult cfg B).1).length ≤ B.length := by
  by_cases hB : B.length ≤ cfg.maxBufferSize
  · rw [pushResult_drain hB]
    exact Nat.le_of_add_right_le (emits_length_of_drains (drains_drain cfg B))
  · rw [pushResult_overflow (Nat.lt_of_not_le hB)]
    exact Nat.zero_le _

end Sys2Proof.Machine

namespace Sys2Proof.Proofs

open Sys2Proof.Machine Sys2Proof.Safety

/-- Settles O9: the stop comes last by the step rules, and each payload has used up six bytes. -/
theorem pushEndsInOneStopEvent : Obligations.PushEndsInOneStopEvent := by
  intro s data hs
  obtain ⟨init, last, hes, hlast, hinit, _⟩ := endsInStop_pushResult s.cfg (s.rxbuf ++ data)
  have hreport : (pushBytes s data).report = .ok (.events (init ++ [last])) := by rw [pushBytes_eq, hes]
  exact ⟨_, init, last, exec_faPush_of_ready hs data, hreport, hlast, hinit,
    hes ▸ emits_length_pushResult s.cfg (s.rxbuf ++ data)⟩

/-- Settles O10: the buffer left satisfies R29, so with nothing appended nothing overflows, and the loop repeats its
stop. -/
theorem emptyPushRepeatsTheStop : Obligations.EmptyPushRepeatsTheStop := by
  intro s data hs
  obtain ⟨init, last, hes, _, _, hagain⟩ := endsInStop_pushResult s.cfg (s.rxbuf ++ data)
  have hreport : (pushBytes s data).report = .ok (.events (init ++ [last])) := by rw [pushBytes_eq, hes]
  have hready : (pushBytes s data).ready = true := hs
  have hinv : BufferInv s.cfg (pushResult s.cfg (s.rxbuf ++ data)).2 := bufferInv_pushResult s.cfg (s.rxbuf ++ data)
  refine ⟨pushBytes s data, init, last, exec_faPush_of_ready hs data, hreport, hinv, ?_⟩
  rw [exec_faPush_of_ready hready, pushBytes_eq (pushBytes s data), List.append_nil, pushBytes_cfg]
  have hempty : pushResult s.cfg (pushBytes s data).rxbuf = ([repeatedStop last], (pushBytes s data).rxbuf) :=
    (pushResult_drain hinv.1).trans hagain
  rw [hempty]

end Sys2Proof.Proofs

end

section
/-! ## Proofs: chunks of a stream (spec/42_frame_assembler.md R188) -/

namespace Sys2Proof.Machine

open Sys2Proof.Safety

theorem emits_append (es fs : List Event) : emits (es ++ fs) = emits es ++ emits fs := List.filterMap_append

/-- The events that a run shows on a stream of frames, and of bytes without STX between them. Of its frames none is long
enough for a jump while it arrives, unless the window is shut (R181, R189). -/
def Orderly (cfg : Cfg) : Event → Prop
  | .stopEmpty | .clearNostx _ | .discardPrefix _ => True
  | .emit P => cfg.jumpWindow = 0 ∨ P.length + 6 ≤ cfg.jumpSlack + 3
  | _ => False

theorem ne_of_orderly {cfg : Cfg} {e : Event} (he : Orderly cfg e) :
    (∀ n, e ≠ .overflow n) ∧ ∀ k, e ≠ .jumpStx k :=
  ⟨by rintro n rfl; exact he, by rintro k rfl; exact he⟩

/-! ### Bytes before the first STX -/

/-- The event for garbage before a STX, where there is any (R176). -/
def discardOf (G : Bytes) : List Event := if G = [] then [] else [.discardPrefix G.length]

@[simp] theorem emits_discardOf (G : Bytes) : emits (discardOf G) = [] := by
  unfold discardOf
  split <;> rfl

theorem orderly_discardOf (cfg : Cfg) (G : Bytes) : ∀ e ∈ discardOf G, Orderly cfg e := by
  unfold discardOf
  split
  · exact List.forall_mem_nil _
  · exact List.forall_mem_singleton.mpr trivial

/-- `drain_garbage`, also for no garbage at all. -/
theorem drain_append_stx (cfg : Cfg) {G : Bytes} (R : Bytes) (hG : NoStx G) :
    drain cfg (G ++ 0x32 :: R) = (discardOf G ++ (drain cfg (0x32 :: R)).1, (drain cfg (0x32 :: R)).2) := by
  by_cases hne : G = []
  · rw [hne]
    rfl
  · rw [discardOf, if_neg hne]
    exact drain_garbage cfg R hne hG

/-- Without a STX the buffer is emptied at once (R174, R175). -/
theorem drain_noStx (cfg : Cfg) {G : Bytes} (hG : NoStx G) :
    ∃ e, drain cfg G = ([e], []) ∧ emits [e] = [] ∧ Orderly cfg e := by
  by_cases hne : G = []
  · exact ⟨.stopEmpty, by rw [hne, drain_of_drains .empty], rfl, trivial⟩
  · exact ⟨.clearNostx G.length, drain_of_drains (.noStx G hne hG), rfl, trivial⟩

/-! ### A run on a longer buffer -/

/-- The result `x` is that of a run with the events `es` and of the run with result `y` after it: if `es` is quiet, in
the payloads and the last buffer; and if `x` shows no disorder, neither do the two runs. Events that count garbage or
stop are not compared, because they depend on the chunks. -/
structure Resumes (cfg : Cfg) (es : List Event) (x y : List Event × Bytes) : Prop where
  emits_eq : NoOverflowNoJump es → emits x.1 = emits es ++ emits y.1
  buffer_eq : NoOverflowNoJump es → x.2 = y.2
  quiet : (∀ e ∈ x.1, Orderly cfg e) → NoOverflowNoJump es
  orderly : (∀ e ∈ x.1, Orderly cfg e) → ∀ e ∈ y.1, Orderly cfg e

namespace Resumes

variable {cfg : Cfg} {es : List Event} {y : List Event × Bytes}

/-- A run that only waits is resumed from where it was. -/
theorem of_emits_nil (hquiet : NoOverflowNoJump es) (hes : emits es = []) (y : List Event × Bytes) :
    Resumes cfg es y y :=
  ⟨fun _ => by rw [hes, List.nil_append], fun _ => rfl, fun _ => hquiet, id⟩

/-- A pass that the longer buffer takes in the same way. -/
theorem pass {e : Event} {B B' : Bytes} (hd : Drains cfg B (e :: (drain cfg B').1) (drain cfg B').2)
    (h : Resumes cfg es (drain cfg B') y) : Resumes cfg (e :: es) (drain cfg B) y := by
  have htail : NoOverflowNoJump (e :: es) → NoOverflowNoJump es := fun hq f hf => hq f (List.mem_cons_of_mem e hf)
  rw [drain_of_drains hd]
  refine ⟨fun hq => ?_, fun hq => h.buffer_eq (htail hq), fun hall => ?_, fun hall => ?_⟩
  · calc emits (e :: (drain cfg B').1) = emits [e] ++ emits (drain cfg B').1 := emits_append [e] _
      _ = emits [e] ++ emits es ++ emits y.1 := by rw [h.emits_eq (htail hq), List.append_assoc]
      _ = emits (e :: es) ++ emits y.1 := by rw [← emits_append, List.singleton_append]
  · obtain ⟨he, hrest⟩ := List.forall_mem_cons.mp hall
    exact List.forall_mem_cons.mpr ⟨ne_of_orderly he, h.quiet hrest⟩
  · exact h.orderly (List.forall_mem_of_forall_mem_cons hall)

end Resumes

/-- Garbage that was cleared at a stop would have been discarded before the next STX (R188). -/
theorem resumes_noStx (cfg : Cfg) {G : Bytes} (hG : NoStx G) (n : Nat) (D : Bytes) :
    Resumes cfg [.clearNostx n] (drain cfg (G ++ D)) (drain cfg D) := by
  have hes : emits [.clearNostx n] = [] := rfl
  have hquiet : NoOverflowNoJump [.clearNostx n] := by simp [NoOverflowNoJump]
  have happend {A : Bytes} (hA : NoStx A) : NoStx (G ++ A) := List.forall_mem_append.mpr ⟨hG, hA⟩
  obtain hD | ⟨A, R, rfl, hA⟩ := noStx_or_split D
  · obtain ⟨e, hdrain, hemits, he⟩ := drain_noStx cfg hD
    obtain ⟨e', hdrain', hemits', _⟩ := drain_noStx cfg (happend hD)
    rw [hdrain, hdrain']
    refine ⟨fun _ => ?_, fun _ => rfl, fun _ => hquiet, fun _ => List.forall_mem_singleton.mpr he⟩
    rw [hemits', hes, hemits, List.nil_append]
  · rw [← List.append_assoc, drain_append_stx cfg R hA, drain_append_stx cfg R (happend hA)]
    refine ⟨fun _ => ?_, fun _ => rfl, fun _ => hquiet, fun hall => ?_⟩
    · simp only [emits_append, emits_discardOf, hes, List.nil_append]
    · exact List.forall_mem_append.mpr ⟨orderly_discardOf cfg A, (List.forall_mem_append.mp hall).2⟩

/-- Where a legal candidate leads to no disorder, it is a frame that cannot be jumped over while it arrives. -/
theorem lenTotal_le_of_orderly {cfg : Cfg} {h l : Byte} {R out : Bytes} {es : List Event}
    (hd : Drains cfg (0x32 :: h :: l :: R) es out) (horderly : ∀ e ∈ es, Orderly cfg e) :
    cfg.jumpWindow = 0 ∨ lenTotal h l ≤ cfg.jumpSlack + 3 := by
  generalize hB : (0x32 :: h :: l :: R : Bytes) = B at hd
  cases hd with
  | empty => cases hB
  | noStx G _ hG => exact absurd rfl (hG 0x32 (hB ▸ List.mem_cons_self ..))
  | garbage G R' es out hne hG _ =>
    cases G with
    | nil => exact absurd rfl hne
    | cons b G => exact absurd (List.cons.inj hB).1.symm (hG b (List.mem_cons_self ..))
  | emit h' l' c1 c0 P R' es out _ htotal _ _ =>
    cases hB
    exact htotal ▸ horderly _ (List.mem_cons_self ..)
  | waitHeader | waitBody | lenCap | lenMin | jump | notEtx | badCrc =>
    exact absurd (horderly _ (List.mem_cons_self ..)) id

/-- More bytes change no pass of a run without a jump: each was decided on bytes completely present (R188). And a jump
means that the same candidate leads to some disorder on the longer buffer too. -/
theorem resumes_of_drains {cfg : Cfg} {B out : Bytes} {es : List Event} (hd : Drains cfg B es out)
    (D : Bytes) : Resumes cfg es (drain cfg (B ++ D)) (drain cfg (out ++ D)) := by
  induction hd with
  | empty | waitHeader | waitBody => exact .of_emits_nil (by simp [NoOverflowNoJump]) rfl _
  | noStx G _ hG => exact resumes_noStx cfg hG G.length D
  | garbage G R es out hne hG _ ih =>
    rw [List.append_assoc]
    exact ih.pass (.garbage G (R ++ D) _ _ hne hG (drains_drain cfg _))
  | lenCap h l R es out hcap _ ih => exact ih.pass (.lenCap h l (R ++ D) _ _ hcap (drains_drain cfg _))
  | lenMin h l R es out hcap hmin _ ih => exact ih.pass (.lenMin h l (R ++ D) _ _ hcap hmin (drains_drain cfg _))
  | jump h l R G Q es out _ _ hslack _ _ hwindow _ _ =>
    have hloud : ¬ NoOverflowNoJump (.jumpStx (G.length + 1) :: es) := fun hq =>
      (hq _ (List.mem_cons_self ..)).2 _ rfl
    have hdisorder : ¬ ∀ e ∈ (drain cfg (0x32 :: h :: l :: (R ++ D))).1, Orderly cfg e := fun hall => by
      have := lenTotal_le_of_orderly (drains_drain cfg _) hall
      omega
    exact ⟨(absurd · hloud), (absurd · hloud), (absurd · hdisorder), (absurd · hdisorder)⟩
  | notEtx h l e C R es out hcap hlen hmin he _ ih =>
    simp only [List.cons_append, List.append_assoc] at ih ⊢
    exact ih.pass (.notEtx h l e C (R ++ D) _ _ hcap hlen hmin he (drains_drain cfg _))
  | badCrc h l c1 c0 P R es out hcap hlen hcrc _ ih =>
    simp only [List.cons_append, List.append_assoc] at ih ⊢
    exact ih.pass (.badCrc h l c1 c0 P (R ++ D) _ _ hcap hlen hcrc (drains_drain cfg _))
  | emit h l c1 c0 P R es out hcap hlen hcrc _ ih =>
    simp only [List.cons_append, List.append_assoc]
    exact ih.pass (.emit h l c1 c0 P (R ++ D) _ _ hcap hlen hcrc (drains_drain cfg _))

/-! ### Several pushes -/

/-- The first push, and the others from the state it leaves. -/
theorem pushAll_cons {s : State} (hs : s.ready = true) (c : Bytes) (cs : List Bytes) :
    pushAll (c :: cs) s =
      ((pushResult s.cfg (s.rxbuf ++ c)).1 ++ (pushAll cs (pushBytes s c)).1, (pushAll cs (pushBytes s c)).2) := by
  rw [pushAll, exec_faPush_of_ready hs]
  rfl

/-- A push without an overflow drains. -/
theorem pushResult_of_quiet {cfg : Cfg} {B : Bytes} (h : NoOverflowNoJump (pushResult cfg B).1) :
    pushResult cfg B = drain cfg B := by
  by_cases hB : B.length ≤ cfg.maxBufferSize
  · exact pushResult_drain hB
  · rw [pushResult_overflow (Nat.lt_of_not_le hB)] at h
    exact absurd rfl ((h _ (List.mem_singleton_self _)).1 _)

/-- Without an overflow or a jump, chunks do what one run of the loop does on all their bytes (R188). -/
theorem pushAll_eq_drain {s : State} (hs : s.ready = true) (c : Bytes) (cs : List Bytes)
    (hquiet : NoOverflowNoJump (pushAll (c :: cs) s).1) :
    emits (pushAll (c :: cs) s).1 = emits (drain s.cfg (s.rxbuf ++ (c :: cs).flatten)).1 ∧
      (pushAll (c :: cs) s).2.rxbuf = (drain s.cfg (s.rxbuf ++ (c :: cs).flatten)).2 := by
  rw [pushAll_cons hs] at hquiet ⊢
  obtain ⟨hfirst, hothers⟩ := List.forall_mem_append.mp hquiet
  have hpush : pushResult s.cfg (s.rxbuf ++ c) = drain s.cfg (s.rxbuf ++ c) := pushResult_of_quiet hfirst
  have hheld : (pushBytes s c).rxbuf = (drain s.cfg (s.rxbuf ++ c)).2 := congrArg Prod.snd hpush
  rw [hpush] at hfirst ⊢
  cases cs with
  | nil =>
    rw [List.flatten_singleton]
    exact ⟨congrArg emits (List.append_nil _), hheld⟩
  | cons c' cs =>
    obtain ⟨hemits, hbuffer⟩ := pushAll_eq_drain (s := pushBytes s c) hs c' cs hothers
    have hresumes := resumes_of_drains (drains_drain s.cfg (s.rxbuf ++ c)) (c' :: cs).flatten
    rw [pushBytes_cfg, hheld] at hemits hbuffer
    rw [List.flatten_cons, ← List.append_assoc, emits_append, hemits]
    exact ⟨(hresumes.emits_eq hfirst).symm, hbuffer.trans (hresumes.buffer_eq hfirst).symm⟩

end Sys2Proof.Machine

namespace Sys2Proof.Proofs

open Sys2Proof.Machine

/-- Settles O11: the chunks and the single push both do what one run of the loop does on the stream. -/
theorem emissionsDoNotDependOnChunking : Obligations.EmissionsDoNotDependOnChunking := by
  intro s c cs hs hchunks hsingle
  obtain ⟨hemits, hbuffer⟩ := pushAll_eq_drain hs c cs hchunks
  obtain ⟨hemits', hbuffer'⟩ := pushAll_eq_drain hs (c :: cs).flatten [] hsingle
  rw [List.flatten_singleton] at hemits' hbuffer'
  exact ⟨hemits.trans hemits'.symm, hbuffer.trans hbuffer'.symm⟩

end Sys2Proof.Proofs

end

section
/-! ## Proofs: frames with garbage between them, in any chunks (spec/42_frame_assembler.md R189) -/

namespace Sys2Proof.Machine

open Sys2Proof.Safety

/-! ### A built frame before other bytes -/

/-- FA.BUILD's bytes are those of `buildFrame`. -/
theorem exec_faBuild_ok_iff {s : State} (hs : s.ready = true) (P F : Bytes) :
    exec (.faBuild P) s = .next { s with report := .ok (.bytes F) } ↔ buildFrame P = .ok F := by
  rw [← whenReady_concludeBytes_ok hs rfl]
  exact whenReady_concludeBytes_inj hs

/-- A payload whose length LEN can hold is framed. -/
theorem buildFrame_of_le {P : Bytes} (hP : P.length + 6 ≤ 65537) : buildFrame P = .ok (frameOf P) :=
  if_neg (by rw [maxLen]; omega)

/-- The parts of a frame, as the drain loop reads them. -/
theorem frameOf_parts {P : Bytes} (hP : P.length + 6 ≤ 65537) :
    ∃ h l c1 c0 : Byte, frameOf P = 0x32 :: h :: l :: (P ++ c1 :: c0 :: [0x34]) ∧
      lenTotal h l = P.length + 6 ∧ crc16 P = (c1 ++ c0 : BitVec 16) := by
  have hlen : be16 (bytesOf16 (BitVec.ofNat 16 (P.length + 4))) 0 = P.length + 4 := by
    have hword := word16At_bytesOf16 (BitVec.ofNat 16 (P.length + 4)) []
    rw [List.append_nil] at hword
    rw [be16_eq_word16At, hword, BitVec.toNat_ofNat]
    omega
  refine ⟨_, _, _, _, ?_, congrArg (· + 2) hlen, (extract_append (crc16 P)).symm⟩
  simp [frameOf, bytesOf16, stxByte, etxByte]

/-- A frame within the cap is emitted, whatever follows it (R184). -/
theorem drain_frameOf {cfg : Cfg} {P : Bytes} (hcap : cfg.lenCap ≤ 65537) (hP : P.length + 6 ≤ cfg.lenCap) (W : Bytes) :
    drain cfg (frameOf P ++ W) = (.emit P :: (drain cfg W).1, (drain cfg W).2) := by
  obtain ⟨h, l, c1, c0, hframe, htotal, hcrc⟩ := frameOf_parts (Nat.le_trans hP hcap)
  rw [hframe]
  simp only [List.cons_append, List.append_assoc, List.nil_append]
  exact drain_of_drains (.emit h l c1 c0 P W _ _ (htotal ▸ hP) htotal hcrc (drains_drain cfg W))

/-- A frame behind garbage is emitted too; the garbage adds its event. -/
theorem drain_noStx_frameOf {cfg : Cfg} {G P : Bytes} (hG : NoStx G) (hcap : cfg.lenCap ≤ 65537)
    (hP : P.length + 6 ≤ cfg.lenCap) (W : Bytes) :
    drain cfg (G ++ (frameOf P ++ W)) = (discardOf G ++ .emit P :: (drain cfg W).1, (drain cfg W).2) := by
  have hframe := drain_frameOf hcap hP W
  obtain ⟨R, hR⟩ : ∃ R, frameOf P ++ W = 0x32 :: R := ⟨_, rfl⟩
  rw [hR] at hframe ⊢
  rw [drain_append_stx cfg R hG, hframe]

/-- The loop on the stream of R189 in one piece. -/
theorem drain_two_frames {cfg : Cfg} {G1 P1 G2 P2 : Bytes} (hcap : cfg.lenCap ≤ 65537)
    (hP1 : P1.length + 6 ≤ cfg.lenCap) (hP2 : P2.length + 6 ≤ cfg.lenCap) (hG1 : NoStx G1) (hG2 : NoStx G2) :
    drain cfg (G1 ++ frameOf P1 ++ G2 ++ frameOf P2) =
      (discardOf G1 ++ .emit P1 :: (discardOf G2 ++ [.emit P2, .stopEmpty]), []) := by
  have hlast := drain_noStx_frameOf hG2 hcap hP2 []
  rw [List.append_nil, drain_of_drains .empty] at hlast
  rw [List.append_assoc, List.append_assoc, drain_noStx_frameOf hG1 hcap hP1, hlast]

/-! ### Why nothing jumps or overflows -/

/-- Chunks that fit the buffer all together, of a stream that one run of the loop takes in order, are quiet (R189): what
is held and what is yet to come keep both properties from push to push. -/
theorem pushAll_quiet {s : State} (hs : s.ready = true) (cs : List Bytes)
    (hbound : (s.rxbuf ++ cs.flatten).length ≤ s.cfg.maxBufferSize)
    (horderly : ∀ e ∈ (drain s.cfg (s.rxbuf ++ cs.flatten)).1, Orderly s.cfg e) :
    NoOverflowNoJump (pushAll cs s).1 := by
  induction cs generalizing s with
  | nil => exact List.forall_mem_nil _
  | cons c cs ih =>
    rw [List.flatten_cons, ← List.append_assoc] at hbound horderly
    have hd := drains_drain s.cfg (s.rxbuf ++ c)
    have hpush : pushResult s.cfg (s.rxbuf ++ c) = drain s.cfg (s.rxbuf ++ c) :=
      pushResult_drain (Nat.le_trans (by simp) hbound)
    have hheld : (pushBytes s c).rxbuf = (drain s.cfg (s.rxbuf ++ c)).2 := congrArg Prod.snd hpush
    have hresumes := resumes_of_drains hd cs.flatten
    have hshort := emits_length_of_drains hd
    rw [pushAll_cons hs, hpush]
    refine List.forall_mem_append.mpr ⟨hresumes.quiet horderly, ih (s := pushBytes s c) hs ?_ ?_⟩
    · rw [hheld, pushBytes_cfg]
      simp only [List.length_append] at hbound hshort ⊢
      omega
    · rw [hheld, pushBytes_cfg]
      exact hresumes.orderly horderly

end Sys2Proof.Machine

namespace Sys2Proof.Proofs

open Sys2Proof.Machine Sys2Proof.Safety

/-- Settles O12: the loop on the whole stream emits the two payloads; quiet chunks do the same, and they are quiet if
all fits, since each candidate on the way is one of the two frames, too short to be jumped over. -/
theorem resyncYieldsBothFrames : Obligations.ResyncYieldsBothFrames := by
  intro s G1 P1 G2 P2 F1 F2 chunks hs hrx hcap hP1 hP2 hG1 hG2 hF1 hF2 hchunks
  obtain rfl : frameOf P1 = F1 :=
    Except.ok.inj ((buildFrame_of_le (Nat.le_trans hP1 hcap)).symm.trans ((exec_faBuild_ok_iff hs P1 F1).mp hF1))
  obtain rfl : frameOf P2 = F2 :=
    Except.ok.inj ((buildFrame_of_le (Nat.le_trans hP2 hcap)).symm.trans ((exec_faBuild_ok_iff hs P2 F2).mp hF2))
  have hdrain := drain_two_frames hcap hP1 hP2 hG1 hG2
  have hstream : s.rxbuf ++ chunks.flatten = G1 ++ frameOf P1 ++ G2 ++ frameOf P2 := by
    rw [hrx, hchunks, List.nil_append]
  constructor
  · intro hquiet
    cases chunks with
    | nil =>
      have hnone := congrArg List.length hchunks
      simp only [List.flatten_nil, List.length_nil, List.length_append, frameOf_length] at hnone
      omega
    | cons c cs =>
      obtain ⟨hemits, hbuffer⟩ := pushAll_eq_drain hs c cs hquiet
      rw [hstream, hdrain] at hemits hbuffer
      refine ⟨hemits.trans ?_, hbuffer⟩
      simp only [emits_append, emits_discardOf, emits_emit_cons, List.nil_append]
      rfl
  · intro hbound hshort
    refine pushAll_quiet hs chunks (hstream ▸ hbound) ?_
    have hfirst : Orderly s.cfg (.emit P1) := hshort.imp_right fun h => frameOf_length P1 ▸ h.1
    have hsecond : Orderly s.cfg (.emit P2) := hshort.imp_right fun h => frameOf_length P2 ▸ h.2
    rw [hstream, hdrain]
    simp only [List.forall_mem_append, List.forall_mem_cons]
    exact ⟨orderly_discardOf _ G1, hfirst, orderly_discardOf _ G2, hsecond, trivial, List.forall_mem_nil _⟩

end Sys2Proof.Proofs

end

section
/-! ## Proofs: the dataset walk over well-formed datasets (spec/43_envelope_parser.md R203 to R207) -/

namespace Sys2Proof.Machine

open Sys2Proof.Safety

/-! ### One dataset by its width-kind (R204 to R206) -/

/-- Every width-kind but 3 has a length (R80). -/
theorem kindLength_cases :
    ∀ k : BitVec 2, (k = 3 ∧ kindLength k = none) ∨ (k ≠ 3 ∧ kindLength k = some (kindWidth k)) := by decide

theorem datasetStep_of_kind_three {id : MsgId} (hk : id.extractLsb' 9 2 = 3) (pos : WalkPos) (rest : Bytes) :
    datasetStep id pos rest = structDataset id pos rest :=
  if_pos hk

theorem datasetStep_of_kindLength {id : MsgId} {w : Nat} (hk : kindLength (id.extractLsb' 9 2) = some w)
    (pos : WalkPos) (rest : Bytes) : datasetStep id pos rest = fixedDataset id w pos rest := by
  obtain ⟨_, hnone⟩ | ⟨hsized, hwidth⟩ := kindLength_cases (id.extractLsb' 9 2)
  · exact absurd (hnone.symm.trans hk) (by simp)
  · obtain rfl : kindWidth (id.extractLsb' 9 2) = w := Option.some.inj (hwidth.symm.trans hk)
    exact if_neg hsized

/-- A dataset that EP.BUILD accepts is taken whole, without a message; one of kind 3 where it may stand. -/
theorem datasetStep_of_datasetOk {d : Dataset} (hd : DatasetOk d) {pos : WalkPos} {rest : Bytes}
    (halone : d.kind = 3 → pos.count = 1 ∧ rest = []) :
    datasetStep d.id pos (d.raw ++ rest) = .ok (undecoded d, pos.offset + 2 + d.raw.length) := by
  obtain ⟨hkind, hlength⟩ := hd
  have hundecoded : undecoded d = ⟨d.id, Decode.kindOf d.id, d.raw, none⟩ := by rw [undecoded, hkind, Decode.kindOf]
  obtain ⟨hthree, _⟩ | ⟨_, hwidth⟩ := kindLength_cases d.kind
  · obtain ⟨hcount, rfl⟩ := halone hthree
    rw [datasetStep_of_kind_three (hkind ▸ hthree), List.append_nil, structDataset, if_neg (not_not.mpr hcount),
      hundecoded]
  · have hraw : kindLength d.kind = some d.raw.length := hwidth.trans (congrArg some (hlength _ hwidth).symm)
    rw [datasetStep_of_kindLength (hkind ▸ hraw), fixedDataset, if_neg (by simp), List.take_left, hundecoded]

/-! ### One turn of the walk, at the end of a first part of the payload (R203) -/

section Turn

variable (A : Bytes) (count left i : Nat)

theorem walkDatasets_of_short {R : Bytes} (hR : R.length < 2) :
    walkDatasets (A ++ R) count (left + 1) i A.length = .error (.errDsUnderrun i A.length) := by
  rw [walkDatasets, if_pos (by rw [List.length_append]; omega)]

/-- With an id there, the turn is the step of that id and the walk over the datasets after it. -/
theorem walkDatasets_of_id (a b : Byte) (V : Bytes) :
    walkDatasets (A ++ a :: b :: V) count (left + 1) i A.length =
      (datasetStep (a ++ b : MsgId) ⟨i, A.length, count⟩ V).bind fun x =>
        (walkDatasets (A ++ a :: b :: V) count left (i + 1) x.2).map fun y => (x.1 :: y.1, y.2) := by
  have hlong : ¬ (A ++ a :: b :: V).length - A.length < 2 := by simp
  have hid : word16At (A ++ a :: b :: V) A.length = (a ++ b : MsgId) := by simp [word16At, byteAt]
  have hrest : (A ++ a :: b :: V).drop (A.length + 2) = V := by simp [List.drop_append]
  rw [walkDatasets, if_neg hlong, hid, hrest]
  cases datasetStep (a ++ b : MsgId) ⟨i, A.length, count⟩ V with
  | error c => rfl
  | ok x => cases h : walkDatasets (A ++ a :: b :: V) count left (i + 1) x.2 <;> simp [Except.bind, Except.map, h]

end Turn

/-! ### The walk over datasets that stand in the payload -/

/-- Datasets that a walk of `count` takes when `R` follows them: each as EP.BUILD accepts it, and one of kind 3 alone
(R203 to R205). -/
def Walkable (count : Nat) (ds : List Dataset) (R : Bytes) : Prop :=
  ∀ d ∈ ds, DatasetOk d ∧ (d.kind = 3 → count = 1 ∧ ds.length = 1 ∧ R = [])

theorem walkable_of_kind_ne_three {ds : List Dataset} (hds : ∀ d ∈ ds, DatasetOk d ∧ d.kind ≠ 3) (count : Nat)
    (R : Bytes) : Walkable count ds R :=
  fun d hd => ⟨(hds d hd).1, fun hthree => absurd hthree (hds d hd).2⟩

theorem walkable_of_buildable {env : Envelope} (henv : Buildable env) :
    Walkable env.datasets.length env.datasets [] :=
  fun d hd => ⟨henv.2.1 d hd, fun hthree => ⟨henv.2.2 d hd hthree, henv.2.2 d hd hthree, rfl⟩⟩

/-- Behind a first dataset none has kind 3. -/
theorem Walkable.tail {count : Nat} {d : Dataset} {ds : List Dataset} {R : Bytes} (h : Walkable count (d :: ds) R) :
    Walkable count ds R := by
  refine fun x hx => ⟨(h x (.tail _ hx)).1, fun hthree => ?_⟩
  obtain ⟨_, hone, _⟩ := (h x (.tail _ hx)).2 hthree
  exact absurd (List.length_pos_of_mem hx) (by simp_all)

/-- A first dataset of kind 3 is the whole of what the walk has left. -/
theorem Walkable.head_alone {count : Nat} {d : Dataset} {ds : List Dataset} {R : Bytes}
    (h : Walkable count (d :: ds) R) (hthree : d.kind = 3) : count = 1 ∧ datasetsOnWire ds ++ R = [] := by
  obtain ⟨hcount, hone, rfl⟩ := (h d List.mem_cons_self).2 hthree
  obtain rfl : ds = [] := List.length_eq_zero_iff.mp (Nat.succ.inj hone)
  exact ⟨hcount, rfl⟩

theorem datasetsOnWire_cons (d : Dataset) (ds : List Dataset) :
    datasetsOnWire (d :: ds) = datasetsOnWire [d] ++ datasetsOnWire ds :=
  List.flatMap_append (xs := [d])

theorem walkDatasets_of_datasetOk (A : Bytes) {count : Nat} (left i : Nat) {d : Dataset} (hd : DatasetOk d) {W : Bytes}
    (halone : d.kind = 3 → count = 1 ∧ W = []) :
    walkDatasets (A ++ (datasetsOnWire [d] ++ W)) count (left + 1) i A.length =
      (walkDatasets (A ++ (datasetsOnWire [d] ++ W)) count left (i + 1) (A.length + (datasetsOnWire [d]).length)).map
        fun y => (undecoded d :: y.1, y.2) := by
  have hbytes : datasetsOnWire [d] ++ W = d.id.extractLsb' 8 8 :: d.id.extractLsb' 0 8 :: (d.raw ++ W) := by
    simp [datasetsOnWire]
  have hlen : A.length + (datasetsOnWire [d]).length = A.length + 2 + d.raw.length := by
    simp [datasetsOnWire]
    omega
  rw [hlen, hbytes, walkDatasets_of_id, extract_append, datasetStep_of_datasetOk hd halone, Except.bind]

/-- The walk takes the datasets one by one and goes on at what follows them. -/
theorem walkDatasets_datasetsOnWire (A : Bytes) {count : Nat} {ds : List Dataset} {R : Bytes}
    (hds : Walkable count ds R) (left i : Nat) :
    walkDatasets (A ++ (datasetsOnWire ds ++ R)) count (left + ds.length) i A.length =
      (walkDatasets (A ++ (datasetsOnWire ds ++ R)) count left (i + ds.length)
        (A.length + (datasetsOnWire ds).length)).map fun y => (ds.map undecoded ++ y.1, y.2) := by
  induction ds generalizing A i with
  | nil => exact (congrFun Except.map_id _).symm
  | cons d ds ih =>
    have hrest := ih (A ++ datasetsOnWire [d]) hds.tail (i + 1)
    have hindex : i + 1 + ds.length = i + (ds.length + 1) := by omega
    rw [List.length_append, List.append_assoc, hindex, Nat.add_assoc] at hrest
    rw [datasetsOnWire_cons, List.append_assoc, List.length_append, List.length_cons, ← Nat.add_assoc left,
      walkDatasets_of_datasetOk A _ i (hds d List.mem_cons_self).1 hds.head_alone, hrest]
    generalize walkDatasets _ count left _ _ = behind
    cases behind <;> rfl

end Sys2Proof.Machine

end

section
/-! ## Proofs: the causes of EP.PARSE (spec/43_envelope_parser.md R202 to R209, R217) -/

namespace Sys2Proof.Machine

open Sys2Proof.Safety

/-! ### EP.PARSE around the walk (R202, R208) -/

section Parse

variable {P : Bytes}

theorem parsePayload_of_short (hlen : P.length < 10) : parsePayload P = .error (.errShortPayload P.length) :=
  if_pos hlen

variable (hlen : 10 ≤ P.length) {n : Byte} (hcount : byteAt P 9 = n)
include hlen hcount

theorem parsePayload_of_walk_error {c : Cause} (hwalk : walkDatasets P n.toNat n.toNat 0 10 = .error c) :
    parsePayload P = .error c := by
  rw [parsePayload, headerLen, if_neg (Nat.not_lt.mpr hlen)]
  simp only [hcount, hwalk]

theorem parsePayload_of_walk_ok {ds : List Dataset} {off : Nat}
    (hwalk : walkDatasets P n.toNat n.toNat 0 10 = .ok (ds, off)) :
    parsePayload P = if off = P.length then .ok (envelopeOf P ds) else .error (.errDsTrailing (P.length - off)) := by
  rw [parsePayload, headerLen, if_neg (Nat.not_lt.mpr hlen)]
  simp only [hcount, hwalk]

end Parse

theorem datasetStep_error {id : MsgId} {pos : WalkPos} {rest : Bytes} {c : Cause}
    (h : datasetStep id pos rest = .error c) :
    c = .errDsUnderrun pos.index pos.offset ∨ c = .errStructMixed pos.index pos.offset := by
  unfold datasetStep at h
  split at h
  · obtain ⟨_, hraised⟩ | ⟨_, htaken⟩ := structDataset_cases id pos rest
    · exact .inr (Except.error.inj (h.symm.trans hraised))
    · cases h.symm.trans htaken
  · obtain ⟨_, hraised⟩ | ⟨_, htaken⟩ := fixedDataset_cases id (kindWidth (Decode.kindOf id)) pos rest
    · exact .inl (Except.error.inj (h.symm.trans hraised))
    · cases h.symm.trans htaken

/-- The walk raises underrun or mixed structure only (R206, R207). -/
theorem walkDatasets_error {P : Bytes} {count left i off : Nat} {c : Cause}
    (h : walkDatasets P count left i off = .error c) :
    ∃ j o, c = .errDsUnderrun j o ∨ c = .errStructMixed j o := by
  induction left generalizing i off with
  | zero => cases h
  | succ left ih =>
    obtain ⟨_, hshort⟩ | ⟨_, e, hstep, hraised⟩ | ⟨_, d, off', _, hrest⟩ :=
      walkDatasets_succ_cases P count left i off
    · exact ⟨i, off, .inl (Except.error.inj (h.symm.trans hshort))⟩
    · obtain rfl : c = e := Except.error.inj (h.symm.trans hraised)
      exact ⟨_, _, datasetStep_error hstep⟩
    · rw [hrest] at h
      cases hwalk : walkDatasets P count left (i + 1) off' with
      | error e =>
        rw [hwalk] at h
        obtain rfl : e = c := Except.error.inj h
        exact ih hwalk
      | ok x =>
        rw [hwalk] at h
        cases h

/-- ERR_SHORT_PAYLOAD is the cause of the payloads under ten bytes only (R202). -/
theorem parsePayload_eq_short_iff (P : Bytes) (n : Nat) :
    parsePayload P = .error (.errShortPayload n) ↔ P.length < 10 ∧ P.length = n := by
  obtain hshort | hlen := Nat.lt_or_ge P.length 10
  · simp [parsePayload_of_short hshort, hshort]
  · cases hwalk : walkDatasets P (byteAt P 9).toNat (byteAt P 9).toNat 0 10 with
    | error c =>
      rw [parsePayload_of_walk_error hlen rfl hwalk]
      obtain ⟨j, o, rfl | rfl⟩ := walkDatasets_error hwalk <;> simp [Nat.not_lt.mpr hlen]
    | ok x =>
      rw [parsePayload_of_walk_ok hlen rfl hwalk]
      split <;> simp [Nat.not_lt.mpr hlen]

/-- A payload up to the end of its first datasets: the nine header bytes before DS_COUNT, DS_COUNT, the datasets. -/
def walkedPart (H : Bytes) (n : Byte) (ds : List Dataset) : Bytes := H ++ n :: datasetsOnWire ds

theorem walkedPart_append (H : Bytes) (n : Byte) (ds : List Dataset) (R : Bytes) :
    walkedPart H n ds ++ R = H ++ n :: (datasetsOnWire ds ++ R) :=
  List.append_assoc H _ R

section Walked

variable {H : Bytes} (hH : H.length = 9) (n : Byte) {ds : List Dataset} {R : Bytes} {P : Bytes}
  (hds : Walkable n.toNat ds R) (hP : P = walkedPart H n ds ++ R)
include hH

theorem walkedPart_length (ds : List Dataset) : (walkedPart H n ds).length = 10 + (datasetsOnWire ds).length := by
  rw [walkedPart, List.length_append, List.length_cons, hH]
  omega

include hP

theorem walkedPart_header : 10 ≤ P.length ∧ byteAt P 9 = n := by
  subst hP
  constructor
  · rw [List.length_append, walkedPart_length hH]
    omega
  · rw [walkedPart_append, ← hH, byteAt_append_length]

include hds

/-- The walk of EP.PARSE goes on behind the datasets that it takes. -/
theorem walkDatasets_walkedPart {left : Nat} (hn : n.toNat = left + ds.length) :
    walkDatasets P n.toNat n.toNat 0 10 =
      (walkDatasets P n.toNat left ds.length (walkedPart H n ds).length).map
        fun y => (ds.map undecoded ++ y.1, y.2) := by
  have hwalk := walkDatasets_datasetsOnWire (H ++ [n]) hds left 0
  rw [← hn, List.append_assoc, List.length_append, hH, Nat.zero_add] at hwalk
  rw [hP, walkedPart_append, walkedPart_length hH]
  exact hwalk

/-- With fewer datasets than DS_COUNT, a cause that the next turn raises is EP.PARSE's. -/
theorem parsePayload_of_turn_error (hlt : ds.length < n.toNat) {c : Cause}
    (hturn : ∀ left, walkDatasets P n.toNat (left + 1) ds.length (walkedPart H n ds).length = .error c) :
    parsePayload P = .error c := by
  obtain ⟨hlen, hcount⟩ := walkedPart_header hH n hP
  have hn : n.toNat = (n.toNat - ds.length - 1) + 1 + ds.length := by omega
  refine parsePayload_of_walk_error hlen hcount ?_
  rw [walkDatasets_walkedPart hH n hds hP hn, hturn]
  rfl

/-- With all datasets taken, EP.PARSE accepts the payload if nothing follows them (R208). -/
theorem parsePayload_of_all_walked (hn : ds.length = n.toNat) :
    parsePayload P =
      if R = [] then .ok (envelopeOf P (ds.map undecoded)) else .error (.errDsTrailing R.length) := by
  obtain ⟨hlen, hcount⟩ := walkedPart_header hH n hP
  have hwalk := walkDatasets_walkedPart hH n hds hP (left := 0) (by omega)
  rw [walkDatasets, Except.map, List.append_nil] at hwalk
  have hend : P.length = (walkedPart H n ds).length + R.length := by rw [hP, List.length_append]
  rw [parsePayload_of_walk_ok hlen hcount hwalk, hend, Nat.add_sub_cancel_left]
  simp

end Walked

/-! ### The operations of a ready block -/

section Ready

variable {s : State} (hs : s.ready = true)
include hs

theorem exec_epParse_ok {P : Bytes} {env : Envelope} (h : parsePayload P = .ok env) :
    exec (.epParse P) s = .next { s with report := .ok (.envelope env) } := by
  rw [exec, execEpParse, whenReady_of_ready hs, h]
  rfl

theorem exec_epDecode_ok {P : Bytes} {env : Envelope} (h : parsePayload P = .ok env) :
    exec (.epDecode P) s =
      .next { s with report := .ok (.envelope (decodeEnvelope s.cfg s.descTable env)) } := by
  rw [exec, execEpDecode, whenReady_of_ready hs, h]
  rfl

theorem exec_epDecode_raised {P : Bytes} {c : Cause} (h : parsePayload P = .error c) :
    exec (.epDecode P) s = .next { s with report := .raised c } := by
  rw [exec, execEpDecode, whenReady_of_ready hs, h]
  rfl

/-- A cause that EP.PARSE raises is that of `parsePayload`. -/
theorem exec_epParse_raised_iff (P : Bytes) (c : Cause) :
    exec (.epParse P) s = .next { s with report := .raised c } ↔ parsePayload P = .error c := by
  rw [exec, execEpParse, whenReady_of_ready hs]
  refine ⟨fun h => ?_, fun h => by rw [h]; rfl⟩
  have hreport := congrArg State.report (Host.Outcome.next.inj h)
  cases hparse : parsePayload P with
  | ok env => simp [hparse, Except.map] at hreport
  | error e => simpa [hparse, Except.map] using hreport

end Ready

end Sys2Proof.Machine

namespace Sys2Proof.Proofs

open Sys2Proof.Machine Sys2Proof.Safety

/-- Settles O24: the walk takes the good datasets and goes on at the rest; there its next turn raises the cause, or none
is due and the rest is left over. -/
theorem walkRaisesTheFirstCause : Obligations.WalkRaisesTheFirstCause := by
  intro s H R n ds hs hH hgood P off
  have hds : Walkable n.toNat ds R := walkable_of_kind_ne_three hgood _ _
  have hP : P = walkedPart H n ds ++ R := (walkedPart_append H n ds R).symm
  have hoff : (walkedPart H n ds).length = off := walkedPart_length hH n ds
  simp only [exec_epParse_raised_iff hs, ← hoff]
  refine ⟨fun hlt hshort => ?_, fun a b V hR hlt halone hthree => ?_, fun a b V w hR hlt hkind hshort => ?_,
    fun hall hrest => ?_⟩
  · refine parsePayload_of_turn_error hH n hds hP hlt fun left => ?_
    rw [hP, walkDatasets_of_short _ _ _ _ hshort]
  · refine parsePayload_of_turn_error hH n hds hP hlt fun left => ?_
    rw [hP, hR, walkDatasets_of_id, datasetStep_of_kind_three hthree, structDataset, if_pos halone, Except.bind]
  · refine parsePayload_of_turn_error hH n hds hP hlt fun left => ?_
    rw [hP, hR, walkDatasets_of_id, datasetStep_of_kindLength hkind, fixedDataset, if_pos hshort, Except.bind]
  · rw [parsePayload_of_all_walked hH n hds hP hall, if_neg hrest]

/-- Settles O21: both operations answer what `parsePayload` computes, and that is ERR_SHORT_PAYLOAD on short payloads
only. -/
theorem shortPayloadIsRejected : Obligations.ShortPayloadIsRejected := by
  intro s P hs
  constructor
  · intro hlen
    have hparse := parsePayload_of_short hlen
    exact ⟨(exec_epParse_raised_iff hs P _).mpr hparse, exec_epDecode_raised hs hparse⟩
  · intro hlen
    cases hparse : parsePayload P with
    | ok env =>
      exact ⟨_, _, exec_epParse_ok hs hparse, nofun, exec_epDecode_ok hs hparse, nofun⟩
    | error c =>
      have hother (n : Nat) : Report.raised c ≠ .raised (.errShortPayload n) := by
        rintro ⟨⟩
        exact absurd ((parsePayload_eq_short_iff P n).mp hparse).1 (Nat.not_lt.mpr hlen)
      exact ⟨_, _, (exec_epParse_raised_iff hs P c).mpr hparse, hother, exec_epDecode_raised hs hparse, hother⟩

/-- Settles O25: with DS_COUNT 0 the walk takes nothing and ends at the payload's end. -/
theorem emptyDatasetListParses : Obligations.EmptyDatasetListParses := by
  intro s a0 a1 a2 b0 b1 b2 flags type number hs P env
  have hparse : parsePayload P = .ok env :=
    parsePayload_of_all_walked (H := [a0, a1, a2, b0, b1, b2, flags, type, number]) (ds := []) (R := []) rfl 0x00
      (fun _ h => absurd h List.not_mem_nil) rfl rfl
  exact ⟨exec_epParse_ok hs hparse, exec_epDecode_ok hs hparse⟩

end Sys2Proof.Proofs

end

section
/-! ## Proofs: EP.DECODE of a built payload, and EP.FILTER (spec/43_envelope_parser.md R211, R213) -/

namespace Sys2Proof.Machine

open Sys2Proof.Safety

/-! ### EP.BUILD's checks and bytes (spec/44_frame_build.md R231, R232) -/

theorem checkDatasets_eq_none {count : Nat} {ds : List Dataset} (h : ∀ d ∈ ds, ∀ i, checkDataset count i d = none)
    (i : Nat) : checkDatasets count i ds = none := by
  induction ds generalizing i with
  | nil => rfl
  | cons d ds ih =>
    obtain ⟨hd, hds⟩ := List.forall_mem_cons.mp h
    simp only [checkDatasets, hd, ih hds]

/-- EP.BUILD's checks pass on an envelope that it accepts (R232). -/
theorem buildPayload_of_buildable {env : Envelope} (henv : Buildable env) : buildPayload env = .ok (payloadOf env) := by
  obtain ⟨hcount, hok, hstruct⟩ := henv
  have hdatasets : checkDatasets env.datasets.length 0 env.datasets = none := by
    refine checkDatasets_eq_none (fun d hd i => ?_) 0
    obtain ⟨hkind, hlength⟩ := hok d hd
    refine (checkDataset_none _ i d).mpr ⟨hkind, hstruct d hd, fun hsized => ?_⟩
    obtain ⟨hthree, _⟩ | ⟨_, hwidth⟩ := kindLength_cases d.kind
    · exact absurd hthree hsized
    · exact hlength _ hwidth
  simp only [buildPayload, checkBuild, maxDatasets, if_neg (Nat.not_lt.mpr hcount), hdatasets]

/-- The FLAGS byte reads back as its fields (R76). -/
theorem flags_of_flagsByte : ∀ (info : BitVec 1) (version retry : BitVec 2) (rsvd : BitVec 3),
    flagsInfo (flagsByte info version retry rsvd) = info ∧ flagsVersion (flagsByte info version retry rsvd) = version ∧
    flagsRetry (flagsByte info version retry rsvd) = retry ∧
    flagsReserved (flagsByte info version retry rsvd) = rsvd := by decide

/-- The nine header bytes before DS_COUNT (R200). -/
def headerBytes (env : Envelope) : Bytes :=
  addressBytes env.src ++ addressBytes env.dst
    ++ [flagsByte env.info env.version env.retry env.flagsRsvd,
        Decode.typeByte env.packetType env.payloadType,
        env.packetNumber]

theorem flatMap_datasetBytes (ds : List Dataset) : ds.flatMap datasetBytes = datasetsOnWire ds := rfl

theorem payloadOf_eq_walkedPart (env : Envelope) :
    payloadOf env = walkedPart (headerBytes env) (BitVec.ofNat 8 env.datasets.length) env.datasets := by
  simp [payloadOf, walkedPart, headerBytes, flatMap_datasetBytes]

/-- The header of a payload reads back as the envelope's fields. -/
theorem envelopeOf_payloadOf (env : Envelope) (ds : List Dataset) :
    envelopeOf (payloadOf env) ds = { env with dsCount := BitVec.ofNat 8 env.datasets.length, datasets := ds } := by
  obtain ⟨hinfo, hversion, hretry, hrsvd⟩ := flags_of_flagsByte env.info env.version env.retry env.flagsRsvd
  have hpacket : typePacket (Decode.typeByte env.packetType env.payloadType) = env.packetType :=
    Decode.highNibble_typeByte _ _
  have hpayload : typePayload (Decode.typeByte env.packetType env.payloadType) = env.payloadType :=
    Decode.lowNibble_typeByte _ _
  simp [envelopeOf, payloadOf, addressAt, addressBytes, hinfo, hversion, hretry, hrsvd, hpacket, hpayload]

/-- The datasets read back without their messages. -/
theorem parsePayload_payloadOf {env : Envelope} (henv : Buildable env) :
    parsePayload (payloadOf env) = .ok
      { env with dsCount := BitVec.ofNat 8 env.datasets.length, datasets := env.datasets.map undecoded } := by
  have hn : env.datasets.length = (BitVec.ofNat 8 env.datasets.length).toNat :=
    (Nat.mod_eq_of_lt (Nat.lt_succ_of_le henv.1)).symm
  have hds : Walkable (BitVec.ofNat 8 env.datasets.length).toNat env.datasets [] := hn ▸ walkable_of_buildable henv
  have hP : payloadOf env =
      walkedPart (headerBytes env) (BitVec.ofNat 8 env.datasets.length) env.datasets ++ [] := by
    rw [List.append_nil, payloadOf_eq_walkedPart]
  rw [parsePayload_of_all_walked rfl _ hds hP hn, if_pos rfl, envelopeOf_payloadOf]

theorem exec_epBuild_of_buildable {s : State} (hs : s.ready = true) {env : Envelope} (henv : Buildable env) :
    exec (.epBuild env) s = .next { s with report := .ok (.bytes (payloadOf env)) } :=
  whenReady_concludeBytes_ok hs (buildPayload_of_buildable henv)

end Sys2Proof.Machine

namespace Sys2Proof.Proofs

open Sys2Proof.Machine Sys2Proof.Safety

/-- Settles O26: a built payload parses to the envelope's raw datasets, which EP.DECODE extends by `decodeMessage`, as
WC.DECODE answers it; and both operations raise the cause of `parsePayload`. -/
theorem decodeIsParseThenCodec : Obligations.DecodeIsParseThenCodec := by
  refine ⟨fun s env hs henv => ?_, fun s P c hs hraised => ?_⟩
  · refine ⟨payloadOf env, env.datasets.map fun d => decodeMessage s.cfg s.descTable d.id d.raw,
      exec_epBuild_of_buildable hs henv, ?_, ?_⟩
    · rw [List.forall₂_map_right_iff, List.forall₂_same]
      exact fun d _ => exec_wcDecode_of_ready hs d.id d.raw
    · rw [exec_epDecode_ok hs (parsePayload_payloadOf henv), decodeEnvelope, List.map_map, List.zipWith_map_right,
        List.zipWith_self]
      rfl
  · exact exec_epDecode_raised hs ((exec_epParse_raised_iff hs P c).mp hraised)

/-- Settles O27: the decoder's row, and the dispatch filter against the table. -/
theorem filterFollowsTheTable : Obligations.FilterFollowsTheTable :=
  ⟨fun _ => rfl, fun _ _ hs => whenReady_filterVerdict hs _ _ _ _⟩

end Sys2Proof.Proofs

end


section
/-! ## Proofs: EP.BUILD and EP.PARSE are inverse to each other (spec/44_frame_build.md R235) -/

namespace Sys2Proof.Machine

open Sys2Proof.Safety

/-! ### What EP.PARSE accepted (R203 to R208) -/

/-- R232's condition on one dataset, with the width that the model computes. -/
theorem datasetOk_iff (d : Dataset) :
    DatasetOk d ↔ d.kind = Decode.kindOf d.id ∧ (d.kind ≠ 3 → d.raw.length = kindWidth d.kind) := by
  refine and_congr_right fun _ => ?_
  obtain ⟨hthree, hnone⟩ | ⟨hsized, hwidth⟩ := kindLength_cases d.kind
  · rw [hnone]
    exact iff_of_true nofun fun hsized => absurd hthree hsized
  · rw [hwidth]
    exact ⟨fun h _ => h _ rfl, fun h _ hw => (h hsized).trans (Option.some.inj hw)⟩

/-- A dataset that a step of the walk answers is as EP.BUILD accepts it, and its value stood at the front of the rest. -/
theorem datasetStep_ok {id : MsgId} {pos : WalkPos} {rest : Bytes} {d : Dataset} {off : Nat}
    (h : datasetStep id pos rest = .ok (d, off)) :
    d.id = id ∧ DatasetOk d ∧ (d.kind = 3 → pos.count = 1) ∧
      rest = d.raw ++ rest.drop d.raw.length ∧ off = pos.offset + 2 + d.raw.length := by
  unfold datasetStep at h
  split at h
  case isTrue hthree =>
    obtain ⟨_, hraised⟩ | ⟨hcount, htaken⟩ := structDataset_cases id pos rest
    · cases h.symm.trans hraised
    · cases h.symm.trans htaken
      exact ⟨rfl, (datasetOk_iff _).mpr ⟨rfl, fun hsized => absurd hthree hsized⟩, fun _ => hcount, by simp, rfl⟩
  case isFalse hsized =>
    obtain ⟨_, hraised⟩ | ⟨hlong, htaken⟩ := fixedDataset_cases id (kindWidth (Decode.kindOf id)) pos rest
    · cases h.symm.trans hraised
    · cases h.symm.trans htaken
      have hlength := List.length_take_of_le hlong
      refine ⟨rfl, (datasetOk_iff _).mpr ⟨rfl, fun _ => hlength⟩, fun hthree => absurd hthree hsized, ?_, ?_⟩
      · rw [hlength, List.take_append_drop]
      · rw [hlength]

/-- The two bytes at an offset are those of the word read there. -/
theorem drop_eq_word16At_append {P : Bytes} {off : Nat} (h : 2 ≤ P.length - off) :
    P.drop off = bytesOf16 (word16At P off) ++ P.drop (off + 2) := by
  have hhigh : byteAt P off = P[off] := List.getD_eq_getElem _ _ _
  have hlow : byteAt P (off + 1) = P[off + 1] := List.getD_eq_getElem _ _ _
  rw [word16At, bytesOf16_append, hhigh, hlow, List.drop_eq_getElem_cons (by omega),
    List.drop_eq_getElem_cons (i := off + 1) (by omega)]
  rfl

/-- The walk has read the bytes of the datasets that it answers, and each of them is as EP.BUILD accepts it. -/
theorem walkDatasets_ok {P : Bytes} {count left i off last : Nat} {ds : List Dataset}
    (h : walkDatasets P count left i off = .ok (ds, last)) :
    ds.length = left ∧ (∀ d ∈ ds, DatasetOk d ∧ (d.kind = 3 → count = 1)) ∧
      P.drop off = datasetsOnWire ds ++ P.drop last := by
  induction left generalizing i off ds with
  | zero =>
    cases h
    exact ⟨rfl, fun _ hd => absurd hd List.not_mem_nil, rfl⟩
  | succ left ih =>
    obtain ⟨_, hshort⟩ | ⟨_, _, _, hraised⟩ | ⟨htwo, d, off', hstep, hrest⟩ :=
      walkDatasets_succ_cases P count left i off
    · cases h.symm.trans hshort
    · cases h.symm.trans hraised
    · obtain ⟨hid, hok, halone, hvalue, rfl⟩ := datasetStep_ok hstep
      cases hwalk : walkDatasets P count left (i + 1) (off + 2 + d.raw.length) with
      | error c => cases h.symm.trans (hrest.trans (congrArg _ hwalk))
      | ok x =>
        cases h.symm.trans (hrest.trans (congrArg _ hwalk))
        obtain ⟨hlength, hds, hbytes⟩ := ih hwalk
        refine ⟨congrArg Nat.succ hlength, List.forall_mem_cons.mpr ⟨⟨hok, halone⟩, hds⟩, ?_⟩
        calc P.drop off
          _ = bytesOf16 d.id ++ P.drop (off + 2) := by rw [hid]; exact drop_eq_word16At_append htwo
          _ = bytesOf16 d.id ++ (d.raw ++ P.drop (off + 2 + d.raw.length)) := by rw [hvalue, List.drop_drop]
          _ = datasetsOnWire (d :: x.1) ++ P.drop x.2 := by
            rw [hbytes, datasetsOnWire_cons]
            simp [datasetsOnWire, bytesOf16]

/-- The header of a payload's envelope is the payload's own (R76 to R78: the packed bytes are their fields). -/
theorem headerBytes_envelopeOf {P : Bytes} (hlen : 10 ≤ P.length) (ds : List Dataset) :
    headerBytes (envelopeOf P ds) = P.take 9 := by
  match P, hlen with
  | a0 :: a1 :: a2 :: b0 :: b1 :: b2 :: flags :: type :: number :: _, _ =>
    have htype : Decode.typeByte (typePacket type) (typePayload type) = type := Decode.typeByte_nibbles type
    simp [headerBytes, envelopeOf, addressAt, addressBytes, flagsByte_fields, htype]

/-- EP.PARSE accepts only what EP.BUILD makes of the envelope that it answers. -/
theorem parsePayload_ok {P : Bytes} {env : Envelope} (h : parsePayload P = .ok env) :
    Buildable env ∧ payloadOf env = P := by
  obtain hshort | hlen := Nat.lt_or_ge P.length 10
  · cases (parsePayload_of_short hshort).symm.trans h
  cases hwalk : walkDatasets P (byteAt P 9).toNat (byteAt P 9).toNat 0 10 with
  | error c => cases (parsePayload_of_walk_error hlen rfl hwalk).symm.trans h
  | ok x =>
    obtain ⟨ds, off⟩ := x
    rw [parsePayload_of_walk_ok hlen rfl hwalk] at h
    split at h
    case isFalse => cases h
    case isTrue hend =>
      cases h
      obtain ⟨hn, hds, hbytes⟩ := walkDatasets_ok hwalk
      rw [hend, List.drop_length, List.append_nil] at hbytes
      refine ⟨⟨hn ▸ Nat.le_of_lt_succ (byteAt P 9).isLt, fun d hd => (hds d hd).1,
        fun d hd hthree => hn.trans ((hds d hd).2 hthree)⟩, ?_⟩
      have hcount : BitVec.ofNat 8 ds.length = P[9] := by
        rw [hn, BitVec.ofNat_toNat, BitVec.setWidth_eq]
        exact List.getD_eq_getElem _ _ _
      calc payloadOf (envelopeOf P ds)
        _ = headerBytes (envelopeOf P ds) ++ BitVec.ofNat 8 ds.length :: datasetsOnWire ds :=
          payloadOf_eq_walkedPart _
        _ = P.take 9 ++ P[9] :: P.drop 10 := by rw [headerBytes_envelopeOf hlen, hcount, hbytes]
        _ = P := by simp

/-- An envelope that EP.PARSE answers is that of `parsePayload`. -/
theorem exec_epParse_ok_iff {s : State} (hs : s.ready = true) (P : Bytes) (env : Envelope) :
    exec (.epParse P) s = .next { s with report := .ok (.envelope env) } ↔ parsePayload P = .ok env := by
  refine ⟨fun h => ?_, exec_epParse_ok hs⟩
  cases hparse : parsePayload P with
  | ok env' =>
    have hreport := congrArg State.report (Host.Outcome.next.inj ((exec_epParse_ok hs hparse).symm.trans h))
    simpa using hreport
  | error c =>
    have hraised := (exec_epParse_raised_iff hs P c).mpr hparse
    have hreport := congrArg State.report (Host.Outcome.next.inj (hraised.symm.trans h))
    cases hreport

end Sys2Proof.Machine

namespace Sys2Proof.Proofs

open Sys2Proof.Machine

/-- Settles O22: the walk takes the built datasets one by one, and the header reads back field by field. -/
theorem parseInvertsBuild : Obligations.ParseInvertsBuild :=
  fun _ env hs henv =>
    ⟨payloadOf env, exec_epBuild_of_buildable hs henv, exec_epParse_ok hs (parsePayload_payloadOf henv)⟩

/-- Settles O23: by induction over the walk, the bytes that it has read are those that EP.BUILD writes. -/
theorem buildInvertsParse : Obligations.BuildInvertsParse := by
  intro s P env hs hparsed
  obtain ⟨henv, rfl⟩ := parsePayload_ok ((exec_epParse_ok_iff hs P env).mp hparsed)
  exact exec_epBuild_of_buildable hs henv

end Sys2Proof.Proofs

end

section
/-! ## Proofs: EP.BUILD's layout and the order of its checks (spec/44_frame_build.md R231, R232) -/

namespace Sys2Proof.Machine

open Sys2Proof.Safety

/-! ### The packed bytes as numbers (R231) -/

theorem toNat_flagsByte : ∀ (info : BitVec 1) (version retry : BitVec 2) (rsvd : BitVec 3),
    (flagsByte info version retry rsvd).toNat =
      info.toNat * 128 + version.toNat * 32 + retry.toNat * 8 + rsvd.toNat := by decide

theorem toNat_typeByte : ∀ p d : BitVec 4, (Decode.typeByte p d).toNat = p.toNat * 16 + d.toNat := by decide

/-! ### The checks of EP.BUILD (R232) -/

/-- A dataset passes its checks where it is as R232 says and a kind 3 stands alone. -/
theorem checkDataset_of_datasetOk {count : Nat} {d : Dataset} (hd : DatasetOk d) (halone : d.kind = 3 → count = 1)
    (i : Nat) : checkDataset count i d = none := by
  obtain ⟨hkind, hwidth⟩ := (datasetOk_iff d).mp hd
  exact (checkDataset_none count i d).mpr ⟨hkind, halone, hwidth⟩

/-- Kind against id and value length raise the same cause, and both come before the test of kind 3. -/
theorem checkDataset_of_not_datasetOk {d : Dataset} (hd : ¬ DatasetOk d) (count i : Nat) :
    checkDataset count i d = some (.bldWidth i) := by
  rw [datasetOk_iff] at hd
  by_cases hkind : d.kind = Decode.kindOf d.id
  · obtain ⟨hsized, hwidth⟩ : d.kind ≠ 3 ∧ d.raw.length ≠ kindWidth d.kind := by simpa [hkind] using hd
    rw [checkDataset, if_neg (not_not.mpr hkind), if_neg hsized, if_pos hwidth]
  · exact if_pos hkind

/-- A kind 3 that does not stand alone (R205). -/
theorem checkDataset_of_mixed {count : Nat} {d : Dataset} (hd : DatasetOk d) (hthree : d.kind = 3) (hcount : count ≠ 1)
    (i : Nat) : checkDataset count i d = some (.bldStruct i) := by
  obtain ⟨hkind, _⟩ := (datasetOk_iff d).mp hd
  rw [checkDataset, if_neg (not_not.mpr hkind), if_pos hthree, if_pos hcount]

/-- The checks pass over datasets that are good and end at the first cause, whatever follows. -/
theorem checkDatasets_of_first {count : Nat} {before : List Dataset} {d : Dataset} {c : Cause} {i : Nat}
    (hbefore : ∀ x ∈ before, ∀ j, checkDataset count j x = none)
    (hd : checkDataset count (i + before.length) d = some c) (after : List Dataset) :
    checkDatasets count i (before ++ d :: after) = some c := by
  induction before generalizing i with
  | nil =>
    rw [List.length_nil, Nat.add_zero] at hd
    simp only [List.nil_append, checkDatasets, hd]
  | cons x before ih =>
    obtain ⟨hx, hrest⟩ := List.forall_mem_cons.mp hbefore
    rw [List.length_cons, Nat.add_comm before.length, ← Nat.add_assoc] at hd
    simp only [List.cons_append, checkDatasets, hx, ih hrest hd]

section Ready

variable {s : State} (hs : s.ready = true) {env : Envelope}
include hs

theorem exec_epBuild_of_check {c : Cause} (h : checkBuild env = some c) :
    exec (.epBuild env) s = .next { s with report := .raised c } :=
  whenReady_concludeBytes_error hs (by rw [buildPayload, h])

/-- The count of datasets is checked first. -/
theorem exec_epBuild_of_count (hcount : 255 < env.datasets.length) :
    exec (.epBuild env) s = .next { s with report := .raised (.bldCount env.datasets.length) } :=
  exec_epBuild_of_check hs (if_pos hcount)

/-- Of a list that is not too long, the first dataset that fails its checks gives the cause. -/
theorem exec_epBuild_of_first {before after : List Dataset} {d : Dataset} {c : Cause}
    (hds : env.datasets = before ++ d :: after) (hcount : env.datasets.length ≤ 255)
    (hbefore : ∀ x ∈ before, DatasetOk x ∧ (x.kind = 3 → env.datasets.length = 1))
    (hd : checkDataset env.datasets.length before.length d = some c) :
    exec (.epBuild env) s = .next { s with report := .raised c } := by
  refine exec_epBuild_of_check hs ((if_neg (Nat.not_lt.mpr hcount)).trans ?_)
  have hpass : ∀ x ∈ before, ∀ j, checkDataset env.datasets.length j x = none := fun x hx =>
    have ⟨hok, halone⟩ := hbefore x hx
    checkDataset_of_datasetOk hok halone
  rw [← Nat.zero_add before.length] at hd
  have hfirst := checkDatasets_of_first hpass hd after
  rwa [← hds] at hfirst

end Ready

end Sys2Proof.Machine

namespace Sys2Proof.Proofs

open Sys2Proof.Machine

/-- Settles O19: the payload is the header, the number of datasets and the datasets; packed bytes are sums of their
fields. -/
theorem payloadBuildLaysOutTheEnvelope : Obligations.PayloadBuildLaysOutTheEnvelope := by
  refine ⟨fun env => Decode.decode_encode (.epBuild env), fun s env hs henv => ?_⟩
  refine ⟨flagsByte env.info env.version env.retry env.flagsRsvd, Decode.typeByte env.packetType env.payloadType,
    BitVec.ofNat 8 env.datasets.length, toNat_flagsByte _ _ _ _, toNat_typeByte _ _,
    Nat.mod_eq_of_lt (Nat.lt_succ_of_le henv.1), ?_⟩
  rw [exec_epBuild_of_buildable hs henv, payloadOf_eq_walkedPart]
  rfl

/-- Settles O20: the datasets before the first bad one pass their checks, and the bad one raises by which check fails. -/
theorem payloadBuildChecksInOrder : Obligations.PayloadBuildChecksInOrder := by
  refine fun s env hs => ⟨exec_epBuild_of_count hs, fun before after d hds hcount hbefore => ⟨fun hbad => ?_, ?_⟩⟩
  · exact exec_epBuild_of_first hs hds hcount hbefore (checkDataset_of_not_datasetOk hbad _ _)
  · intro hok hthree hmixed
    exact exec_epBuild_of_first hs hds hcount hbefore (checkDataset_of_mixed hok hthree hmixed _)

end Sys2Proof.Proofs

end

section
/-! ## Proofs: FA.BUILD's frames and how they are received (spec/44_frame_build.md R233, R235, R236) -/

namespace Sys2Proof.Machine

open Sys2Proof.Safety

/-! ### Building -/

section Ready

variable {s : State} (hs : s.ready = true)
include hs

/-- A payload whose length LEN can hold is framed (R233). -/
theorem exec_faBuild_of_le {P : Bytes} (hP : P.length + 6 ≤ 65537) :
    exec (.faBuild P) s = .next { s with report := .ok (.bytes (frameOf P)) } :=
  (exec_faBuild_ok_iff hs P (frameOf P)).mpr (buildFrame_of_le hP)

/-- A longer payload raises BLD_LEN (R233). -/
theorem exec_faBuild_of_lt {P : Bytes} (hP : 65535 < P.length + 4) :
    exec (.faBuild P) s = .next { s with report := .raised (.bldLen P.length) } :=
  whenReady_concludeBytes_error hs (if_pos hP)

end Ready

/-! ### Receiving into an empty buffer -/

section Empty

variable {s : State} (hrx : s.rxbuf = []) {F : Bytes} (hF : F.length ≤ s.cfg.maxBufferSize)
include hrx hF

/-- A push that fits an empty buffer drains just the bytes pushed. -/
theorem pushBytes_of_empty : pushBytes s F =
    { s with rxbuf := (drain s.cfg F).2, report := .ok (.events (drain s.cfg F).1) } := by
  rw [pushBytes_eq, hrx, List.nil_append, pushResult_drain hF]

/-- The event of a first pass that resyncs is the first event of the push. -/
theorem pushBytes_report_of_again {e : Event} {B' : Bytes} (hpass : drainPass s.cfg F = .again [e] B') :
    (pushBytes s F).report = .ok (.events (e :: (drain s.cfg B').1)) := by
  rw [pushBytes_of_empty hrx hF, drain_again hpass]
  rfl

end Empty

/-- A built frame within the cap, alone in the buffer, is all that the loop takes. -/
theorem drain_frameOf_alone {cfg : Cfg} {P : Bytes} (hcap : cfg.lenCap ≤ 65537) (hP : P.length + 6 ≤ cfg.lenCap) :
    drain cfg (frameOf P) = ([.emit P, .stopEmpty], []) := by
  have hframe := drain_frameOf hcap hP []
  rwa [List.append_nil, drain_of_drains .empty] at hframe

/-! ### Damage -/

theorem flipBit_length (B : Bytes) (i j : Nat) : (flipBit B i j).length = B.length := List.length_modify _ _ _

/-- A flip inside a first part leaves what follows it. -/
theorem flipBit_append {P : Bytes} {i : Nat} (hi : i < P.length) (R : Bytes) (j : Nat) :
    flipBit (P ++ R) i j = flipBit P i j ++ R := by
  induction P generalizing i with
  | nil => exact absurd hi (Nat.not_lt_zero i)
  | cons b P ih =>
    cases i with
    | zero => rfl
    | succ i => exact congrArg (b :: ·) (ih (Nat.lt_of_succ_lt_succ hi))

/-- A flip in the payload of a candidate touches nothing else of it. -/
theorem flipBit_payload (b h l : Byte) {P : Bytes} {i : Nat} (hi : i < P.length) (R : Bytes) (j : Nat) :
    flipBit (b :: h :: l :: (P ++ R)) (i + 3) j = b :: h :: l :: (flipBit P i j ++ R) :=
  congrArg (b :: h :: l :: ·) (flipBit_append hi R j)

/-- The CRC field of a built frame is not the CRC of the damaged payload, and all else is as in the frame, so the first
pass ends at step 7 (R183). -/
theorem drainPass_flipBit_frameOf {cfg : Cfg} {P : Bytes} {i j : Nat} (hcap : cfg.lenCap ≤ 65537)
    (hP : P.length + 6 ≤ cfg.lenCap) (hi : i < P.length) (hj : j < 8) :
    ∃ B', drainPass cfg (flipBit (frameOf P) (i + 3) j) =
      .again [.dropCrc (crc16 (flipBit P i j)) (crc16 P)] B' := by
  obtain ⟨h, l, c1, c0, hframe, htotal, hcrc⟩ := frameOf_parts (Nat.le_trans hP hcap)
  have hlen : lenTotal h l = (flipBit P i j).length + 6 := by rw [flipBit_length, htotal]
  have hne : crc16 (flipBit P i j) ≠ (c1 ++ c0 : BitVec 16) := hcrc ▸ (crc16_ne_crc16_flipBit hi hj).symm
  rw [hframe, flipBit_payload _ _ _ hi, drainPass_etx (htotal ▸ hP) hlen, if_pos hne, hcrc]
  exact ⟨_, rfl⟩

end Sys2Proof.Machine

namespace Sys2Proof.Proofs

open Sys2Proof.Machine Sys2Proof.Safety

/-- Settles O15: a frame's parts, or BLD_LEN, by whether LEN can hold the length. -/
theorem frameBuildFramesThePayload : Obligations.FrameBuildFramesThePayload := by
  refine ⟨fun P => Decode.decode_encode (.faBuild P), fun s P hs => ⟨exec_faBuild_of_lt hs, fun hle => ?_⟩, ?_⟩
  · have hP : P.length + 6 ≤ 65537 := by omega
    obtain ⟨h, l, c1, c0, hframe, htotal, hcrc⟩ := frameOf_parts hP
    have hlen : h.toNat * 256 + l.toNat = P.length + 4 := Nat.add_right_cancel htotal
    have hbytes : frameOf P = [0x32, h, l] ++ P ++ [c1, c0, 0x34] := by rw [hframe]; simp
    exact ⟨h, l, c1, c0, hlen, hcrc ▸ exec_crcBlock_of_ready hs P, hbytes ▸ exec_faBuild_of_le hs hP⟩
  · exact fun s hs => exec_faBuild_of_le hs (P := []) (by decide)

/-- Settles O16: the loop emits the frame and stops empty. -/
theorem builtFrameIsReceived : Obligations.BuiltFrameIsReceived := by
  intro s P hs hrx hcap hP hfit
  refine ⟨frameOf P, exec_faBuild_of_le hs (Nat.le_trans hP hcap), ?_⟩
  rw [exec_faPush_of_ready hs, pushBytes_of_empty hrx (by rwa [frameOf_length]), drain_frameOf_alone hcap hP, ← hrx]

/-- Settles O17: CRC-16 tells the payload from the damaged one, whose candidate has the frame's CRC field. -/
theorem damagedFrameFailsTheCrcStep : Obligations.DamagedFrameFailsTheCrcStep := by
  intro s P i j hs hrx hcap hP hfit hi hj
  obtain ⟨B', hpass⟩ := drainPass_flipBit_frameOf hcap hP hi hj
  have hF : (flipBit (frameOf P) (i + 3) j).length ≤ s.cfg.maxBufferSize := by rwa [flipBit_length, frameOf_length]
  exact ⟨frameOf P, _, _, _, _, exec_faBuild_of_le hs (Nat.le_trans hP hcap), exec_faPush_of_ready hs _,
    pushBytes_report_of_again hrx hF hpass, (crc16_ne_crc16_flipBit hi hj).symm⟩

/-- Settles O18: the frame's total length is over the cap, which step 4 tests first. -/
theorem overlongBuiltFrameIsDropped : Obligations.OverlongBuiltFrameIsDropped := by
  intro s P hs hrx hP hcap hfit
  obtain ⟨h, l, c1, c0, hframe, htotal, _⟩ := frameOf_parts hP
  have hpass : drainPass s.cfg (frameOf P) = .again [.dropLencap (P.length + 6)] _ :=
    hframe ▸ htotal ▸ drainPass_lenCap (htotal ▸ hcap)
  exact ⟨frameOf P, _, _, exec_faBuild_of_le hs hP, exec_faPush_of_ready hs _,
    pushBytes_report_of_again hrx (by rwa [frameOf_length]) hpass⟩

end Sys2Proof.Proofs

end

section
/-! ## Proofs: SYS.RESET, FA.FLUSH and who writes each field (spec/45_system_ops.md R240 to R242) -/

namespace Sys2Proof.Decode

/-- The operands of a SYS.RESET command that are not just `cfg` and table give no operand (log entry 19). -/
theorem resetOperands_of_other_shape {B : Bytes} {arg : Arg} (h : ∀ a tab, B = [] → arg ≠ .reset a tab) :
    resetOperands B arg = .sysReset noResetArgs none := by
  unfold resetOperands
  split
  case h_1 a tab => exact absurd rfl (h a tab rfl)
  case h_2 => rfl

end Sys2Proof.Decode

namespace Sys2Proof.Machine

open Sys2Proof.Safety

/-! ### The checks on the operands of SYS.RESET, and what each one asks (R24, R240) -/

section Operands

variable {a : ResetArgs} {tab : Option DescTable}

theorem bufferSizeLegal_iff {n : Nat} (hn : a.maxBufferSize = some n) : bufferSizeLegal a = true ↔ 6 ≤ n := by
  simp only [bufferSizeLegal, hn]
  exact decide_eq_true_iff

theorem maxBufferSize_isSome_of_legal (h : bufferSizeLegal a = true) : a.maxBufferSize.isSome = true := by
  cases hn : a.maxBufferSize with
  | none => simp only [bufferSizeLegal, hn, Bool.false_eq_true] at h
  | some n => rfl

theorem lenCapLegal_iff {cfg : Cfg} : lenCapLegal cfg = true ↔ 6 ≤ cfg.lenCap ∧ cfg.lenCap ≤ 65537 :=
  ⟨lenCap_bounds_of_legal, fun ⟨hmin, hmax⟩ => (Bool.and_eq_true _ _).mpr ⟨decide_eq_true hmin, decide_eq_true hmax⟩⟩

theorem tableGivenLegal_iff {cfg : Cfg} :
    tableGivenLegal cfg tab = true ↔ ∃ t, tab = some t ∧ tableLegal cfg t = true := by
  cases tab <;> simp [tableGivenLegal]

/-- SYS.RESET names no operand exactly when those that must be given are, and the configuration and the table that they
make are legal. -/
theorem illegalFields_nil_iff_legal :
    illegalFields a tab = [] ↔
      a.maxBufferSize.isSome = true ∧ a.localAddr.isSome = true ∧ LegalCfg (cfgOf a) ∧
        ∃ t, tab = some t ∧ tableLegal (cfgOf a) t = true := by
  constructor
  · intro hnil
    obtain ⟨hsize, _, haddr, _, htab⟩ := (illegalFields_nil a tab).mp hnil
    exact ⟨maxBufferSize_isSome_of_legal hsize, haddr, legalCfg_of_illegalFields_nil hnil, tableGivenLegal_iff.mp htab⟩
  · rintro ⟨hgiven, haddr, ⟨hsize, hmin, hmax, hround⟩, htab⟩
    obtain ⟨n, hn⟩ := Option.isSome_iff_exists.mp hgiven
    have hn6 : 6 ≤ n := by simpa only [cfgOf, hn, Option.getD_some] using hsize
    exact (illegalFields_nil a tab).mpr ⟨(bufferSizeLegal_iff hn).mpr hn6, lenCapLegal_iff.mpr ⟨hmin, hmax⟩, haddr,
      (roundLegal_iff _).mpr hround, tableGivenLegal_iff.mpr htab⟩

/-! ### What is wrong with an operand that SYS.RESET names -/

theorem maxBufferSize_lt_of_illegal (h : bufferSizeLegal a = false) {n : Nat} (hn : a.maxBufferSize = some n) :
    n < 6 :=
  Nat.lt_of_not_le fun hle => Bool.false_ne_true (h.symm.trans ((bufferSizeLegal_iff hn).mpr hle))

/-- `LEN_CAP` is named only if it is given, because its default is legal. -/
theorem lenCap_of_illegal (h : lenCapLegal (cfgOf a) = false) : ∃ n, a.lenCap = some n ∧ (n < 6 ∨ 65537 < n) := by
  have hbounds : ¬ (6 ≤ (cfgOf a).lenCap ∧ (cfgOf a).lenCap ≤ 65537) :=
    fun hb => Bool.false_ne_true (h.symm.trans (lenCapLegal_iff.mpr hb))
  cases hn : a.lenCap with
  | none => exact absurd (by simp only [cfgOf, hn, Option.getD_none, defaultLenCap]; decide) hbounds
  | some n =>
    simp only [cfgOf, hn, Option.getD_some] at hbounds
    exact ⟨n, rfl, by omega⟩

/-- `ROUND` is named only if it is given, because its default is legal. -/
theorem round_of_illegal (h : roundLegal (cfgOf a).round = false) : ∃ r, a.round = some r ∧ ¬ LegalRound r := by
  cases hr : a.round with
  | none =>
    simp only [cfgOf, hr, Option.getD_none] at h
    exact absurd (h.symm.trans roundLegal_halfToEven) Bool.false_ne_true
  | some r =>
    simp only [cfgOf, hr, Option.getD_some] at h
    exact ⟨r, rfl, fun hlegal => Bool.false_ne_true (h.symm.trans ((roundLegal_iff r).mpr hlegal))⟩

theorem tableLegal_of_illegal {cfg : Cfg} (h : tableGivenLegal cfg tab = false) {t : DescTable} (ht : tab = some t) :
    tableLegal cfg t = false := by
  subst ht
  exact h

/-! ### The two outcomes of SYS.RESET -/

/-- With no operand named SYS.RESET installs them. -/
theorem exec_sysReset_of_legal {t : DescTable} (h : illegalFields a (some t) = []) (s : State) :
    exec (.sysReset a (some t)) s = .next (resetState s (cfgOf a) t) := by
  simp only [exec_sysReset, execSysReset, h, Option.getD_some]

/-- With some operand named SYS.RESET raises BAD_CONFIG on one of those, and the block is not ready. -/
theorem exec_sysReset_of_illegal (h : illegalFields a tab ≠ []) (s : State) :
    ∃ f ∈ illegalFields a tab,
      exec (.sysReset a tab) s = .next { s with ready := false, report := .raised (.badConfig f) } := by
  obtain ⟨hnil, _⟩ | hraised := execSysReset_cases a tab s
  · exact absurd hnil h
  · exact hraised

end Operands

/-- Of a SYS.RESET that gives nothing, the operands that must be given are named. -/
theorem illegalFields_noResetArgs :
    illegalFields Decode.noResetArgs none = [.maxBufferSize, .localAddr, .descTable] := rfl

/-- A SYS.RESET command decodes whatever its operands, so a step runs it. -/
theorem step_sysReset {s : State} {B : Bytes} {arg : Arg} {rest : List Command}
    (hs : s.inbox = ⟨.op, 0x00 :: B, arg⟩ :: rest) :
    step s = exec (Decode.resetOperands B arg) { s with inbox := rest } := by
  have hwf : (Decode.resetOperands B arg).wf = true := by
    unfold Decode.resetOperands
    split <;> rfl
  exact step_of_decode_ok hs rfl hwf

/-! ### FA.FLUSH -/

theorem exec_faFlush_of_ready {s : State} (hs : s.ready = true) :
    exec .faFlush s = .next { s with rxbuf := [], report := .ok .none } :=
  whenReady_of_ready hs _

/-- A push of nothing into an empty buffer stops at once (R174). -/
theorem pushBytes_nil_of_empty {s : State} (hrx : s.rxbuf = []) :
    pushBytes s [] = { s with rxbuf := [], report := .ok (.events [.stopEmpty]) } := by
  rw [pushBytes_of_empty hrx (Nat.zero_le _), drain_of_drains .empty]

/-! ### All that one instruction can do -/

/-- SYS.RESET is a writer of both elements. -/
theorem writes_of_isReset {i : Instr} (hi : isReset i = true) : writesRxbuf i = true ∧ writesCrc i = true := by
  obtain ⟨a, tab, rfl⟩ := eq_sysReset_of_isReset hi
  exact ⟨rfl, rfl⟩

/-- Behind its NOT_READY test, an instruction other than SYS.RESET writes `RXBUF` or `CRC_ACC` if it is a writer of that,
and else the report only. -/
theorem exec_writes {i : Instr} (hi : isReset i = false) (s : State) :
    ∃ k, exec i s = whenReady s k ∧
      ((writesRxbuf i = true ∧ ∃ B r, k = finish (setRxbuf s B) r) ∨
        (writesCrc i = true ∧ ∃ c r, k = finish (setCrc s c) r) ∨ ∃ r, k = { s with report := r }) := by
  cases hbuf : writesRxbuf i with
  | true =>
    obtain e | ⟨data, e⟩ := exec_of_writesRxbuf hi hbuf s
    all_goals exact ⟨_, e, .inl ⟨rfl, _, _, rfl⟩⟩
  | false =>
    cases hcrc : writesCrc i with
    | true =>
      obtain ⟨c, e⟩ := exec_of_writesCrc hi hcrc s
      exact ⟨_, e, .inr (.inl ⟨rfl, c, _, rfl⟩)⟩
    | false =>
      obtain ⟨r, e⟩ := exec_of_not_writer hbuf hcrc s
      exact ⟨_, e, .inr (.inr ⟨r, rfl⟩)⟩

/-- SYS.RESET installs a configuration and a table, or makes the block not ready; a writer of `RXBUF` or of `CRC_ACC` ends
ok and writes that; and any instruction but SYS.RESET may write the report only. -/
theorem exec_cases {s t : State} {i : Instr} (h : exec i s = .next t) :
    (isReset i = true ∧ ((∃ cfg tab, t = resetState s cfg tab) ∨ ∃ c, t = raise { s with ready := false } c)) ∨
    (writesRxbuf i = true ∧ ∃ B r, t = finish (setRxbuf s B) r) ∨
    (writesCrc i = true ∧ ∃ c r, t = finish (setCrc s c) r) ∨
    (isReset i = false ∧ ∃ r, t = { s with report := r }) := by
  cases hreset : isReset i with
  | true =>
    obtain ⟨a, tab, rfl⟩ := eq_sysReset_of_isReset hreset
    rw [exec_sysReset] at h
    refine .inl ⟨rfl, ?_⟩
    obtain ⟨_, T, _, e⟩ | ⟨f, _, e⟩ := execSysReset_cases a tab s
    all_goals rw [e] at h; cases h
    · exact .inl ⟨_, _, rfl⟩
    · exact .inr ⟨_, rfl⟩
  | false =>
    obtain ⟨k, e, hk⟩ := exec_writes hreset s
    rw [e] at h
    obtain ⟨_, rfl⟩ | ⟨_, rfl⟩ := whenReady_cases h
    · obtain hbuf | hcrc | hreport := hk
      · exact .inr (.inl hbuf)
      · exact .inr (.inr (.inl hcrc))
      · exact .inr (.inr (.inr ⟨rfl, hreport⟩))
    · exact .inr (.inr (.inr ⟨rfl, .raised .notReady, rfl⟩))

/-! ### The frame of one instruction, field by field (R20, R23, R242) -/

section Frame

variable {s t : State} {i : Instr} (h : exec i s = .next t)
include h

theorem exec_inbox : t.inbox = s.inbox := by
  obtain ⟨_, ⟨_, _, rfl⟩ | ⟨_, rfl⟩⟩ | ⟨_, _, _, rfl⟩ | ⟨_, _, _, rfl⟩ | ⟨_, _, rfl⟩ := exec_cases h
  all_goals rfl

theorem exec_configuration (hi : isReset i = false) :
    t.cfg = s.cfg ∧ t.descTable = s.descTable ∧ t.ready = s.ready := by
  obtain ⟨hreset, _⟩ | ⟨_, _, _, rfl⟩ | ⟨_, _, _, rfl⟩ | ⟨_, _, rfl⟩ := exec_cases h
  case inl => exact absurd (hi.symm.trans hreset) Bool.false_ne_true
  all_goals exact ⟨rfl, rfl, rfl⟩

theorem exec_rxbuf (hi : writesRxbuf i = false) : t.rxbuf = s.rxbuf := by
  obtain ⟨hreset, _⟩ | ⟨hbuf, _⟩ | ⟨_, _, _, rfl⟩ | ⟨_, _, rfl⟩ := exec_cases h
  · exact absurd (hi.symm.trans (writes_of_isReset hreset).1) Bool.false_ne_true
  · exact absurd (hi.symm.trans hbuf) Bool.false_ne_true
  · rfl
  · rfl

theorem exec_crcAcc (hi : writesCrc i = false) : t.crcAcc = s.crcAcc := by
  obtain ⟨hreset, _⟩ | ⟨_, _, _, rfl⟩ | ⟨hcrc, _⟩ | ⟨_, _, rfl⟩ := exec_cases h
  · exact absurd (hi.symm.trans (writes_of_isReset hreset).2) Bool.false_ne_true
  · rfl
  · exact absurd (hi.symm.trans hcrc) Bool.false_ne_true
  · rfl

end Frame

end Sys2Proof.Machine

namespace Sys2Proof.Proofs

open Sys2Proof.Machine Sys2Proof.Safety

/-- Settles O53: of all that an instruction can do, only what a writer of a field does touches that field. -/
theorem eachFieldHasItsWriters : Obligations.EachFieldHasItsWriters :=
  fun _ _ _ h => ⟨exec_inbox h, exec_configuration h, exec_rxbuf h, exec_crcAcc h⟩

/-- Settles O48: legal operands are the ones of which SYS.RESET names none, and the state it then installs is written
with them and the defaults of R24. -/
theorem resetInstallsTheConfiguration : Obligations.ResetInstallsTheConfiguration :=
  fun s bound home cap slack window lenient round tab hcfg htab =>
    exec_sysReset_of_legal (a := ⟨some bound, some home, cap, slack, window, lenient, round⟩)
      (illegalFields_nil_iff_legal.mpr ⟨rfl, rfl, hcfg, tab, rfl, htab⟩) s

/-- Settles O49: with operands that are not all given and legal SYS.RESET names some, and the field that it records is
one that failed its check. -/
theorem illegalResetLeavesTheBlockNotReady : Obligations.IllegalResetLeavesTheBlockNotReady := by
  intro s a tab hillegal
  obtain ⟨f, hf, hexec⟩ := exec_sysReset_of_illegal (mt illegalFields_nil_iff_legal.mp hillegal) s
  have hfailed := (mem_illegalFields a tab f).mp hf
  refine ⟨f, ?_, ?_, ?_, ?_, ?_, hexec⟩
  · rintro rfl n hn
    exact maxBufferSize_lt_of_illegal hfailed hn
  · rintro rfl
    exact lenCap_of_illegal hfailed
  · rintro rfl
    exact hfailed
  · rintro rfl
    exact round_of_illegal hfailed
  · rintro rfl t ht
    exact tableLegal_of_illegal hfailed ht

/-- Settles O50: every other arm stands behind the NOT_READY test. -/
theorem notReadyRejectsEveryOtherOperation : Obligations.NotReadyRejectsEveryOtherOperation :=
  fun _ _ hs hi => exec_of_not_ready hs hi

/-- Settles O52: the flush leaves the empty buffer, on which the push of nothing stops. -/
theorem flushEmptiesTheReceiveBuffer : Obligations.FlushEmptiesTheReceiveBuffer := by
  refine ⟨Decode.decode_encode .faFlush, fun s hs => ⟨exec_faFlush_of_ready hs, ?_⟩⟩
  have hready : ({ s with rxbuf := [], report := .ok .none } : State).ready = true := hs
  have hpush := exec_faPush_of_ready hready []
  rw [pushBytes_nil_of_empty rfl] at hpush
  rw [execAll_cons (exec_faFlush_of_ready hs), execAll_cons hpush, execAll]

/-- Settles O60: the decoder makes every SYS.RESET command a SYS.RESET, and of one that gives nothing an operand that must
be given is recorded. -/
theorem resetCommandAlwaysEndsInAnOutcome : Obligations.ResetCommandAlwaysEndsInAnOutcome := by
  intro s B arg rest hs
  constructor
  · rintro a tab rfl rfl
    exact step_sysReset hs
  · intro hshape
    have hillegal : illegalFields Decode.noResetArgs none ≠ [] := illegalFields_noResetArgs ▸ List.cons_ne_nil _ _
    rw [step_sysReset hs, Decode.resetOperands_of_other_shape hshape, ← illegalFields_noResetArgs]
    exact exec_sysReset_of_illegal hillegal _

end Sys2Proof.Proofs

end

section
/-! ## Proofs: an overflow, and what a cause leaves (spec/60_exceptions.md R255, R256, R261) -/

namespace Sys2Proof.Machine

open Sys2Proof.Safety

/-! ### A push over the bound -/

@[simp] theorem pushBytes_ready (s : State) (data : Bytes) : (pushBytes s data).ready = s.ready := rfl

/-- A push over the bound drops the bytes held and the bytes pushed (R172). -/
theorem pushBytes_overflow {s : State} {data : Bytes} (h : s.cfg.maxBufferSize < (s.rxbuf ++ data).length) :
    pushBytes s data = { s with rxbuf := [], report := .ok (.events [.overflow (s.rxbuf ++ data).length]) } := by
  rw [pushBytes_eq, pushResult_overflow h]

/-! ### An instruction that ends in a cause -/

/-- Of all that an instruction can do, only `raise` reports a cause, and only SYS.RESET makes the block not ready before
that. -/
theorem exec_raised {s t : State} {i : Instr} {c : Cause} (h : exec i s = .next t) (hc : t.report = .raised c) :
    (isReset i = false ∧ t = raise s c) ∨ (isReset i = true ∧ t = raise { s with ready := false } c) := by
  obtain ⟨hreset, ⟨_, _, rfl⟩ | ⟨c', rfl⟩⟩ | ⟨_, _, _, rfl⟩ | ⟨_, _, _, rfl⟩ | ⟨hother, r, rfl⟩ := exec_cases h
  · cases hc
  · obtain rfl : c' = c := Report.raised.inj hc
    exact .inr ⟨hreset, rfl⟩
  · cases hc
  · cases hc
  · obtain rfl : r = .raised c := hc
    exact .inl ⟨hother, rfl⟩

end Sys2Proof.Machine

namespace Sys2Proof.Proofs

open Sys2Proof.Machine Sys2Proof.Safety

/-- Settles O7: STX and ETX push like FA.PUSH, the bound is tested before the loop, and a push leaves the block ready for
the next one. -/
theorem overflowDropsTheWholeBuffer : Obligations.OverflowDropsTheWholeBuffer := by
  intro s data i hs hi hover
  have hexec : exec i s = .next (pushBytes s data) := exec_push_of_ready hs hi
  have hready : (pushBytes s data).ready = true := (pushBytes_ready s data).trans hs
  refine ⟨pushBytes_overflow hover ▸ hexec, fun more => ?_⟩
  exact ⟨_, _, hexec, exec_faPush_of_ready hready more, hready⟩

/-- Settles O54: a cause comes from `raise`, which writes the report only, and the state it is raised in is the one before
the operation or, in SYS.RESET, that one made not ready. -/
theorem causeLeavesTheState : Obligations.CauseLeavesTheState := by
  intro s t i c h hc
  obtain ⟨hother, rfl⟩ | ⟨hreset, rfl⟩ := exec_raised h hc
  · exact ⟨fun _ => rfl, fun hi => absurd (hother.symm.trans hi) Bool.false_ne_true⟩
  · exact ⟨fun hi => absurd (hi.symm.trans hreset) Bool.false_ne_true, fun _ => rfl⟩

end Sys2Proof.Proofs

end
